-- ==== Sys2Proof/Word.lean ====
section
/-! DEFINITION. The words of VLC-FEC: 32-bit register words, bytes, and the one rounding division of the spec's notation. -/

namespace Sys2Proof

/-- A register word (00_scope.md R9): 32 bits, unsigned, bit 0 the least significant. -/
abbrev Word := BitVec 32

/-- A byte (00_scope.md R7). -/
abbrev Byte := BitVec 8

/-- A finite sequence of bytes, index 0 first (00_scope.md R7). -/
abbrev Bytes := List Byte

/-- A bitstream (00_scope.md R7): index 0 is the first bit on the wire, `true` is the bit 1. -/
abbrev Bits := List Bool

/-- `ceil_div(a, b)` for `b > 0` (00_scope.md R7). -/
def ceilDiv (a b : Nat) : Nat := (a + b - 1) / b

end Sys2Proof
end

