-- ==== Sys2Proof/Config.lean ====
section
/-! DEFINITION. What is fixed for one machine: the constants of 00_scope.md R5, the buffer capacity of R6, the block codec
(a parameter, 42_codec.md R160) and the free values of what 93_implementation_defined.md leaves unspecified. -/

namespace Sys2Proof

namespace Config

/-- `N`, the codeword block size in bytes (00_scope.md R5). -/
def blockN : Nat := 255

/-- `K`, the message block size in bytes (00_scope.md R5). -/
def messageK : Nat := 223

/-- `P = N - K`, the parity bytes of a codeword (00_scope.md R5). -/
def parityP : Nat := 32

/-- `HDR_BITS`, the length of a frame header in bits (00_scope.md R5). -/
def hdrBits : Nat := 27

/-- `LEN_MAX = 2^24 - 1` (00_scope.md R5). -/
def lenMax : Nat := 16777215

/-- `DIM_MAX = 2^12 - 1` (00_scope.md R5). -/
def dimMax : Nat := 4095

/-- `PAD_BYTE`, the padding of the last text block (00_scope.md R5, 41_chunker.md R144). -/
def padByte : Byte := 0x00#8

/-- Eight `FILL_BIT`s: the image filler byte (00_scope.md R5, 44_decoder.md R215). -/
def fillByte : Byte := 0xFF#8

/-- `CAP_BITS`, the capacity of each buffer in bits, fixed at `2^29` (00_scope.md R6; log entry 4). -/
def capBits : Nat := 536870912

/-- The capacity of each buffer in bytes, `CAP_BITS/8` (20_memory.md R60). -/
def capBytes : Nat := 67108864

/-- The constant the `ID` register reads (10_state.md R22). -/
def idWord : Word := 0x00FFDF20#32

end Config

/-- The Block Codec as the two total functions of 42_codec.md R160. `dec` answers `none` for the spec's `Fail`. -/
structure Codec where
  /-- `codec_enc`: the codeword of a message. -/
  enc : Bytes → Bytes
  /-- `codec_dec`: the corrected message of a codeword block, or `none` for `Fail`. -/
  dec : Bytes → Option Bytes

namespace Config

/-- The length the attached codec answers to an encode request: 8 bits, 30_encoding.md R104. Free. -/
opaque encLen : Bytes → BitVec 8

/-- Byte `j` of the attached codec's answer to an encode request. Free. -/
opaque encByte : Bytes → Nat → Byte

/-- The `ok` bit of the attached codec's answer to a decode request (30_encoding.md R104). Free. -/
opaque decOk : Bytes → Bool

/-- The length the attached codec answers to a decode request: 8 bits, 30_encoding.md R104. Free. -/
opaque decLen : Bytes → BitVec 8

/-- Byte `j` of the attached codec's answer to a decode request. Free. -/
opaque decByte : Bytes → Nat → Byte

/-- The codec attached to this machine: any two functions whose answers the port can carry, 0 to 255 bytes
(30_encoding.md R104, 42_codec.md R160, R171). DEDUCED, log entry 3. -/
def codec : Codec where
  enc m := (List.range (encLen m).toNat).map (encByte m)
  dec c := if decOk c then some ((List.range (decLen c).toNat).map (decByte c)) else none

/-- The `n`-th unspecified byte drawn (93_implementation_defined.md U1 to U3, U5). Free. -/
opaque freeByte : Nat → Byte

/-- The `n`-th unspecified register value drawn (93_implementation_defined.md U3). Free. -/
opaque freeWord : Nat → Word

end Config

end Sys2Proof
end

