-- ==== Sys2Proof/Syntax.lean ====
section
/-! DEFINITION. The instructions: one constructor for each row of spec/opcode_table.json. -/

namespace Sys2Proof

/-- The nine commands of 30_encoding.md R101 and the two wire headers of 40_header.md R121, R122. -/
inductive Instr where
  /-- `NOP` (45_control.md R243). -/
  | nop
  /-- `ENCT` (43_encoder.md R181). -/
  | enct
  /-- `ENCI` (43_encoder.md R184). -/
  | enci
  /-- `DEC` (44_decoder.md R201). -/
  | dec
  /-- `RAW` (44_decoder.md R221). -/
  | raw
  /-- `HPKT` (40_header.md R126). -/
  | hpkt
  /-- `HPKI` (40_header.md R127). -/
  | hpki
  /-- `HUNP` (40_header.md R128). -/
  | hunp
  /-- `CLR` (45_control.md R244). -/
  | clr
  /-- `HDR.TEXT`, the wire header of a text frame of `len` bytes (40_header.md R121). -/
  | hdrText (len : Nat)
  /-- `HDR.IMAGE`, the wire header of an image frame (40_header.md R122). -/
  | hdrImage (height width : Nat)
deriving DecidableEq, Repr

/-- The issued opcode `OP` (10_state.md R43), one name for each opcode of 30_encoding.md R101. -/
inductive Opcode where
  | nop | enct | enci | dec | raw | hpkt | hpki | hunp | clr
deriving DecidableEq, Repr

/-- The command an opcode names (30_encoding.md R101). -/
def Opcode.instr : Opcode → Instr
  | .nop => .nop
  | .enct => .enct
  | .enci => .enci
  | .dec => .dec
  | .raw => .raw
  | .hpkt => .hpkt
  | .hpki => .hpki
  | .hunp => .hunp
  | .clr => .clr

/-- What stands for an instruction outside: a word written to `CMD` (30_encoding.md R100) or the bits of a frame from its
first bit on (30_encoding.md R91). -/
inductive Code where
  | command (w : Word)
  | wire (bits : Bits)
deriving DecidableEq, Repr

end Sys2Proof
end

