-- ==== Sys2Proof/WellFormed.lean ====
section
/-! DEFINITION. Which instructions are well-formed: the ranges of the header fields (30_encoding.md R92). -/

namespace Sys2Proof

/-- A text length fits its 24-bit field (40_header.md R121). -/
def lenInRange (len : Nat) : Bool := len ≤ Config.lenMax

/-- A height or width fits its 12-bit field (40_header.md R122). -/
def dimInRange (d : Nat) : Bool := d ≤ Config.dimMax

/-- An instruction is well-formed when its header fields are in range; a command has no operand field (30_encoding.md R100). -/
def Instr.wellFormed : Instr → Bool
  | .nop => true
  | .enct => true
  | .enci => true
  | .dec => true
  | .raw => true
  | .hpkt => true
  | .hpki => true
  | .hunp => true
  | .clr => true
  | .hdrText len => lenInRange len
  | .hdrImage height width => dimInRange height && dimInRange width

end Sys2Proof
end

