-- ==== Sys2Proof/Decode.lean ====
section
/-! DEFINITION. Bit strings and numbers (00_scope.md R8), the header functions (40_header.md R121 to R123), the decoder of
command words and wire headers, total and rejecting by name, and after it the encoder. -/

namespace Sys2Proof

/-! ### Bit strings and numbers -/

/-- `u2b(n, v)`: the `n` bits of `v`, most significant first (00_scope.md R8). -/
def u2b (n v : Nat) : Bits := (List.range n).map fun i => decide ((v / 2 ^ (n - 1 - i)) % 2 = 1)

/-- `b2u(s)`: the number a bit string stands for, most significant bit first (00_scope.md R8). -/
def b2u (s : Bits) : Nat := s.foldl (fun acc b => 2 * acc + b.toNat) 0

/-! ### Headers -/

/-- `hdr_text(L)` (40_header.md R121): tag `000`, then the length. -/
def hdrTextBits (len : Nat) : Bits := u2b 3 0 ++ u2b 24 len

/-- `hdr_image(H, W)` (40_header.md R122): tag `001`, then height, then width. -/
def hdrImageBits (height width : Nat) : Bits := u2b 3 1 ++ u2b 12 height ++ u2b 12 width

/-- What `hdr_parse` returns (40_header.md R123). -/
inductive ParsedHeader where
  | short
  | badTag (t : Nat)
  | text (len : Nat)
  | image (height width : Nat)
deriving DecidableEq, Repr

/-- `hdr_parse(s)` (40_header.md R123): the tag is read first and decides how the next 24 bits are read. -/
def hdrParse (s : Bits) : ParsedHeader :=
  if s.length < 3 then .short
  else if 2 ≤ b2u (s.take 3) then .badTag (b2u (s.take 3))
  else if s.length < Config.hdrBits then .short
  else if b2u (s.take 3) = 0 then .text (b2u ((s.drop 3).take 24))
  else .image (b2u ((s.drop 3).take 12)) (b2u ((s.drop 15).take 12))

/-! ### Decoder -/

/-- Why the decoder rejects. -/
inductive DecodeError where
  /-- `w[31:4] != 0` in a command word (30_encoding.md R102). -/
  | reservedBits
  /-- `w[3:0]` in 9..15 in a command word (30_encoding.md R102). -/
  | reservedOpcode
  /-- Fewer bits than a header needs (40_header.md R123). -/
  | headerShort
  /-- An unrecognised type tag, 2 to 7 (30_encoding.md R93). -/
  | badTag (t : Nat)
deriving DecidableEq, Repr

/-- The opcode of a command word (30_encoding.md R101); the reserved bits are tested before the opcode (45_control.md R246). -/
def decodeOpcode (w : Word) : Except DecodeError Opcode :=
  if w.extractLsb' 4 28 ≠ 0#28 then .error .reservedBits
  else match (w.extractLsb' 0 4).toNat with
    | 0 => .ok .nop
    | 1 => .ok .enct
    | 2 => .ok .enci
    | 3 => .ok .dec
    | 4 => .ok .raw
    | 5 => .ok .hpkt
    | 6 => .ok .hpki
    | 7 => .ok .hunp
    | 8 => .ok .clr
    | _ => .error .reservedOpcode

/-- The instruction a command word stands for. -/
def decodeCommand (w : Word) : Except DecodeError Instr :=
  match decodeOpcode w with
  | .ok op => .ok op.instr
  | .error e => .error e

/-- The wire header at the start of a bitstream (40_header.md R123); the bits after the first 27 are not looked at. -/
def decodeWire (bits : Bits) : Except DecodeError Instr :=
  match hdrParse bits with
  | .short => .error .headerShort
  | .badTag t => .error (.badTag t)
  | .text len => .ok (.hdrText len)
  | .image height width => .ok (.hdrImage height width)

/-- The decoder. -/
def decode : Code → Except DecodeError Instr
  | .command w => decodeCommand w
  | .wire bits => decodeWire bits

/-- The instruction of an opcode-table row whose `nbits` bits are `w`. A row of 27 bits or fewer is a wire header: `w` is
its bit string read as a number, so the first bit on the wire has weight `2^26`. Every other row is a 32-bit command word
(log entry 10). -/
def decodeTableWord (nbits w : Nat) : Option Instr :=
  if nbits ≤ Config.hdrBits then (decode (.wire (u2b Config.hdrBits w))).toOption
  else (decode (.command (BitVec.ofNat 32 w))).toOption

/-! ### Encoder -/

/-- The code of an instruction: the word of 30_encoding.md R101, or the 27 header bits of R91. -/
def encode : Instr → Code
  | .nop => .command 0x00000000#32
  | .enct => .command 0x00000001#32
  | .enci => .command 0x00000002#32
  | .dec => .command 0x00000003#32
  | .raw => .command 0x00000004#32
  | .hpkt => .command 0x00000005#32
  | .hpki => .command 0x00000006#32
  | .hunp => .command 0x00000007#32
  | .clr => .command 0x00000008#32
  | .hdrText len => .wire (hdrTextBits len)
  | .hdrImage height width => .wire (hdrImageBits height width)

end Sys2Proof
end

