-- ==== Sys2Proof/Machine/State.lean ====
section
/-! DEFINITION. The state of VLC-FEC (10_state.md R20), the outside world's pending actions, the reasons a step can stop, and
the state after reset (10_state.md R45, 70_reset_and_hazards.md R301). -/

namespace Sys2Proof.Machine

/-- Why the machine stops. -/
inductive Fault where
  /-- A command reads a byte of `IBUF` that the host has not written since reset (20_memory.md R72, 93_implementation_defined.md
  U6). Raised by the reads of the input in phases HDR and BLOCK. Safe: the model stops where the hardware goes on with an
  unspecified byte. -/
  | unwrittenInput
deriving DecidableEq, Repr

/-- Why the model declines to step. -/
inductive Refusal where
  /-- The instruction has no meaning in this model. Raised by an arm of `exec` that is not modelled. Safe. -/
  | notModelled (mnemonic : String)
deriving DecidableEq, Repr

/-- The defined bits of `CTRL` (10_state.md R25). -/
@[ext]
structure Ctrl where
  /-- `CTRL[0]`, fallback enable (10_state.md R27). -/
  fben : Bool
  /-- `CTRL[1]`, interrupt enable (10_state.md R26). -/
  ien : Bool
deriving DecidableEq, Repr

/-- The defined fields of `STATUS` (10_state.md R28). -/
@[ext]
structure Status where
  /-- Bit 0 (10_state.md R29). -/
  busy : Bool
  /-- Bit 1 (10_state.md R30). -/
  done : Bool
  /-- Bit 2 (10_state.md R31). -/
  degraded : Bool
  /-- Bit 3 (10_state.md R32). -/
  txe : Bool
  /-- Bits 6:4 (10_state.md R33). -/
  ftype : BitVec 3
  /-- Bits 11:8 (10_state.md R34). -/
  err : BitVec 4
  /-- Bits 13:12 (10_state.md R35). -/
  errsub : BitVec 2
deriving DecidableEq, Repr

/-- The sequencer phase (10_state.md R40). -/
inductive Phase where
  | idle | hdr | block | fin
deriving DecidableEq, Repr

/-- The engine's working values (10_state.md R43), in exact arithmetic (00_scope.md R7; log entry 11). -/
@[ext]
structure Work where
  /-- `OP`, the issued opcode. -/
  op : Opcode
  /-- `T`, the tag. -/
  t : BitVec 3
  /-- `L`, the text length in bytes. -/
  l : Nat
  /-- `H`, the image height. -/
  h : Nat
  /-- `W`, the image width. -/
  w : Nat
  /-- `NBLK`, the number of blocks. -/
  nblk : Nat
  /-- `ACC`, the payload bytes accumulated or the codeword bytes appended. -/
  acc : Nat
  /-- `NFAIL`, the fallback count. -/
  nfail : Nat
  /-- `out`, the bitstream an encoder is building (43_encoder.md R181, R184; log entry 15). -/
  out : Bits
deriving DecidableEq, Repr

/-- The working values while no command runs: they have no meaning then (10_state.md R43). DESIGN CHOICE, log entry 8. -/
def Work.none : Work :=
  { op := .nop, t := 0#3, l := 0, h := 0, w := 0, nblk := 0, acc := 0, nfail := 0, out := [] }

/-- An answer at the codec port (30_encoding.md R104); its `len` field is the number of data bytes. -/
structure CodecAnswer where
  ok : Bool
  data : Bytes
deriving DecidableEq, Repr

/-- What happens outside the engine, one action of one agent (00_scope.md R13, 30_encoding.md R105; log entry 2). -/
inductive Event where
  /-- The host writes `w` to `CMD`, and engine and codec run until the command has ended, as one transition
  (45_control.md R249; log entry 1). -/
  | command (w : Word)
  /-- `WR reg, v`: the host writes register `reg`. -/
  | write (reg : Fin 16) (v : Word)
  /-- `RD reg`: the host reads register `reg`. -/
  | read (reg : Fin 16)
  /-- `STB i, v`: the host writes `IBUF[i]`. -/
  | storeIn (i : Nat) (v : Byte)
  /-- The host reads `IBUF[i]` (20_memory.md R61). -/
  | loadIn (i : Nat)
  /-- The host writes `OBUF[i]`, which is ignored (20_memory.md R61). -/
  | storeOut (i : Nat) (v : Byte)
  /-- `LDB i`: the host reads `OBUF[i]`. -/
  | loadOut (i : Nat)
  /-- The engine makes one step of the table of 45_control.md R248. -/
  | engine
  /-- The codec answers the outstanding request. -/
  | codec
  /-- `rst` is asserted (70_reset_and_hazards.md R300). -/
  | reset
deriving DecidableEq, Repr

/-- The state of the machine: the registers of 10_state.md R21, the buffers of 20_memory.md R60, the sequencer and working
values of 10_state.md R40 and R43, the answer at the codec port, and three fields of the model's own. -/
@[ext]
structure State where
  /-- `CTRL`, index 1. -/
  ctrl : Ctrl
  /-- `STATUS`, index 3. -/
  status : Status
  /-- `ARG0`, index 4. -/
  arg0 : Word
  /-- `ARG1`, index 5. -/
  arg1 : Word
  /-- `IN_LEN`, index 6. -/
  inLen : Word
  /-- `OUT_LEN`, index 7. -/
  outLen : Word
  /-- `RES0`, index 8. -/
  res0 : Word
  /-- `RES1`, index 9. -/
  res1 : Word
  /-- `BLKCNT`, index 10. -/
  blkcnt : Word
  /-- `FAILCNT`, index 11. -/
  failcnt : Word
  /-- `ERRINFO`, index 12. -/
  errinfo : Word
  /-- `IBUF`: the bytes that have a value, indices rising; a byte not listed has none (log entry 5). -/
  ibuf : List Host.Cell
  /-- `OBUF`: the bytes the engine wrote, indices rising; a byte not listed is unspecified (log entry 6). -/
  obuf : List Host.Cell
  /-- `PHASE`. -/
  phase : Phase
  /-- `BLK`. -/
  blk : Nat
  /-- The working values. -/
  work : Work
  /-- The codec's answer, while it waits at the port (42_codec.md R167; log entry 14). -/
  answer : Option CodecAnswer
  /-- The MODEL's own: the outside world's pending actions, oldest first (log entry 2). -/
  events : List Event
  /-- The MODEL's own: the word the host's last read returned (log entry 12). -/
  portData : Word
  /-- The MODEL's own: how many free values have been drawn (log entry 7). -/
  freeCount : Nat
deriving DecidableEq, Repr

/-- `STATUS` with every field 0 (10_state.md R45). -/
def Status.clear : Status :=
  { busy := false, done := false, degraded := false, txe := false, ftype := 0#3, err := 0#4, errsub := 0#2 }

/-- The machine right after reset (10_state.md R45, 70_reset_and_hazards.md R301): `CTRL = 1`, every other register 0, engine
idle, no byte of either buffer with a value. -/
def State.reset : State :=
  { ctrl := { fben := true, ien := false }
    status := Status.clear
    arg0 := 0#32, arg1 := 0#32, inLen := 0#32, outLen := 0#32, res0 := 0#32, res1 := 0#32
    blkcnt := 0#32, failcnt := 0#32, errinfo := 0#32
    ibuf := [], obuf := []
    phase := .idle, blk := 0, work := Work.none, answer := none
    events := [], portData := 0#32, freeCount := 0 }

end Sys2Proof.Machine
end

