-- ==== Sys2Proof/Machine/Ops.lean ====
section
/-! DEFINITION. The named operations over the buffers and the registers: buffer cells (20_memory.md R60), issue, completion
and clearing (45_control.md R240 to R242), the abort sequence (60_exceptions.md R268), the refusal of an illegal command
(45_control.md R246), reset (70_reset_and_hazards.md R300) and the moves of the sequencer (45_control.md R248). -/

namespace Sys2Proof.Machine

/-- The outcome of a step. -/
abbrev Result := Host.Outcome State Fault Refusal

/-- Go on with `f` from a next state; a fault or a refusal ends the command. -/
def andThen (r : Result) (f : State → Result) : Result :=
  match r with
  | .next s => f s
  | .fault e => .fault e
  | .refused e => .refused e

/-! ### Buffers -/

/-- The canonical form of a buffer: indices strictly rising, each inside the buffer (20_memory.md R60). A byte not listed has
no value, so no entry can equal what an unlisted index reads as. -/
abbrev Memory.wf (m : List Host.Cell) : Prop :=
  (m.map Prod.fst).Pairwise (· < ·) ∧ ∀ c ∈ m, c.1 < Config.capBytes

/-- The byte at index `a`, if it has a value. -/
def Memory.get : List Host.Cell → Nat → Option Byte
  | [], _ => none
  | (b, v) :: m, a => if a = b then some v else Memory.get m a

/-- Write the byte at index `a`. -/
def Memory.set : List Host.Cell → Nat → Byte → List Host.Cell
  | [], a, v => [(a, v)]
  | (b, u) :: m, a, v =>
    if a < b then (a, v) :: (b, u) :: m
    else if a = b then (a, v) :: m
    else (b, u) :: Memory.set m a v

/-- Write consecutive bytes from index `a` on. -/
def Memory.setBytes : List Host.Cell → Nat → Bytes → List Host.Cell
  | m, _, [] => m
  | m, a, v :: vs => Memory.setBytes (Memory.set m a v) (a + 1) vs

/-- A buffer whose bytes from index `a` on are given and which has no other value. -/
def Memory.ofBytesFrom : Nat → Bytes → List Host.Cell
  | _, [] => []
  | a, v :: vs => (a, v) :: Memory.ofBytesFrom (a + 1) vs

/-- A buffer that holds a byte sequence from index 0 on and nothing else. -/
def Memory.ofBytes (bs : Bytes) : List Host.Cell := Memory.ofBytesFrom 0 bs

/-- The `n` bytes from index `a` on, if each has a value. -/
def Memory.readBytes (m : List Host.Cell) : Nat → Nat → Option Bytes
  | _, 0 => some []
  | a, n + 1 =>
    match Memory.get m a, Memory.readBytes m (a + 1) n with
    | some v, some vs => some (v :: vs)
    | _, _ => none

/-! ### Errors -/

/-- The errors that abort a command or refuse one (60_exceptions.md R261 to R263, R265 to R267). `TextDecodingError` (R264) is
not among them: it is the flag `TXE`, and its number 4 never stands in `ERR`. -/
inductive ErrKind where
  | range
  | uncorrectableBlock
  | unrecognizedFrameType
  | bitstreamLength
  | illegalCommand
  | operand
deriving DecidableEq, Repr

/-- The code of an error in `STATUS.ERR` (10_state.md R34). -/
def errCode : ErrKind → BitVec 4
  | .range => 1#4
  | .uncorrectableBlock => 2#4
  | .unrecognizedFrameType => 3#4
  | .bitstreamLength => 5#4
  | .illegalCommand => 6#4
  | .operand => 7#4

/-! ### Issue, completion, abort -/

/-- `clear_results` (45_control.md R241). `BUSY` is not among the fields it clears. -/
def clearResults (s : State) : State :=
  { s with
    status := { Status.clear with busy := s.status.busy }
    outLen := 0#32, res0 := 0#32, res1 := 0#32, blkcnt := 0#32, failcnt := 0#32, errinfo := 0#32 }

/-- The issue of opcode 1 to 8 (45_control.md R240): `clear_results`, `BUSY <- 1`, `pc <- (HDR, 0)`, `OP`. -/
def issue (op : Opcode) (s : State) : State :=
  { clearResults s with
    status := { Status.clear with busy := true }
    phase := .hdr, blk := 0, work := { Work.none with op := op }, answer := none }

/-- `pc <- (IDLE, 0)` (10_state.md R40); the working values end with the command (R43, log entry 8). -/
def toIdle (s : State) : State :=
  { s with phase := .idle, blk := 0, work := Work.none, answer := none }

/-- `complete` (45_control.md R242): `BUSY <- 0`, `DONE <- 1`, `pc <- (IDLE, 0)`. -/
def complete (s : State) : State :=
  toIdle { s with status := { s.status with busy := false, done := true } }

/-- `raise E(sub, info)`, the abort sequence (60_exceptions.md R268): every result 0, the error recorded, the engine idle. It is
this hardware's taking of an exception; nothing is saved and there is no return (R270). -/
def raise (e : ErrKind) (sub : BitVec 2) (info : Nat) (s : State) : State :=
  toIdle { s with
    status := { busy := false, done := true, degraded := false, txe := false, ftype := 0#3, err := errCode e, errsub := sub }
    outLen := 0#32, res0 := 0#32, res1 := 0#32, blkcnt := 0#32, failcnt := 0#32
    errinfo := BitVec.ofNat 32 info }

/-- `refuse_illegal(w, sub)` (45_control.md R246): `clear_results`, then the error; no command starts. -/
def refuseIllegal (w : Word) (sub : BitVec 2) (s : State) : State :=
  { clearResults s with
    status := { Status.clear with busy := s.status.busy, done := true, err := errCode .illegalCommand, errsub := sub }
    errinfo := w }

/-- `rst` (70_reset_and_hazards.md R300). The model's own fields stay: the outside world's later actions, the word last read
and the count of free values drawn. -/
def hardReset (s : State) : State :=
  { State.reset with events := s.events, portData := s.portData, freeCount := s.freeCount }

/-! ### Sequencer -/

/-- From `(HDR, 0)` to `(BLOCK, 0)` if there is a block, else to `(FIN, 0)` (45_control.md R248). -/
def enterBlocks (s : State) : State :=
  { s with phase := if 0 < s.work.nblk then .block else .fin, blk := 0 }

/-- From `(BLOCK, i)` to `(BLOCK, i+1)` if there is another block, else to `(FIN, NBLK)` (45_control.md R248). The answer for
block `i` has been taken. -/
def advance (s : State) : State :=
  if s.blk + 1 < s.work.nblk then { s with phase := .block, blk := s.blk + 1, answer := none }
  else { s with phase := .fin, blk := s.work.nblk, answer := none }

end Sys2Proof.Machine
end

