-- ==== Sys2Proof/Machine/Operands.lean ====
section
/-! DEFINITION. What a command reads and how it is cut: bit and byte conversions (00_scope.md R8), bitstreams in buffers
(20_memory.md R62, R63), the chunker (41_chunker.md R142 to R145), assembler and disassembler (42_codec.md R169, R170), the
frame functions (43_encoder.md R182, R185). -/

namespace Sys2Proof.Machine

/-! ### Bits and bytes -/

/-- `bytes_to_bits(B)` (00_scope.md R8): eight bits a byte, most significant first. -/
def bytesToBits (B : Bytes) : Bits := B.flatMap fun v => u2b 8 v.toNat

/-- `bits_to_bytes(s)` for `|s| mod 8 = 0` (00_scope.md R8); 1 to 7 bits after the last whole group are not read. -/
def bitsToBytes : Bits → Bytes
  | a :: b :: c :: d :: e :: f :: g :: h :: rest => BitVec.ofNat 8 (b2u [a, b, c, d, e, f, g, h]) :: bitsToBytes rest
  | _ => []

/-- The bytes that hold a bitstream (20_memory.md R63): groups of eight, the last completed on the right with 0 bits. -/
def packBits (s : Bits) : Bytes := bitsToBytes (s ++ List.replicate ((8 - s.length % 8) % 8) false)

/-- The bytes `IBUF[0 : n)`, if the host has written each (20_memory.md R70, R72). -/
def inputBytes (s : State) (n : Nat) : Option Bytes := Memory.readBytes s.ibuf 0 n

/-- `ibits(0, n)`: the first `n` bits of the bitstream in `IBUF` (20_memory.md R62), if the bytes that hold them are written. -/
def inputBits (s : State) (n : Nat) : Option Bits := (inputBytes s (ceilDiv n 8)).map fun B => (bytesToBits B).take n

/-- `obits <- s` (20_memory.md R63): `OBUF` holds the bitstream from index 0 on; every other byte is unspecified. -/
def storeBits (bits : Bits) (s : State) : State := { s with obuf := Memory.ofBytes (packBits bits) }

/-- `OBUF[0 : n)` as the engine reads back what it wrote (20_memory.md R61); a byte it has not written is unspecified
(93_implementation_defined.md U2; no run reads one, log entry 6). -/
def outputBytes (s : State) (n : Nat) : Bytes :=
  (List.range n).map fun j => (Memory.get s.obuf j).getD (Config.freeByte (s.freeCount + j))

/-! ### Chunker -/

/-- `region(s)` (41_chunker.md R142): the bytes after the header. -/
def region (s : Bits) : Bytes := bitsToBytes (s.drop Config.hdrBits)

/-- `chunks(B, n)` (41_chunker.md R143): element `i` is `B[i·n : min((i+1)·n, |B|))`. -/
def chunks (B : Bytes) (n : Nat) : List Bytes := (List.range (ceilDiv B.length n)).map fun i => (B.drop (i * n)).take n

/-- A message block filled on the right with `0x00` to 223 bytes (41_chunker.md R144). -/
def padBlock (b : Bytes) : Bytes := b ++ List.replicate (Config.messageK - b.length) Config.padByte

/-- `msg_blocks(B, pad)` (41_chunker.md R144): the last block is padded when asked; a full block is unchanged by padding. -/
def msgBlocks (B : Bytes) (pad : Bool) : List Bytes :=
  if pad then (chunks B Config.messageK).map padBlock else chunks B Config.messageK

/-- `cw_blocks(B)` (41_chunker.md R145). -/
def cwBlocks (B : Bytes) : List Bytes := chunks B Config.blockN

/-! ### Assembler and disassembler -/

/-- `assemble(cs)` (42_codec.md R169). -/
def assemble (cs : List Bytes) : Bits := bytesToBits cs.flatten

/-- `prefix(c)` (42_codec.md R170): the first 223 bytes of a block, or the whole block. -/
def msgPrefix (c : Bytes) : Bytes := c.take Config.messageK

/-! ### Frames -/

/-- `frame_text(B)` (43_encoder.md R182). -/
def frameText (k : Codec) (B : Bytes) : Bits := hdrTextBits B.length ++ assemble ((msgBlocks B true).map k.enc)

/-- `frame_image(B, H, W)` (43_encoder.md R185). -/
def frameImage (k : Codec) (B : Bytes) (height width : Nat) : Bits :=
  hdrImageBits height width ++ assemble ((msgBlocks B false).map k.enc)

/-! ### The blocks of the running command -/

/-- The message blocks of `ENCT` (43_encoder.md R181). -/
def textBlocks (s : State) : Option (List Bytes) :=
  (inputBytes s (s.inLen.toNat / 8)).map fun B => msgBlocks B true

/-- The message blocks of `ENCI` (43_encoder.md R184). -/
def imageBlocks (s : State) : Option (List Bytes) :=
  (inputBytes s (s.inLen.toNat / 8)).map fun B => msgBlocks B false

/-- The codeword blocks of `DEC` and `RAW` (44_decoder.md R204): the whole input cut, whatever the header says. -/
def codewordBlocks (s : State) : Option (List Bytes) :=
  (inputBits s s.inLen.toNat).map fun bits => cwBlocks (region bits)

/-- Block `BLK` of a sequence of blocks that may be unreadable. -/
def blockAt (bs : Option (List Bytes)) (i : Nat) : Option Bytes :=
  match bs with
  | some l => l[i]?
  | none => none

/-- The declared payload length `Lp` in bytes (44_decoder.md R202): `L` for text, `3·H·W` for image. -/
def payloadLen (w : Work) : Nat := if w.t = 0#3 then w.l else 3 * w.h * w.w

end Sys2Proof.Machine
end

