-- ==== Sys2Proof/Machine/Sequencer.lean ====
section
/-! DEFINITION. The codec port (42_codec.md R167, R168, 30_encoding.md R104) and the running of one command by the sequencer
(45_control.md R248, R249): its phases are given by the command's family. -/

namespace Sys2Proof.Machine

/-! ### Codec port -/

/-- A request at the codec port (30_encoding.md R104): `op` (true is decode), `par`, and the data bytes, whose number is the
field `len`. -/
structure CodecRequest where
  op : Bool
  par : BitVec 8
  data : Bytes
deriving DecidableEq, Repr

/-- `CodecEnc(m)` (42_codec.md R167). -/
def encodeRequest (m : Bytes) : CodecRequest := { op := false, par := BitVec.ofNat 8 Config.parityP, data := m }

/-- `CodecDec(c)` (42_codec.md R168). -/
def decodeRequest (c : Bytes) : CodecRequest := { op := true, par := BitVec.ofNat 8 Config.parityP, data := c }

/-- The request outstanding at the port: the one for the block the engine is at, so there is at most one and the blocks are
asked for in ascending order (42_codec.md R172). `RAW` makes none. -/
def codecRequest (s : State) : Option CodecRequest :=
  match s.phase with
  | .block =>
    match s.work.op with
    | .enct => (blockAt (textBlocks s) s.blk).map encodeRequest
    | .enci => (blockAt (imageBlocks s) s.blk).map encodeRequest
    | .dec => (blockAt (codewordBlocks s) s.blk).map decodeRequest
    | _ => none
  | _ => none

/-- The codec's answer to a request (42_codec.md R160, 30_encoding.md R104): an encode request always succeeds; `Fail` carries no
data; the parity part of a decode result is not carried. -/
def codecRespond (k : Codec) (r : CodecRequest) : CodecAnswer :=
  if r.op then
    match k.dec r.data with
    | some m => { ok := true, data := m }
    | none => { ok := false, data := [] }
  else { ok := true, data := k.enc r.data }

/-- The codec's turn: it answers the outstanding request if it has not; with no request outstanding nothing happens, so an
answer that comes after reset is ignored (70_reset_and_hazards.md R300). -/
def codecTurn (k : Codec) (s : State) : State :=
  match s.answer with
  | some _ => s
  | none =>
    match codecRequest s with
    | some r => { s with answer := some (codecRespond k r) }
    | none => s

/-! ### Running a command -/

/-- What the engine does in each phase of one command: one row of 45_control.md R248 a call. -/
structure Phases where
  hdr : State → Result
  block : State → Result
  fin : State → Result

/-- One engine step of a command (45_control.md R248); nothing in IDLE. -/
def phaseStep (p : Phases) (s : State) : Result :=
  match s.phase with
  | .idle => .next s
  | .hdr => p.hdr s
  | .block => p.block s
  | .fin => p.fin s

/-- At most `n` rounds of codec and engine, until the engine is idle. -/
def runPhases (k : Codec) (p : Phases) : Nat → State → Result
  | 0, s => .next s
  | n + 1, s => if s.phase = .idle then .next s else andThen (phaseStep p (codecTurn k s)) (runPhases k p n)

/-- One command as one transition (45_control.md R249): the issue, the HDR step, and then a round for each block and one for
FIN (`NBLK + 3` steps with the issue, R250). The codec answers every request (70_reset_and_hazards.md R312, log entry 1). A
command issued while `BUSY = 1` is ignored (45_control.md R240). -/
def runCommand (k : Codec) (p : Phases) (op : Opcode) (s : State) : Result :=
  if s.status.busy then .next s
  else andThen (p.hdr (issue op s)) fun t => runPhases k p (t.work.nblk + 1) t

end Sys2Proof.Machine
end

