-- ==== Sys2Proof/Machine/Control.lean ====
section
/-! DEFINITION. The housekeeping family: NOP (45_control.md R243) and CLR (45_control.md R244, R247). -/

namespace Sys2Proof.Machine

/-- Phase HDR of `CLR` (45_control.md R244): `BUSY <- 0`, `pc <- (IDLE, 0)`; `DONE` stays 0. -/
def hdrClr (s : State) : Result := .next (toIdle { s with status := { s.status with busy := false } })

/-- The phases of `CLR`. -/
def clrPhases : Phases := { hdr := hdrClr, block := fun s => .next s, fin := fun s => .next s }

/-- `NOP` changes no state at all (45_control.md R243). -/
def execNop (s : State) : Result := .next s

/-- `CLR`: clear results and status (45_control.md R244). -/
def execClr (s : State) : Result := runCommand Config.codec clrPhases .clr s

end Sys2Proof.Machine
end

