-- ==== Sys2Proof/Machine/Flags.lean ====
section
/-! DEFINITION. The status and control words (10_state.md R25, R28), the warning flags (10_state.md R31, R32), the UTF-8 check
(44_decoder.md R217) and the interrupt line (60_exceptions.md R272). -/

namespace Sys2Proof.Machine

/-- The whole `STATUS` register (10_state.md R28). -/
def statusWord (st : Status) : Word :=
  0#18 ++ st.errsub ++ st.err ++ 0#1 ++ st.ftype ++ BitVec.ofBool st.txe ++ BitVec.ofBool st.degraded
    ++ BitVec.ofBool st.done ++ BitVec.ofBool st.busy

/-- The whole `CTRL` register (10_state.md R25). -/
def ctrlWord (c : Ctrl) : Word := 0#30 ++ BitVec.ofBool c.ien ++ BitVec.ofBool c.fben

/-- What a write to `CTRL` stores: the defined bits only (10_state.md R24 (e), R25). -/
def ctrlOfWord (v : Word) : Ctrl := { fben := v.getLsbD 0, ien := v.getLsbD 1 }

/-- The interrupt output: `STATUS.DONE and CTRL.IEN` at every instant (60_exceptions.md R272). -/
def irq (s : State) : Bool := s.status.done && s.ctrl.ien

/-! ### UTF-8 -/

/-- A byte range of the table of 44_decoder.md R217, both ends inclusive. -/
structure ByteRange where
  lo : Byte
  hi : Byte
deriving DecidableEq, Repr

/-- A byte lies in a range. -/
def inByteRange (r : ByteRange) (v : Byte) : Bool := r.lo.toNat ≤ v.toNat && v.toNat ≤ r.hi.toNat

/-- A continuation byte, `80..BF`. -/
def contRange : ByteRange := ⟨0x80#8, 0xBF#8⟩

/-- The table of well-formed sequences of 44_decoder.md R217, one row a list of byte ranges (PRESUMED by the spec itself, G1;
log entry 13). -/
def utf8Table : List (List ByteRange) :=
  [ [⟨0x00#8, 0x7F#8⟩],
    [⟨0xC2#8, 0xDF#8⟩, contRange],
    [⟨0xE0#8, 0xE0#8⟩, ⟨0xA0#8, 0xBF#8⟩, contRange],
    [⟨0xE1#8, 0xEC#8⟩, contRange, contRange],
    [⟨0xED#8, 0xED#8⟩, ⟨0x80#8, 0x9F#8⟩, contRange],
    [⟨0xEE#8, 0xEF#8⟩, contRange, contRange],
    [⟨0xF0#8, 0xF0#8⟩, ⟨0x90#8, 0xBF#8⟩, contRange, contRange],
    [⟨0xF1#8, 0xF3#8⟩, contRange, contRange, contRange],
    [⟨0xF4#8, 0xF4#8⟩, ⟨0x80#8, 0x8F#8⟩, contRange, contRange] ]

/-- What follows a sequence of the row at the start of `B`, if `B` starts with one. -/
def afterRow : List ByteRange → Bytes → Option Bytes
  | [], B => some B
  | _ :: _, [] => none
  | r :: rs, v :: B => if inByteRange r v then afterRow rs B else none

/-- What follows the sequence at the start of `B`, if one of the rows matches; no byte string starts with two of them. -/
def afterSequence (rows : List (List ByteRange)) (B : Bytes) : Option Bytes := rows.findSome? fun row => afterRow row B

/-- `utf8_wf` on at most `n` sequences. -/
def utf8WfUpTo : Nat → Bytes → Bool
  | _, [] => true
  | 0, _ :: _ => false
  | n + 1, v :: B =>
    match afterSequence utf8Table (v :: B) with
    | some rest => utf8WfUpTo n rest
    | none => false

/-- `utf8_wf(B)` (44_decoder.md R217): `B` is a concatenation of zero or more sequences of the table. -/
def utf8Wf (B : Bytes) : Bool := utf8WfUpTo B.length B

/-- `STATUS.TXE` of a completed decode (10_state.md R32): a text frame whose output is not well-formed UTF-8. -/
def txeFlag (t : BitVec 3) (out : Bytes) : Bool := decide (t = 0#3) && !utf8Wf out

/-- `STATUS.DEGRADED` of a completed decode (10_state.md R31). -/
def degradedFlag (nfail : Nat) : Bool := decide (0 < nfail)

end Sys2Proof.Machine
end

