-- ==== Sys2Proof/Machine/Header.lean ====
section
/-! DEFINITION. The header family: the meanings of the two wire headers HDR.TEXT and HDR.IMAGE (40_header.md R121, R122), which
the engine fetches from `IBUF` in phase HDR of `DEC`, `RAW` and `HUNP`, and the commands HPKT, HPKI, HUNP (R126 to R128). -/

namespace Sys2Proof.Machine

/-! ### The wire headers as the engine executes them -/

/-- `HUNP` has the header (40_header.md R128): `RES0`, `RES1`, `FTYPE`, nothing in `OBUF`, complete. -/
def headerResults (ftype : BitVec 3) (res0 res1 : Nat) (s : State) : State :=
  complete { s with
    status := { s.status with ftype := ftype }
    res0 := BitVec.ofNat 32 res0, res1 := BitVec.ofNat 32 res1
    outLen := 0#32, blkcnt := 0#32, failcnt := 0#32 }

/-- `DEC` and `RAW` have the header (44_decoder.md R201 to R204): the ragged tail, the region shorter than the declared payload,
then the cut into blocks. `s` holds `T`, `L`, `H`, `W`. -/
def enterRegion (s : State) : Result :=
  if (s.inLen.toNat - Config.hdrBits) % 8 ≠ 0 then .next (raise .bitstreamLength 1#2 s.inLen.toNat s)
  else if (s.inLen.toNat - Config.hdrBits) / 8 < payloadLen s.work then .next (raise .bitstreamLength 2#2 s.inLen.toNat s)
  else match codewordBlocks s with
    | none => .fault .unwrittenInput
    | some cs => .next (enterBlocks { s with work := { s.work with nblk := cs.length, acc := 0, nfail := 0 } })

/-- The header gives the working values `T`, `L`, `H`, `W` (44_decoder.md R201). -/
def setHeader (t : BitVec 3) (len height width : Nat) (s : State) : State :=
  { s with work := { s.work with t := t, l := len, h := height, w := width } }

/-- `HDR.TEXT L` (40_header.md R121): in phase HDR of `HUNP` the header is delivered, of `DEC` and `RAW` it declares a text
payload of `L` bytes and the engine goes on to the region. Elsewhere no engine reads a header and nothing happens (log
entry 9). -/
def execHdrText (len : Nat) (s : State) : Result :=
  match s.phase, s.work.op with
  | .hdr, .hunp => .next (headerResults 0#3 len 0 s)
  | .hdr, .dec => enterRegion (setHeader 0#3 len 0 0 s)
  | .hdr, .raw => enterRegion (setHeader 0#3 len 0 0 s)
  | _, _ => .next s

/-- `HDR.IMAGE H W` (40_header.md R122): as `HDR.TEXT`, for an image of `3·H·W` payload bytes (44_decoder.md R202). -/
def execHdrImage (height width : Nat) (s : State) : Result :=
  match s.phase, s.work.op with
  | .hdr, .hunp => .next (headerResults 1#3 height width s)
  | .hdr, .dec => enterRegion (setHeader 1#3 0 height width s)
  | .hdr, .raw => enterRegion (setHeader 1#3 0 height width s)
  | _, _ => .next s

/-- The first part of phase HDR of `HUNP`, `DEC` and `RAW` (40_header.md R128, 44_decoder.md R201): the capacity test, the fetch
of the header from the first `min(IN_LEN, 27)` bits, the two header errors, then the header's own meaning. -/
def fetchHeader (s : State) : Result :=
  if Config.capBits < s.inLen.toNat then .next (raise .operand 0#2 s.inLen.toNat s)
  else match inputBits s (min s.inLen.toNat Config.hdrBits) with
    | none => .fault .unwrittenInput
    | some bits =>
      match hdrParse bits with
      | .short => .next (raise .bitstreamLength 0#2 s.inLen.toNat s)
      | .badTag t => .next (raise .unrecognizedFrameType 0#2 t s)
      | .text len => execHdrText len s
      | .image height width => execHdrImage height width s

/-! ### HPKT, HPKI, HUNP -/

/-- A packed header and its results (40_header.md R126, R127). -/
def packedHeader (bits : Bits) (ftype : BitVec 3) (res0 res1 : Nat) (s : State) : State :=
  complete { storeBits bits s with
    status := { s.status with ftype := ftype }
    outLen := BitVec.ofNat 32 bits.length
    res0 := BitVec.ofNat 32 res0, res1 := BitVec.ofNat 32 res1, blkcnt := 0#32, failcnt := 0#32 }

/-- Phase HDR of `HPKT` (40_header.md R126). -/
def hdrHpkt (s : State) : Result :=
  if Config.lenMax < s.arg0.toNat then .next (raise .range 0#2 s.arg0.toNat s)
  else .next (packedHeader (hdrTextBits s.arg0.toNat) 0#3 s.arg0.toNat 0 s)

/-- Phase HDR of `HPKI` (40_header.md R127): the height is tested before the width. -/
def hdrHpki (s : State) : Result :=
  if Config.dimMax < s.arg0.toNat then .next (raise .range 1#2 s.arg0.toNat s)
  else if Config.dimMax < s.arg1.toNat then .next (raise .range 2#2 s.arg1.toNat s)
  else .next (packedHeader (hdrImageBits s.arg0.toNat s.arg1.toNat) 1#3 s.arg0.toNat s.arg1.toNat s)

/-- Phase HDR of `HUNP` (40_header.md R128). -/
def hdrHunp (s : State) : Result := fetchHeader s

/-- A command that ends in phase HDR has no other (45_control.md R248). -/
def headerOnly (hdr : State → Result) : Phases :=
  { hdr := hdr, block := fun s => .next s, fin := fun s => .next s }

/-- The phases of `HPKT`. -/
def hpktPhases : Phases := headerOnly hdrHpkt

/-- The phases of `HPKI`. -/
def hpkiPhases : Phases := headerOnly hdrHpki

/-- The phases of `HUNP`. -/
def hunpPhases : Phases := headerOnly hdrHunp

/-- `HPKT`: pack a text header (40_header.md R126). -/
def execHpkt (s : State) : Result := runCommand Config.codec hpktPhases .hpkt s

/-- `HPKI`: pack an image header (40_header.md R127). -/
def execHpki (s : State) : Result := runCommand Config.codec hpkiPhases .hpki s

/-- `HUNP`: unpack a header (40_header.md R128). -/
def execHunp (s : State) : Result := runCommand Config.codec hunpPhases .hunp s

end Sys2Proof.Machine
end

