-- ==== Sys2Proof/Machine/Decoder.lean ====
section
/-! DEFINITION. The decoder family: DEC with its per-block orchestrator and fallback (44_decoder.md R201 to R217) and the
raw extractor RAW (44_decoder.md R221). -/

namespace Sys2Proof.Machine

/-- A piece is appended to the accumulator in `OBUF` and the engine goes on to the next block (44_decoder.md R201); a piece that
would pass the end of `OBUF` aborts (44_decoder.md R212). -/
def appendPiece (piece : Bytes) (s : State) : Result :=
  if Config.capBytes < s.work.acc + piece.length then .next (raise .operand 0#2 s.inLen.toNat s)
  else .next (advance { s with
    obuf := Memory.setBytes s.obuf s.work.acc piece
    work := { s.work with acc := s.work.acc + piece.length } })

/-- Phase BLOCK of `DEC` (44_decoder.md R201, R205 to R209): it waits for the codec, then takes the corrected message, or falls
back to the uncorrected prefix and counts it, or aborts when the policy is strict. -/
def blockDec (s : State) : Result :=
  match s.answer with
  | none => .next s
  | some a =>
    if a.ok then appendPiece a.data s
    else if s.ctrl.fben then
      match blockAt (codewordBlocks s) s.blk with
      | none => .fault .unwrittenInput
      | some c => appendPiece (msgPrefix c) { s with work := { s.work with nfail := s.work.nfail + 1 } }
    else .next (raise .uncorrectableBlock 0#2 s.blk s)

/-- Phase BLOCK of `RAW` (44_decoder.md R221, R222): the prefix of the block, no codec transaction. -/
def blockRaw (s : State) : Result :=
  match blockAt (codewordBlocks s) s.blk with
  | none => .fault .unwrittenInput
  | some c => appendPiece (msgPrefix c) s

/-- Step 4's trim or pad to `n` bytes (44_decoder.md R215, R216): the filler is appended on the right where bytes are missing. -/
def trimOrPad (n : Nat) (acc : Bytes) : Bytes := acc.take n ++ List.replicate (n - acc.length) Config.fillByte

/-- The results of a completed decode (44_decoder.md R201): the payload in `OBUF`, the metadata, the counters, the flags. -/
def decodeResults (out : Bytes) (s : State) : State :=
  complete { s with
    obuf := Memory.ofBytes out
    outLen := BitVec.ofNat 32 (8 * payloadLen s.work)
    res0 := BitVec.ofNat 32 (if s.work.t = 0#3 then s.work.l else s.work.h)
    res1 := BitVec.ofNat 32 (if s.work.t = 0#3 then 0 else s.work.w)
    blkcnt := BitVec.ofNat 32 s.work.nblk
    failcnt := BitVec.ofNat 32 s.work.nfail
    status := { s.status with ftype := s.work.t, degraded := degradedFlag s.work.nfail, txe := txeFlag s.work.t out } }

/-- Phase FIN of `DEC` and `RAW` (44_decoder.md R201 step 4, R214 to R217): a text payload that is short aborts, an image payload
that is short is filled. -/
def finishDecode (s : State) : Result :=
  if s.work.t = 0#3 ∧ s.work.acc < payloadLen s.work then .next (raise .bitstreamLength 3#2 s.inLen.toNat s)
  else .next (decodeResults (trimOrPad (payloadLen s.work) (outputBytes s s.work.acc)) s)

/-- Phase HDR of `DEC` (44_decoder.md R201). -/
def hdrDec (s : State) : Result := fetchHeader s

/-- Phase HDR of `RAW` (44_decoder.md R221). -/
def hdrRaw (s : State) : Result := fetchHeader s

/-- Phase FIN of `DEC` (44_decoder.md R201). -/
def finDec (s : State) : Result := finishDecode s

/-- Phase FIN of `RAW` (44_decoder.md R221). -/
def finRaw (s : State) : Result := finishDecode s

/-- The phases of `DEC`. -/
def decPhases : Phases := { hdr := hdrDec, block := blockDec, fin := finDec }

/-- The phases of `RAW`. -/
def rawPhases : Phases := { hdr := hdrRaw, block := blockRaw, fin := finRaw }

/-- `DEC` with a given codec attached. -/
def execDecWith (k : Codec) (s : State) : Result := runCommand k decPhases .dec s

/-- `RAW` with a given codec attached, which it never asks. -/
def execRawWith (k : Codec) (s : State) : Result := runCommand k rawPhases .raw s

/-- `DEC`: decode a frame with correction and fallback (44_decoder.md R201). -/
def execDec (s : State) : Result := execDecWith Config.codec s

/-- `RAW`: decode a frame without correction (44_decoder.md R221). -/
def execRaw (s : State) : Result := execRawWith Config.codec s

end Sys2Proof.Machine
end

