-- ==== Sys2Proof/Machine/Encoder.lean ====
section
/-! DEFINITION. The encoder family: ENCT and ENCI (43_encoder.md R181, R184). -/

namespace Sys2Proof.Machine

/-- Phase HDR of an encoder once its operands are accepted: `T`, `L`, `H`, `W` are set, the blocks counted and the header bits
held (10_state.md R43, 45_control.md R248). -/
def beginEncode (blocks : Option (List Bytes)) (t : BitVec 3) (len height width : Nat) (header : Bits) (s : State) : Result :=
  match blocks with
  | none => .fault .unwrittenInput
  | some bs =>
    .next (enterBlocks { s with
      work := { s.work with
        t := t, l := len, h := height, w := width, nblk := bs.length, acc := 0, nfail := 0, out := header } })

/-- Phase HDR of `ENCT` (43_encoder.md R181): `RangeError` is tested before `OperandError` (60_exceptions.md R269). -/
def hdrEnct (s : State) : Result :=
  if Config.lenMax < s.inLen.toNat / 8 then .next (raise .range 0#2 (s.inLen.toNat / 8) s)
  else if s.inLen.toNat % 8 ≠ 0 then .next (raise .operand 1#2 s.inLen.toNat s)
  else beginEncode (textBlocks s) 0#3 (s.inLen.toNat / 8) 0 0 (hdrTextBits (s.inLen.toNat / 8)) s

/-- Phase HDR of `ENCI` (43_encoder.md R184): height before width, then the number of bytes. -/
def hdrEnci (s : State) : Result :=
  if Config.dimMax < s.arg0.toNat then .next (raise .range 1#2 s.arg0.toNat s)
  else if Config.dimMax < s.arg1.toNat then .next (raise .range 2#2 s.arg1.toNat s)
  else if s.inLen.toNat ≠ 8 * (3 * s.arg0.toNat * s.arg1.toNat) then .next (raise .operand 2#2 s.inLen.toNat s)
  else beginEncode (imageBlocks s) 1#3 0 s.arg0.toNat s.arg1.toNat (hdrImageBits s.arg0.toNat s.arg1.toNat) s

/-- Phase BLOCK of an encoder (43_encoder.md R181, R184): it waits for the codec (45_control.md R248), then appends the bytes
answered, whatever their number (42_codec.md R171); output beyond `CAP_BITS` aborts (43_encoder.md R188). -/
def appendCodeword (s : State) : Result :=
  match s.answer with
  | none => .next s
  | some a =>
    if Config.capBits < Config.hdrBits + 8 * (s.work.acc + a.data.length) then
      .next (raise .operand 0#2 s.inLen.toNat s)
    else
      .next (advance { s with
        work := { s.work with acc := s.work.acc + a.data.length, out := s.work.out ++ bytesToBits a.data } })

/-- Phase BLOCK of `ENCT`. -/
def blockEnct (s : State) : Result := appendCodeword s

/-- Phase BLOCK of `ENCI`. -/
def blockEnci (s : State) : Result := appendCodeword s

/-- Phase FIN of an encoder: the frame goes to `OBUF`, the results are written, the command completes. -/
def finishEncode (ftype : BitVec 3) (res0 res1 : Nat) (s : State) : Result :=
  .next (complete { storeBits s.work.out s with
    status := { s.status with ftype := ftype }
    outLen := BitVec.ofNat 32 s.work.out.length
    res0 := BitVec.ofNat 32 res0, res1 := BitVec.ofNat 32 res1
    blkcnt := BitVec.ofNat 32 s.work.nblk, failcnt := 0#32 })

/-- Phase FIN of `ENCT` (43_encoder.md R181). -/
def finEnct (s : State) : Result := finishEncode 0#3 s.work.l 0 s

/-- Phase FIN of `ENCI` (43_encoder.md R184). -/
def finEnci (s : State) : Result := finishEncode 1#3 s.work.h s.work.w s

/-- The phases of `ENCT`. -/
def enctPhases : Phases := { hdr := hdrEnct, block := blockEnct, fin := finEnct }

/-- The phases of `ENCI`. -/
def enciPhases : Phases := { hdr := hdrEnci, block := blockEnci, fin := finEnci }

/-- `ENCT` with a given codec attached. -/
def execEnctWith (k : Codec) (s : State) : Result := runCommand k enctPhases .enct s

/-- `ENCI` with a given codec attached. -/
def execEnciWith (k : Codec) (s : State) : Result := runCommand k enciPhases .enci s

/-- `ENCT`: encode a text frame (43_encoder.md R181). -/
def execEnct (s : State) : Result := execEnctWith Config.codec s

/-- `ENCI`: encode an image frame (43_encoder.md R184). -/
def execEnci (s : State) : Result := execEnciWith Config.codec s

end Sys2Proof.Machine
end

