-- ==== Sys2Proof/Machine/Dispatch.lean ====
section
/-! DEFINITION. One arm per instruction. -/

namespace Sys2Proof.Machine

/-- The meaning of an instruction. -/
def exec (i : Instr) (s : State) : Host.Outcome State Fault Refusal :=
  match i with
  | .nop => Sys2Proof.Machine.execNop s
  | .enct => Sys2Proof.Machine.execEnct s
  | .enci => Sys2Proof.Machine.execEnci s
  | .dec => Sys2Proof.Machine.execDec s
  | .raw => Sys2Proof.Machine.execRaw s
  | .hpkt => Sys2Proof.Machine.execHpkt s
  | .hpki => Sys2Proof.Machine.execHpki s
  | .hunp => Sys2Proof.Machine.execHunp s
  | .clr => Sys2Proof.Machine.execClr s
  | .hdrText len => Sys2Proof.Machine.execHdrText len s
  | .hdrImage height width => Sys2Proof.Machine.execHdrImage height width s

end Sys2Proof.Machine
end

