-- ==== Sys2Proof/Machine/Port.lean ====
section
/-! DEFINITION. The host port and the engine's own step: register accesses (10_state.md R21 to R24), buffer accesses
(20_memory.md R61, R66, R68, R71), the write to `CMD` (45_control.md R240), one engine step (45_control.md R248). -/

namespace Sys2Proof.Machine

/-- The registers by name (10_state.md R21). -/
inductive Reg where
  | id | ctrl | cmd | status | arg0 | arg1 | inLen | outLen | res0 | res1 | blkcnt | failcnt | errinfo | reserved
deriving DecidableEq, Repr

/-- The register at an index (10_state.md R21). -/
def regAt (i : Fin 16) : Reg :=
  match i.val with
  | 0 => .id
  | 1 => .ctrl
  | 2 => .cmd
  | 3 => .status
  | 4 => .arg0
  | 5 => .arg1
  | 6 => .inLen
  | 7 => .outLen
  | 8 => .res0
  | 9 => .res1
  | 10 => .blkcnt
  | 11 => .failcnt
  | 12 => .errinfo
  | _ => .reserved

/-- What register `r` holds: `ID` is the constant (10_state.md R22), `CMD` and the reserved registers read 0 (R21, R23). -/
def regValue (s : State) : Reg → Word
  | .id => Config.idWord
  | .ctrl => ctrlWord s.ctrl
  | .cmd => 0#32
  | .status => statusWord s.status
  | .arg0 => s.arg0
  | .arg1 => s.arg1
  | .inLen => s.inLen
  | .outLen => s.outLen
  | .res0 => s.res0
  | .res1 => s.res1
  | .blkcnt => s.blkcnt
  | .failcnt => s.failcnt
  | .errinfo => s.errinfo
  | .reserved => 0#32

/-- The registers that read their value while `BUSY = 1` (10_state.md R24 (c)). -/
def readableBusy : Reg → Bool
  | .id => true
  | .ctrl => true
  | .status => true
  | _ => false

/-- A read returns a defined word; no other state changes (10_state.md R24 (b), 20_memory.md R66). -/
def returnWord (v : Word) (s : State) : State := { s with portData := v }

/-- A register read returns an unspecified word: a free value is drawn (93_implementation_defined.md U3). -/
def returnFreeWord (s : State) : State :=
  { s with portData := Config.freeWord s.freeCount, freeCount := s.freeCount + 1 }

/-- A buffer read returns an unspecified byte: a free value is drawn (93_implementation_defined.md U1 to U3, U5). -/
def returnFreeByte (s : State) : State :=
  { s with portData := (Config.freeByte s.freeCount).zeroExtend 32, freeCount := s.freeCount + 1 }

/-- The host reads a register (10_state.md R24). -/
def hostRead (reg : Fin 16) (s : State) : State :=
  if s.status.busy && !readableBusy (regAt reg) then returnFreeWord s else returnWord (regValue s (regAt reg)) s

/-- The refusal of a command word that decodes to nothing (45_control.md R240, R246). -/
def refuseWord (w : Word) (e : DecodeError) (s : State) : State :=
  match e with
  | .reservedBits => refuseIllegal w 0#2 s
  | _ => refuseIllegal w 1#2 s

/-- The host writes `w` to `CMD`, and the write alone takes effect (45_control.md R240): the engine's work follows step by
step. -/
def writeCmd (w : Word) (s : State) : State :=
  match decodeOpcode w with
  | .error e => refuseWord w e s
  | .ok .nop => s
  | .ok op => issue op s

/-- The host writes a register (10_state.md R21, R24): ignored while busy; read-only and reserved registers ignore it. -/
def hostWrite (reg : Fin 16) (v : Word) (s : State) : State :=
  if s.status.busy then s
  else match regAt reg with
    | .ctrl => { s with ctrl := ctrlOfWord v }
    | .cmd => writeCmd v s
    | .arg0 => { s with arg0 := v }
    | .arg1 => { s with arg1 := v }
    | .inLen => { s with inLen := v }
    | _ => s

/-- The host writes `IBUF[i]`: ignored while busy and beyond the buffer (20_memory.md R68, R71). -/
def hostStoreIn (i : Nat) (v : Byte) (s : State) : State :=
  if s.status.busy || decide (Config.capBytes ≤ i) then s else { s with ibuf := Memory.set s.ibuf i v }

/-- The host writes `OBUF[i]`: always ignored (20_memory.md R61). -/
def hostStoreOut (s : State) : State := s

/-- The host reads `IBUF[i]`: unspecified while busy, beyond the buffer, and where it has not written
(20_memory.md R68, R71, R72). -/
def hostLoadIn (i : Nat) (s : State) : State :=
  if s.status.busy || decide (Config.capBytes ≤ i) then returnFreeByte s
  else match Memory.get s.ibuf i with
    | some v => returnWord (v.zeroExtend 32) s
    | none => returnFreeByte s

/-- The host reads `OBUF[i]`: unspecified while busy, beyond the buffer, and at `i >= ceil_div(OUT_LEN, 8)`
(20_memory.md R63, R68, R71, R76). -/
def hostLoadOut (i : Nat) (s : State) : State :=
  if s.status.busy || decide (Config.capBytes ≤ i) || decide (ceilDiv s.outLen.toNat 8 ≤ i) then returnFreeByte s
  else match Memory.get s.obuf i with
    | some v => returnWord (v.zeroExtend 32) s
    | none => returnFreeByte s

/-- The phases of the running command; `NOP` has none (45_control.md R243). -/
def opPhases : Opcode → Phases
  | .nop => { hdr := fun s => .next s, block := fun s => .next s, fin := fun s => .next s }
  | .enct => enctPhases
  | .enci => enciPhases
  | .dec => decPhases
  | .raw => rawPhases
  | .hpkt => hpktPhases
  | .hpki => hpkiPhases
  | .hunp => hunpPhases
  | .clr => clrPhases

/-- One engine step (45_control.md R248): nothing in IDLE, a wait where the codec has not answered. -/
def engineTurn (s : State) : Result := phaseStep (opPhases s.work.op) s

/-! ### The fetch of the next command -/

/-- The command word at the head of the outside world's actions, which the next step issues. -/
def fetchedWord (s : State) : Option Word :=
  match s.events with
  | .command w :: _ => some w
  | _ => none

/-- `s` with the command word of an opcode-table row as the next action, the engine idle so that it is taken. -/
def placeCommand (w : Nat) (s : State) : State :=
  { toIdle s with status := { s.status with busy := false }, events := .command (BitVec.ofNat 32 w) :: s.events }

/-- `s` with the wire header of an opcode-table row at the start of `IBUF` and the engine in phase HDR of `HUNP`, about to
fetch it, nothing else pending (log entry 10). -/
def placeHeader (w : Nat) (s : State) : State :=
  { issue .hunp s with
    ibuf := Memory.setBytes s.ibuf 0 (packBits (u2b Config.hdrBits w))
    inLen := BitVec.ofNat 32 Config.hdrBits
    events := [] }

end Sys2Proof.Machine
end

