-- ==== Sys2Proof/Machine/Step.lean ====
section
/-! DEFINITION. One step of the machine: the next pending action of the outside world, or, where none is pending, the engine's
own step. -/

namespace Sys2Proof.Machine

/-- A command issued and run to its end (45_control.md R240, R249): ignored while busy, refused if illegal, else executed. -/
def commandStep (w : Word) (s : State) : Host.Outcome State Fault Refusal :=
  if s.status.busy then .next s
  else match decode (.command w) with
    | .ok i => exec i s
    | .error e => .next (refuseWord w e s)

/-- One action of the outside world, or one turn of an agent (log entry 2). -/
def eventStep (e : Event) (s : State) : Host.Outcome State Fault Refusal :=
  match e with
  | .command w => commandStep w s
  | .write reg v => .next (hostWrite reg v s)
  | .read reg => .next (hostRead reg s)
  | .storeIn i v => .next (hostStoreIn i v s)
  | .loadIn i => .next (hostLoadIn i s)
  | .storeOut _ _ => .next (hostStoreOut s)
  | .loadOut i => .next (hostLoadOut i s)
  | .engine => engineTurn s
  | .codec => .next (codecTurn Config.codec s)
  | .reset => .next (hardReset s)

/-- One step. With no action pending the engine moves: it works, waits for the codec, or is idle (log entry 2). -/
def step (s : State) : Host.Outcome State Fault Refusal :=
  match s.events with
  | [] => engineTurn s
  | e :: rest => eventStep e { s with events := rest }

/-- `s` with the instruction of an opcode-table row where `step` takes its next instruction: a command as the host's next write
to `CMD`, a wire header in `IBUF` under an engine about to fetch it (log entry 10). -/
def State.withFetchWord (s : State) (nbits w : Nat) : State :=
  if nbits ≤ Config.hdrBits then placeHeader w s else placeCommand w s

end Sys2Proof.Machine
end

