-- ==== Sys2Proof/Safety.lean ====
section
/-! DEFINITION. The terms claims are stated in: the contract of the block codec (42_codec.md R161 to R165), the states a
command ends in (10_state.md R47, 60_exceptions.md R268), the pieces a decode accumulates (44_decoder.md R205), and the
invariants of the machine. -/

namespace Sys2Proof

/-! ### The codec's contract, as hypotheses of claims -/

/-- Systematic form (42_codec.md R161). -/
def Codec.Systematic (k : Codec) : Prop :=
  ∀ m : Bytes, 1 ≤ m.length → m.length ≤ Config.messageK →
    ∃ par : Bytes, par.length = Config.parityP ∧ k.enc m = m ++ par

/-- Length (42_codec.md R162). -/
def Codec.EncodeLength (k : Codec) : Prop :=
  ∀ m : Bytes, 1 ≤ m.length → m.length ≤ Config.messageK → (k.enc m).length = m.length + Config.parityP

/-- Clean decode (42_codec.md R163). -/
def Codec.CleanDecode (k : Codec) : Prop :=
  ∀ m : Bytes, 1 ≤ m.length → m.length ≤ Config.messageK → k.dec (k.enc m) = some m

/-- The number of byte positions in which two blocks differ (42_codec.md R164). -/
def differingBytes (a b : Bytes) : Nat := ((a.zip b).filter fun p => p.1 ≠ p.2).length

/-- Correction of up to 16 wrong bytes, for one message (42_codec.md R164). -/
def Codec.CorrectsMessage (k : Codec) (m : Bytes) : Prop :=
  ∀ c : Bytes, c.length = (k.enc m).length → differingBytes (k.enc m) c ≤ 16 → k.dec c = some m

/-- Answer length (42_codec.md R165): an `Ok` answer has `|c| - 32` bytes, and a block of 32 bytes or fewer fails. -/
def Codec.AnswerLength (k : Codec) : Prop :=
  ∀ c m : Bytes, k.dec c = some m → 33 ≤ c.length ∧ m.length = c.length - Config.parityP

/-- Every answer fits the port's 8-bit length (30_encoding.md R104). -/
def Codec.FitsPort (k : Codec) : Prop :=
  (∀ m : Bytes, (k.enc m).length ≤ 255) ∧ ∀ c m : Bytes, k.dec c = some m → m.length ≤ 255

namespace Machine

/-! ### How a command ends -/

/-- A command completed without error (10_state.md R47, 45_control.md R242): the results given, no error, the engine idle. -/
def delivered (s : State) (ftype : BitVec 3) (degraded txe : Bool) (outLen res0 res1 blkcnt failcnt : Nat)
    (obuf : List Host.Cell) : State :=
  { s with
    status := { busy := false, done := true, degraded := degraded, txe := txe, ftype := ftype, err := 0#4, errsub := 0#2 }
    outLen := BitVec.ofNat 32 outLen, res0 := BitVec.ofNat 32 res0, res1 := BitVec.ofNat 32 res1
    blkcnt := BitVec.ofNat 32 blkcnt, failcnt := BitVec.ofNat 32 failcnt, errinfo := 0#32, obuf := obuf
    phase := .idle, blk := 0, work := Work.none, answer := none }

/-- A command aborted with an error (60_exceptions.md R268): nothing delivered, the error recorded, the engine idle. `obuf` is
the content of `OBUF`, which is unspecified then. -/
def aborted (s : State) (err : BitVec 4) (sub : BitVec 2) (info : Word) (obuf : List Host.Cell) : State :=
  { s with
    status := { busy := false, done := true, degraded := false, txe := false, ftype := 0#3, err := err, errsub := sub }
    outLen := 0#32, res0 := 0#32, res1 := 0#32, blkcnt := 0#32, failcnt := 0#32, errinfo := info, obuf := obuf
    phase := .idle, blk := 0, work := Work.none, answer := none }

/-! ### The pieces of a decode -/

/-- The declared payload length in bytes of a parsed header (44_decoder.md R202). -/
def declaredLength : ParsedHeader → Option Nat
  | .short => none
  | .badTag _ => none
  | .text len => some len
  | .image height width => some (3 * height * width)

/-- `block_out(c, fben)` (44_decoder.md R205): the piece of payload a codeword block gives, or `none` for the strict abort. -/
def blockOut (k : Codec) (fben : Bool) (c : Bytes) : Option Bytes :=
  match k.dec c with
  | some m => some m
  | none => if fben then some (msgPrefix c) else none

/-- The accumulator of `DEC` after the blocks `cs`, with `FBEN = 1` (44_decoder.md R205, R206, R208). -/
def decodedBytes (k : Codec) (cs : List Bytes) : Bytes := (cs.map fun c => (k.dec c).getD (msgPrefix c)).flatten

/-- The number of blocks the codec fails on (44_decoder.md R211). -/
def failedBlocks (k : Codec) (cs : List Bytes) : Nat := (cs.filter fun c => (k.dec c).isNone).length

/-- The accumulator of `RAW` after the blocks `cs` (44_decoder.md R221, R222). -/
def rawBytes (cs : List Bytes) : Bytes := (cs.map msgPrefix).flatten

/-- The payload of an image frame (44_decoder.md R215): cut to `n` bytes, or filled with `0xFF` to `n` bytes. -/
def imagePayload (n : Nat) (acc : Bytes) : Bytes :=
  if n ≤ acc.length then acc.take n else acc ++ List.replicate (n - acc.length) 0xFF#8

/-! ### Safe runs -/

/-- The results of a command (10_state.md R44, 20_memory.md R71): the result registers and the bytes of `OBUF` declared
valid. -/
def results (s : State) : List Word × List (Option Byte) :=
  ([statusWord s.status, s.outLen, s.res0, s.res1, s.blkcnt, s.failcnt, s.errinfo],
    (List.range (ceilDiv s.outLen.toNat 8)).map fun j => Memory.get s.obuf j)

/-- The operands and the first `IN_LEN` bits of the input two states give a command are the same (10_state.md R44). -/
def sameInput (s t : State) : Prop :=
  s.arg0 = t.arg0 ∧ s.arg1 = t.arg1 ∧ s.inLen = t.inLen ∧ s.ctrl.fben = t.ctrl.fben ∧
    ∀ n, n ≤ s.inLen.toNat → inputBits s n = inputBits t n

/-- The opcodes that encode a frame. -/
def encoding (op : Opcode) : Bool := op = .enct || op = .enci

/-- The opcodes that decode a frame. -/
def decoding (op : Opcode) : Bool := op = .dec || op = .raw

/-- The buffers are canonical, every byte of `OBUF` declared valid has a value, and the engine's working values keep what it will
store inside `OBUF`. -/
structure BuffersOk (s : State) : Prop where
  /-- `IBUF` is canonical (20_memory.md R60). -/
  ibuf : Memory.wf s.ibuf
  /-- `OBUF` is canonical (20_memory.md R60). -/
  obuf : Memory.wf s.obuf
  /-- Every byte `OUT_LEN` declares valid has a value (10_state.md R30, 20_memory.md R71). -/
  valid : ∀ j, j < ceilDiv s.outLen.toNat 8 → (Memory.get s.obuf j).isSome = true
  /-- An encoder's output so far is the header and `ACC` bytes, and fits `OBUF` (43_encoder.md R188). -/
  encoder : s.phase = .block ∨ s.phase = .fin → encoding s.work.op = true →
    s.work.out.length = Config.hdrBits + 8 * s.work.acc ∧ s.work.out.length ≤ Config.capBits
  /-- The declared payload fits `OBUF` (44_decoder.md R220). -/
  decoder : s.phase = .block ∨ s.phase = .fin → decoding s.work.op = true → payloadLen s.work ≤ Config.capBytes

/-- `STATUS`, the results and the sequencer agree (10_state.md R28 to R42, 60_exceptions.md R268). -/
structure StatusOk (s : State) : Prop where
  /-- `BUSY` is 1 exactly while `PHASE != IDLE` (10_state.md R29). -/
  busy_iff : s.status.busy = true ↔ s.phase ≠ .idle
  /-- While busy, `STATUS` shows `BUSY` alone and every result is 0 (45_control.md R249). -/
  busy_shows : s.status.busy = true → s.status = { Status.clear with busy := true } ∧ s.outLen = 0#32 ∧ s.res0 = 0#32 ∧
    s.res1 = 0#32 ∧ s.blkcnt = 0#32 ∧ s.failcnt = 0#32 ∧ s.errinfo = 0#32
  /-- No error: no sub-cause and no information (10_state.md R35, R42). -/
  no_error : s.status.err = 0#4 → s.status.errsub = 0#2 ∧ s.errinfo = 0#32
  /-- An error: `DONE`, no warning, no result (60_exceptions.md R268). -/
  error : s.status.err ≠ 0#4 → s.status.done = true ∧ s.status.degraded = false ∧ s.status.txe = false ∧
    s.status.ftype = 0#3 ∧ s.outLen = 0#32 ∧ s.res0 = 0#32 ∧ s.res1 = 0#32 ∧ s.blkcnt = 0#32 ∧ s.failcnt = 0#32
  /-- `ERR` is 0 to 3 or 5 to 7 (10_state.md R34). -/
  codes : s.status.err.toNat < 8 ∧ s.status.err ≠ 4#4
  /-- `FTYPE` is 0 or 1 (10_state.md R33). -/
  ftype : s.status.ftype = 0#3 ∨ s.status.ftype = 1#3
  /-- `DEGRADED` exactly when `FAILCNT > 0` (10_state.md R31). -/
  degraded_iff : s.status.degraded = true ↔ s.failcnt ≠ 0#32
  /-- `TXE` is 0 for image frames (10_state.md R32). -/
  txe_text : s.status.txe = true → s.status.ftype = 0#3
  /-- In IDLE `BLK` is 0 and no answer waits (10_state.md R40, 70_reset_and_hazards.md R301). -/
  idle_rest : s.phase = .idle → s.blk = 0 ∧ s.answer = none
  /-- A decode in phase BLOCK is at a block that exists and has counted no more fallbacks than blocks (10_state.md R40). -/
  in_block : s.phase = .block → decoding s.work.op = true → s.work.nfail ≤ s.blk ∧ s.blk < s.work.nblk ∧ s.work.nblk ≤ 263172
  /-- The same in phase FIN. -/
  in_fin : s.phase = .fin → decoding s.work.op = true → s.work.nfail ≤ s.work.nblk ∧ s.work.nblk ≤ 263172
  /-- The tag is text or image (30_encoding.md R93). -/
  tag : s.work.t = 0#3 ∨ s.work.t = 1#3
  /-- An encoder that has begun works on the tag of its frame (10_state.md R43, 45_control.md R248). -/
  encoder_tag : s.phase = .block ∨ s.phase = .fin →
    (s.work.op = .enct → s.work.t = 0#3) ∧ (s.work.op = .enci → s.work.t = 1#3)

end Machine

end Sys2Proof
end

