-- ==== Sys2Proof/Certificates/Slice0/Obligations.lean ====
section
/-! DEFINITION. The statements for the provers. -/

section Statements

open Sys2Proof Sys2Proof.Machine

/-! ### Reset, step, decoding -/

/-- 70_reset_and_hazards.md R301, 10_state.md R45: the registers, the sequencer and the line after reset; every byte of both
buffers reads as an unspecified value; and nothing runs by itself. The last clause is the model's choice (log entry 2). -/
def Obligations.ResetLeavesTheMachineIdle : Prop :=
  (∀ r : Reg, regValue State.reset r = match r with | .id => 0x00FFDF20#32 | .ctrl => 0x00000001#32 | _ => 0#32) ∧
  State.reset.phase = .idle ∧ State.reset.blk = 0 ∧ irq State.reset = false ∧
  codecRequest State.reset = none ∧ State.reset.answer = none ∧
  (∀ i : Nat, hostLoadIn i State.reset = returnFreeByte State.reset ∧ hostLoadOut i State.reset = returnFreeByte State.reset) ∧
  step State.reset = .next State.reset

/-- The state after reset meets both invariants of Safety.lean. -/
def Obligations.ResetMeetsTheInvariants : Prop := BuffersOk State.reset ∧ StatusOk State.reset

/-- A pending command word is decoded and the instruction executed on the state without it; while busy it is ignored; a word
that decodes to nothing is refused (45_control.md R240, log entry 2). -/
def Obligations.StepRunsTheDecodedCommand : Prop :=
  ∀ (s : State) (w : Word) (rest : List Event), s.events = .command w :: rest →
    (s.status.busy = true → step s = .next { s with events := rest }) ∧
    (s.status.busy = false → ∀ i : Instr, decode (.command w) = .ok i → step s = exec i { s with events := rest }) ∧
    (s.status.busy = false → ∀ e : DecodeError, decode (.command w) = .error e →
      step s = .next (refuseWord w e { s with events := rest }))

/-- With nothing pending from outside, an engine in phase HDR of `HUNP`, `DEC` or `RAW` fetches the wire header from the first
bits of `IBUF` and executes it (40_header.md R128, 44_decoder.md R201, log entry 9). -/
def Obligations.StepRunsTheFetchedHeader : Prop :=
  ∀ (s : State) (bits : Bits) (i : Instr), s.events = [] → s.phase = .hdr →
    (s.work.op = .hunp ∨ s.work.op = .dec ∨ s.work.op = .raw) → s.inLen.toNat ≤ 536870912 →
    inputBits s (min s.inLen.toNat 27) = some bits → decode (.wire bits) = .ok i → step s = exec i s

/-- A sanity statement: words written out from 30_encoding.md R101, R102 and headers from 40_header.md R129 decode as the spec
says. -/
def Obligations.SpecWordsDecode : Prop :=
  decode (.command 0x00000000#32) = .ok .nop ∧ decode (.command 0x00000001#32) = .ok .enct ∧
  decode (.command 0x00000002#32) = .ok .enci ∧ decode (.command 0x00000003#32) = .ok .dec ∧
  decode (.command 0x00000004#32) = .ok .raw ∧ decode (.command 0x00000005#32) = .ok .hpkt ∧
  decode (.command 0x00000006#32) = .ok .hpki ∧ decode (.command 0x00000007#32) = .ok .hunp ∧
  decode (.command 0x00000008#32) = .ok .clr ∧ decode (.command 0x0000000F#32) = .error .reservedOpcode ∧
  decode (.command 0x00000019#32) = .error .reservedBits ∧
  decode (.wire ([false, false, false] ++ List.replicate 22 false ++ [true, false])) = .ok (.hdrText 2) ∧
  decode (.wire ([false, false, true] ++ List.replicate 11 false ++ [true] ++ List.replicate 11 false ++ [true])) =
    .ok (.hdrImage 1 1)

/-! ### Encoding -/

/-- Decoding the code of a well-formed instruction gives the instruction back, with every operand at every value
(30_encoding.md R91, R92, R101). -/
def Obligations.DecodeOfEncodeIsTheInstruction : Prop :=
  ∀ i : Instr, i.wellFormed = true → decode (encode i) = .ok i

/-- 40_header.md R124, in full. -/
def Obligations.HeaderFunctionsAreInverse : Prop :=
  (∀ (len : Nat) (r : Bits), len ≤ 16777215 → hdrParse (hdrTextBits len ++ r) = .text len) ∧
  (∀ (height width : Nat) (r : Bits), height ≤ 4095 → width ≤ 4095 →
    hdrParse (hdrImageBits height width ++ r) = .image height width) ∧
  (∀ (s : Bits) (len : Nat), hdrParse s = .text len → s.take 27 = hdrTextBits len ∧ len ≤ 16777215) ∧
  (∀ (s : Bits) (height width : Nat), hdrParse s = .image height width →
    s.take 27 = hdrImageBits height width ∧ height ≤ 4095 ∧ width ≤ 4095) ∧
  (∀ s : Bits, s.length = 27 → b2u (s.take 3) < 2 →
    (∃ len : Nat, hdrParse s = .text len) ∨ ∃ height width : Nat, hdrParse s = .image height width) ∧
  (∀ len height width : Nat, (hdrTextBits len)[2]? = some false ∧ (hdrImageBits height width)[2]? = some true)

/-- A bitstream is refused by name exactly as 40_header.md R123 says: the tag, read from its first three bits, is examined
before the length. -/
def Obligations.HeaderRefusals : Prop :=
  (∀ s : Bits, hdrParse s = .short ↔ s.length < 3 ∨ (s.length < 27 ∧ b2u (s.take 3) < 2)) ∧
  (∀ (s : Bits) (t : Nat), hdrParse s = .badTag t ↔ 3 ≤ s.length ∧ b2u (s.take 3) = t ∧ 2 ≤ t ∧ t ≤ 7)

/-- 30_encoding.md R101, R102: a command word means an instruction exactly when it is that instruction's code, and every other
word is refused, the reserved bits before the opcode. -/
def Obligations.EveryCommandWordIsRead : Prop :=
  (∀ (w : Word) (i : Instr), decode (.command w) = .ok i ↔ encode i = .command w) ∧
  (∀ w : Word, decode (.command w) = .error .reservedBits ↔ 16 ≤ w.toNat) ∧
  (∀ w : Word, decode (.command w) = .error .reservedOpcode ↔ 9 ≤ w.toNat ∧ w.toNat ≤ 15)

/-! ### Bits, bytes and chunks -/

/-- 41_chunker.md R141, with its example. -/
def Obligations.BitAndByteConversionsAreInverse : Prop :=
  (∀ B : Bytes, bitsToBytes (bytesToBits B) = B) ∧
  (∀ s : Bits, s.length % 8 = 0 → bytesToBits (bitsToBytes s) = s) ∧
  (∀ B : Bytes, (bytesToBits B).length = 8 * B.length) ∧
  (∀ B C : Bytes, bytesToBits (B ++ C) = bytesToBits B ++ bytesToBits C) ∧
  bytesToBits [0x68#8, 0x69#8] = [false, true, true, false, true, false, false, false, false, true, true, false, true, false,
    false, true]

/-- 41_chunker.md R143: number, content, sizes and concatenation of the chunks. -/
def Obligations.ChunksPartitionTheBytes : Prop :=
  ∀ (B : Bytes) (n : Nat), 1 ≤ n →
    (chunks B n).length = (B.length + n - 1) / n ∧
    (∀ i : Nat, i < (chunks B n).length → (chunks B n)[i]? = some ((B.drop (i * n)).take (min ((i + 1) * n) B.length - i * n))) ∧
    (∀ (i : Nat) (c : Bytes), i + 1 < (chunks B n).length → (chunks B n)[i]? = some c → c.length = n) ∧
    (∀ c : Bytes, (chunks B n).getLast? = some c → c.length = if B.length % n = 0 then n else B.length % n) ∧
    (∀ c : Bytes, c ∈ chunks B n → c ≠ []) ∧ chunks [] n = [] ∧ (chunks B n).flatten = B

/-- 41_chunker.md R144, R146: with padding every message block has 223 bytes, without it the blocks are the chunks; padding
adds zero bytes on the right of the last block alone and never a block. -/
def Obligations.MessageBlocksPadTextOnly : Prop :=
  ∀ B : Bytes,
    msgBlocks B false = chunks B 223 ∧ (msgBlocks B true).length = (chunks B 223).length ∧
    (∀ c : Bytes, c ∈ msgBlocks B true → c.length = 223) ∧
    (msgBlocks B true).flatten = B ++ List.replicate (223 * (msgBlocks B true).length - B.length) 0x00#8

/-- 41_chunker.md R148, 30_encoding.md R96: with a codec of the contract's length, cutting the region of a frame recovers its
codewords, one for each message block, and the frame has the length the payload gives it. -/
def Obligations.FramesAreCutBackIntoCodewords : Prop :=
  ∀ (k : Codec) (B : Bytes), k.EncodeLength →
    cwBlocks (region (frameText k B)) = (msgBlocks B true).map k.enc ∧
    (cwBlocks (region (frameText k B))).length = ceilDiv B.length 223 ∧
    (frameText k B).length = 27 + 8 * 255 * ceilDiv B.length 223 ∧
    ∀ height width : Nat, B.length = 3 * height * width →
      cwBlocks (region (frameImage k B height width)) = (msgBlocks B false).map k.enc ∧
      (cwBlocks (region (frameImage k B height width))).length = ceilDiv B.length 223 ∧
      (frameImage k B height width).length = 27 + 8 * (3 * height * width + 32 * ceilDiv (3 * height * width) 223)

/-- 44_decoder.md R217: `utf8_wf` holds exactly of the concatenations of sequences of the table, each byte in its range. The
table is the spec's own general knowledge (log entry 13). -/
def Obligations.Utf8CheckIsTheTable : Prop :=
  ∀ B : Bytes, utf8Wf B = true ↔
    ∃ parts : List Bytes, parts.flatten = B ∧ ∀ q : Bytes, q ∈ parts → ∃ row : List ByteRange, row ∈ utf8Table ∧
      List.Forall₂ (fun r v => r.lo.toNat ≤ v.toNat ∧ v.toNat ≤ r.hi.toNat) row q

/-! ### Buffers -/

/-- 20_memory.md R62: bit `i` of the bitstream in `IBUF` is in byte `i div 8` at weight `2^(7 - i mod 8)`; bits of the last
byte beyond the length are not read; the bitstream is there exactly when every byte that holds it is written. -/
def Obligations.InputBitsAreMostSignificantFirst : Prop :=
  ∀ (s : State) (n : Nat),
    ((inputBits s n).isSome = true ↔ ∀ j : Nat, j < ceilDiv n 8 → (Memory.get s.ibuf j).isSome = true) ∧
    ∀ bits : Bits, inputBits s n = some bits → bits.length = n ∧
      ∀ i : Nat, i < n → ∃ v : Byte, Memory.get s.ibuf (i / 8) = some v ∧ bits[i]? = some (v.getLsbD (7 - i % 8))

/-- 20_memory.md R63: the bytes a stored bitstream leaves in `OBUF`; a byte at or after `ceil_div(|s|, 8)` has no value. -/
def Obligations.StoredBitsFillOutputBytes : Prop :=
  ∀ (s : State) (bits : Bits) (j : Nat),
    Memory.get (storeBits bits s).obuf j =
      if j < ceilDiv bits.length 8 then
        some (BitVec.ofNat 8 (b2u (((bits.drop (8 * j)) ++ List.replicate 7 false).take 8)))
      else none

/-- 70_reset_and_hazards.md R308: a bitstream stored in `OBUF`, copied byte for byte into `IBUF` with `IN_LEN` its length in
bits, is read back. -/
def Obligations.CopiedOutputReadsBack : Prop :=
  ∀ (s t : State) (bits : Bits), bits.length ≤ 536870912 →
    (∀ j : Nat, j < ceilDiv bits.length 8 → Memory.get t.ibuf j = Memory.get (storeBits bits s).obuf j) →
    t.inLen = BitVec.ofNat 32 bits.length → inputBits t t.inLen.toNat = some bits

/-- 20_memory.md R61, R68, R71, R76, 10_state.md R24: a byte stored in `IBUF` is read back and no other byte changes; beyond
the buffer a store is ignored; a store to `OBUF` is ignored; a load returns the byte where it is defined and a free value
elsewhere. Every byte of `OBUF` declared valid is defined where the invariant `BuffersOk` holds. That a load of an undefined byte
draws a free value from a counter is the model's choice (log entries 5, 6, 7). -/
def Obligations.BufferAccesses : Prop :=
  ∀ (s : State) (rest : List Event) (i : Nat) (v : Byte), s.status.busy = false →
    (s.events = .storeIn i v :: rest → i < 67108864 → ∃ m : List Host.Cell, step s = .next { s with events := rest, ibuf := m } ∧
      Memory.get m i = some v ∧ ∀ j : Nat, j ≠ i → Memory.get m j = Memory.get s.ibuf j) ∧
    (s.events = .storeIn i v :: rest → 67108864 ≤ i → step s = .next { s with events := rest }) ∧
    (s.events = .storeOut i v :: rest → step s = .next { s with events := rest }) ∧
    (s.events = .loadIn i :: rest → i < 67108864 → Memory.get s.ibuf i = some v →
      step s = .next { s with events := rest, portData := v.zeroExtend 32 }) ∧
    (s.events = .loadIn i :: rest → 67108864 ≤ i ∨ Memory.get s.ibuf i = none →
      step s = .next { s with
        events := rest, freeCount := s.freeCount + 1
        portData := (Config.freeByte s.freeCount).zeroExtend 32 }) ∧
    (s.events = .loadOut i :: rest → i < 67108864 → i < ceilDiv s.outLen.toNat 8 → Memory.get s.obuf i = some v →
      step s = .next { s with events := rest, portData := v.zeroExtend 32 }) ∧
    (s.events = .loadOut i :: rest → BuffersOk s → i < ceilDiv s.outLen.toNat 8 →
      ∃ u : Byte, Memory.get s.obuf i = some u ∧ step s = .next { s with events := rest, portData := u.zeroExtend 32 }) ∧
    (s.events = .loadOut i :: rest → 67108864 ≤ i ∨ ceilDiv s.outLen.toNat 8 ≤ i ∨ Memory.get s.obuf i = none →
      step s = .next { s with
        events := rest, freeCount := s.freeCount + 1
        portData := (Config.freeByte s.freeCount).zeroExtend 32 })

/-! ### Registers -/

/-- 70_reset_and_hazards.md R305: any write to any register or to `IBUF` while busy changes nothing; nor does a store to `OBUF`
(20_memory.md R61, 93_implementation_defined.md U19). -/
def Obligations.WritesWhileBusyAreLost : Prop :=
  ∀ (s : State) (e : Event) (rest : List Event), s.status.busy = true → s.events = e :: rest →
    ((∃ (reg : Fin 16) (v : Word), e = .write reg v) ∨ (∃ (i : Nat) (v : Byte), e = .storeIn i v) ∨
      (∃ (i : Nat) (v : Byte), e = .storeOut i v) ∨ (∃ w : Word, e = .command w)) →
    step s = .next { s with events := rest }

/-- 10_state.md R24 (b), (c), 20_memory.md R66, R71: a read changes no state of the hardware. While busy only `ID`, `CTRL` and
`STATUS` read their value and every other register or byte reads as a free value; else a register reads its value. That a read of
`CMD` while busy is a free value too, not R23's 0, and that a free value is drawn from a counter, is the model's choice (log
entry 7). -/
def Obligations.ReadsChangeNothing : Prop :=
  (∀ (s : State) (reg : Fin 16) (rest : List Event), s.events = .read reg :: rest →
    (s.status.busy = false ∨ reg = 0 ∨ reg = 1 ∨ reg = 3 →
      step s = .next { s with events := rest, portData := regValue s (regAt reg) }) ∧
    (s.status.busy = true → reg ≠ 0 → reg ≠ 1 → reg ≠ 3 →
      step s = .next { s with events := rest, portData := Config.freeWord s.freeCount, freeCount := s.freeCount + 1 })) ∧
  (∀ (s : State) (i : Nat) (rest : List Event), s.status.busy = true →
    s.events = .loadIn i :: rest ∨ s.events = .loadOut i :: rest →
    step s = .next { s with
        events := rest, freeCount := s.freeCount + 1
        portData := (Config.freeByte s.freeCount).zeroExtend 32 })

/-- 10_state.md R21 to R25, R36, R37: what a write to each register but `CMD` leaves every register reading, and that it
changes nothing else. -/
def Obligations.RegisterWrites : Prop :=
  ∀ (s : State) (reg : Fin 16) (v : Word) (rest : List Event), s.status.busy = false → reg ≠ 2 →
    s.events = .write reg v :: rest →
    ∃ t : State, step s = .next t ∧
      (∀ r : Fin 16, regValue t (regAt r) =
        if r ≠ reg then regValue s (regAt r)
        else if r = 1 then v &&& 0x00000003#32
        else if r = 4 ∨ r = 5 ∨ r = 6 then v
        else regValue s (regAt r)) ∧
      t.ibuf = s.ibuf ∧ t.obuf = s.obuf ∧ t.phase = s.phase ∧ t.blk = s.blk ∧ t.work = s.work ∧ t.answer = s.answer ∧
      t.events = rest ∧ t.portData = s.portData ∧ t.freeCount = s.freeCount

/-- 10_state.md R22, R25, R28: the layout of `STATUS` and of `CTRL`, and the constant of `ID`. -/
def Obligations.RegisterLayouts : Prop :=
  (∀ st : Status, (statusWord st).getLsbD 0 = st.busy ∧ (statusWord st).getLsbD 1 = st.done ∧
    (statusWord st).getLsbD 2 = st.degraded ∧ (statusWord st).getLsbD 3 = st.txe ∧
    (statusWord st).extractLsb' 4 3 = st.ftype ∧ (statusWord st).getLsbD 7 = false ∧
    (statusWord st).extractLsb' 8 4 = st.err ∧ (statusWord st).extractLsb' 12 2 = st.errsub ∧
    (statusWord st).extractLsb' 14 18 = 0#18) ∧
  (∀ c : Ctrl, (ctrlWord c).getLsbD 0 = c.fben ∧ (ctrlWord c).getLsbD 1 = c.ien ∧ (ctrlWord c).extractLsb' 2 30 = 0#30) ∧
  ∀ s : State, regValue s .id = 0x00FFDF20#32

/-- 60_exceptions.md R272: the line is a level, `DONE and IEN`; completion, abort and refusal raise it when enabled, an issue
and reset lower it, and so does clearing `IEN`, which leaves `DONE` set. -/
def Obligations.InterruptLineIsALevel : Prop :=
  (∀ s : State, irq s = (s.status.done && s.ctrl.ien)) ∧ irq State.reset = false ∧
  (∀ s : State, irq (complete s) = s.ctrl.ien) ∧
  (∀ (e : ErrKind) (sub : BitVec 2) (info : Nat) (s : State), irq (raise e sub info s) = s.ctrl.ien) ∧
  (∀ (w : Word) (sub : BitVec 2) (s : State), irq (refuseIllegal w sub s) = s.ctrl.ien) ∧
  (∀ (op : Opcode) (s : State), irq (issue op s) = false) ∧
  (∀ (s : State) (v : Word), s.status.busy = false →
    irq (hostWrite 1 v s) = (s.status.done && v.getLsbD 1) ∧ (hostWrite 1 v s).status = s.status)

/-! ### Control -/

/-- 45_control.md R243. -/
def Obligations.NopChangesNothing : Prop :=
  (∀ s : State, exec .nop s = .next s) ∧
  (∀ (s : State) (rest : List Event), s.events = .command 0#32 :: rest ∨ s.events = .write 2 0#32 :: rest →
    step s = .next { s with events := rest }) ∧
  (∀ w : Word, decode (.command w) = .ok .nop ↔ w = 0#32) ∧
  (∀ w : Word, w.extractLsb' 0 4 = 0#4 → w.extractLsb' 4 28 ≠ 0#28 → decode (.command w) = .error .reservedBits)

/-- 45_control.md R244, R247: `CLR` ends with `STATUS` and every result 0 and the engine idle, and leaves the operands, the
control bits and both buffers alone. The working values are empty afterwards: the model's choice (log entry 8). -/
def Obligations.ClrClearsStatusAndResults : Prop :=
  ∀ s : State, s.status.busy = false →
    exec .clr s = .next { s with
      status := { busy := false, done := false, degraded := false, txe := false, ftype := 0#3, err := 0#4, errsub := 0#2 }
      outLen := 0#32, res0 := 0#32, res1 := 0#32, blkcnt := 0#32, failcnt := 0#32, errinfo := 0#32
      phase := .idle, blk := 0, work := Work.none, answer := none }

/-- 45_control.md R246, 60_exceptions.md R266: an illegal word starts nothing and is reported at once. -/
def Obligations.IllegalCommandIsRefused : Prop :=
  ∀ (s : State) (w : Word) (rest : List Event), s.status.busy = false → 9 ≤ w.toNat →
    s.events = .command w :: rest ∨ s.events = .write 2 w :: rest →
    step s = .next { s with
      events := rest
      status := { busy := false, done := true, degraded := false, txe := false, ftype := 0#3, err := 6#4,
                  errsub := if 16 ≤ w.toNat then 0#2 else 1#2 }
      outLen := 0#32, res0 := 0#32, res1 := 0#32, blkcnt := 0#32, failcnt := 0#32, errinfo := w }

/-- 45_control.md R240, R241: the write that issues a command clears every result, sets `BUSY` alone and puts the sequencer at
`(HDR, 0)`; operands, control bits and both buffers stay. The other working values start at 0: the model's choice (log entry 8). -/
def Obligations.IssueClearsResults : Prop :=
  ∀ (s : State) (op : Opcode) (w : Word) (rest : List Event), s.status.busy = false → op ≠ .nop →
    encode op.instr = .command w → s.events = .write 2 w :: rest →
    step s = .next { s with
      events := rest
      status := { busy := true, done := false, degraded := false, txe := false, ftype := 0#3, err := 0#4, errsub := 0#2 }
      outLen := 0#32, res0 := 0#32, res1 := 0#32, blkcnt := 0#32, failcnt := 0#32, errinfo := 0#32
      phase := .hdr, blk := 0, work := { Work.none with op := op }, answer := none }

/-- 60_exceptions.md R268: the abort sequence, with the codes of 10_state.md R34. `OBUF` is unspecified after it: every byte
reads as a free value. The working values are empty afterwards: the model's choice (log entry 8). -/
def Obligations.AbortSequence : Prop :=
  ∀ (e : ErrKind) (sub : BitVec 2) (info : Nat) (s : State),
    raise e sub info s = { s with
      outLen := 0#32, res0 := 0#32, res1 := 0#32, blkcnt := 0#32, failcnt := 0#32, errinfo := BitVec.ofNat 32 info
      status := { busy := false, done := true, degraded := false, txe := false, ftype := 0#3, errsub := sub,
                  err := match e with
                    | .range => 1#4
                    | .uncorrectableBlock => 2#4
                    | .unrecognizedFrameType => 3#4
                    | .bitstreamLength => 5#4
                    | .illegalCommand => 6#4
                    | .operand => 7#4 }
      phase := .idle, blk := 0, work := Work.none, answer := none } ∧
    ∀ i : Nat, hostLoadOut i (raise e sub info s) = returnFreeByte (raise e sub info s)

/-- 70_reset_and_hazards.md R300: reset at any time, and the codec's answer that comes after it. The last word read and the
count of free values are the model's own and stay. -/
def Obligations.ResetEndsEverything : Prop :=
  ∀ (s : State) (rest : List Event),
    (s.events = .reset :: rest →
      step s = .next { State.reset with events := rest, portData := s.portData, freeCount := s.freeCount }) ∧
    (s.events = .reset :: .codec :: rest →
      Host.Core.run Sys2Proof.core 2 s =
        .next { State.reset with events := rest, portData := s.portData, freeCount := s.freeCount }) ∧
    irq { State.reset with events := rest, portData := s.portData, freeCount := s.freeCount } = false

/-- 70_reset_and_hazards.md R312: while the codec does not answer and no reset comes, the engine stays at its block for ever,
busy, whatever else the outside world does. -/
def Obligations.SilentCodecHangsTheEngine : Prop :=
  ∀ (s : State) (n : Nat), s.status.busy = true → s.phase = .block → s.answer = none →
    (s.work.op = .enct ∨ s.work.op = .enci ∨ s.work.op = .dec) →
    (∀ e : Event, e ∈ s.events → e ≠ .codec ∧ e ≠ .reset) →
    ∃ t : State, Host.Core.run Sys2Proof.core n s = .next t ∧
      { s with events := t.events, portData := t.portData, freeCount := t.freeCount } = t

/-! ### Header commands -/

/-- 40_header.md R126: `HPKT` packs a text header, or aborts on a length of `2^24` or more. The working values are empty
afterwards: the model's choice (log entry 8). -/
def Obligations.HpktPacksATextHeader : Prop :=
  ∀ s : State, s.status.busy = false →
    (s.arg0.toNat ≤ 16777215 →
      exec .hpkt s = .next (delivered s 0#3 false false 27 s.arg0.toNat 0 0 0
        (Memory.ofBytes (packBits (hdrTextBits s.arg0.toNat))))) ∧
    (16777215 < s.arg0.toNat → exec .hpkt s = .next (aborted s 1#4 0#2 s.arg0 s.obuf))

/-- 40_header.md R127: `HPKI` packs an image header, or aborts on the height, and only then on the width. The working values
are empty afterwards: the model's choice (log entry 8). -/
def Obligations.HpkiPacksAnImageHeader : Prop :=
  ∀ s : State, s.status.busy = false →
    (s.arg0.toNat ≤ 4095 → s.arg1.toNat ≤ 4095 →
      exec .hpki s = .next (delivered s 1#3 false false 27 s.arg0.toNat s.arg1.toNat 0 0
        (Memory.ofBytes (packBits (hdrImageBits s.arg0.toNat s.arg1.toNat))))) ∧
    (4095 < s.arg0.toNat → exec .hpki s = .next (aborted s 1#4 1#2 s.arg0 s.obuf)) ∧
    (s.arg0.toNat ≤ 4095 → 4095 < s.arg1.toNat → exec .hpki s = .next (aborted s 1#4 2#2 s.arg1 s.obuf))

/-- 40_header.md R128: `HUNP` delivers the header, or aborts; it writes nothing to `OBUF`. The working values are empty
afterwards: the model's choice (log entry 8). -/
def Obligations.HunpUnpacksAHeader : Prop :=
  ∀ s : State, s.status.busy = false →
    (536870912 < s.inLen.toNat → exec .hunp s = .next (aborted s 7#4 0#2 s.inLen s.obuf)) ∧
    ∀ bits : Bits, s.inLen.toNat ≤ 536870912 → inputBits s (min s.inLen.toNat 27) = some bits →
      exec .hunp s = .next (match hdrParse bits with
        | .short => aborted s 5#4 0#2 s.inLen s.obuf
        | .badTag t => aborted s 3#4 0#2 (BitVec.ofNat 32 t) s.obuf
        | .text len => delivered s 0#3 false false 0 len 0 0 0 s.obuf
        | .image height width => delivered s 1#3 false false 0 height width 0 0 s.obuf)

/-- The wire header of a text frame, executed where the engine reads it: `HUNP` delivers it (40_header.md R128), `DEC` and
`RAW` check the region and go to the first block or to FIN (44_decoder.md R201). Elsewhere it does nothing (log entry 9).
The working values are empty afterwards: the model's choice (log entry 8). -/
def Obligations.TextHeaderIsExecuted : Prop :=
  ∀ (s : State) (len : Nat),
    (s.phase = .hdr → s.work.op = .hunp → exec (.hdrText len) s = .next { s with
      status := { s.status with busy := false, done := true, ftype := 0#3 }
      outLen := 0#32, res0 := BitVec.ofNat 32 len, res1 := 0#32, blkcnt := 0#32, failcnt := 0#32
      phase := .idle, blk := 0, work := Work.none, answer := none }) ∧
    (s.phase = .hdr → s.work.op = .dec ∨ s.work.op = .raw →
      ((s.inLen.toNat - 27) % 8 ≠ 0 → exec (.hdrText len) s = .next (aborted s 5#4 1#2 s.inLen s.obuf)) ∧
      ((s.inLen.toNat - 27) % 8 = 0 → (s.inLen.toNat - 27) / 8 < len →
        exec (.hdrText len) s = .next (aborted s 5#4 2#2 s.inLen s.obuf)) ∧
      ∀ bits : Bits, (s.inLen.toNat - 27) % 8 = 0 → len ≤ (s.inLen.toNat - 27) / 8 → inputBits s s.inLen.toNat = some bits →
        exec (.hdrText len) s = .next { s with
          phase := if cwBlocks (region bits) = [] then .fin else .block
          blk := 0
          work := { s.work with t := 0#3, l := len, h := 0, w := 0, nblk := (cwBlocks (region bits)).length, acc := 0, nfail := 0 } }) ∧
    (s.phase ≠ .hdr ∨ (s.work.op ≠ .hunp ∧ s.work.op ≠ .dec ∧ s.work.op ≠ .raw) → exec (.hdrText len) s = .next s)

/-- The wire header of an image frame, executed where the engine reads it; the declared payload has `3·H·W` bytes
(44_decoder.md R202). Elsewhere it does nothing (log entry 9). The working values are empty afterwards: the model's choice
(log entry 8). -/
def Obligations.ImageHeaderIsExecuted : Prop :=
  ∀ (s : State) (height width : Nat),
    (s.phase = .hdr → s.work.op = .hunp → exec (.hdrImage height width) s = .next { s with
      status := { s.status with busy := false, done := true, ftype := 1#3 }
      outLen := 0#32, res0 := BitVec.ofNat 32 height, res1 := BitVec.ofNat 32 width, blkcnt := 0#32, failcnt := 0#32
      phase := .idle, blk := 0, work := Work.none, answer := none }) ∧
    (s.phase = .hdr → s.work.op = .dec ∨ s.work.op = .raw →
      ((s.inLen.toNat - 27) % 8 ≠ 0 → exec (.hdrImage height width) s = .next (aborted s 5#4 1#2 s.inLen s.obuf)) ∧
      ((s.inLen.toNat - 27) % 8 = 0 → (s.inLen.toNat - 27) / 8 < 3 * height * width →
        exec (.hdrImage height width) s = .next (aborted s 5#4 2#2 s.inLen s.obuf)) ∧
      ∀ bits : Bits, (s.inLen.toNat - 27) % 8 = 0 → 3 * height * width ≤ (s.inLen.toNat - 27) / 8 →
        inputBits s s.inLen.toNat = some bits →
        exec (.hdrImage height width) s = .next { s with
          phase := if cwBlocks (region bits) = [] then .fin else .block
          blk := 0
          work := { s.work with
            t := 1#3, l := 0, h := height, w := width, nblk := (cwBlocks (region bits)).length, acc := 0, nfail := 0 } }) ∧
    (s.phase ≠ .hdr ∨ (s.work.op ≠ .hunp ∧ s.work.op ≠ .dec ∧ s.work.op ≠ .raw) → exec (.hdrImage height width) s = .next s)

/-! ### Encoders -/

/-- 43_encoder.md R181: `ENCT` delivers `frame_text` of the message, or aborts on the length, and only then on a length that is
not whole bytes. That the attached codec's frame never passes the end of `OBUF` is the model's reading of the port, whose answers
have at most 255 bytes (30_encoding.md R104, log entry 3). The working values are empty afterwards: the model's choice (log entry 8). -/
def Obligations.EnctEncodesATextFrame : Prop :=
  ∀ s : State, s.status.busy = false →
    (16777215 < s.inLen.toNat / 8 →
      exec .enct s = .next (aborted s 1#4 0#2 (BitVec.ofNat 32 (s.inLen.toNat / 8)) s.obuf)) ∧
    (s.inLen.toNat / 8 ≤ 16777215 → s.inLen.toNat % 8 ≠ 0 → exec .enct s = .next (aborted s 7#4 1#2 s.inLen s.obuf)) ∧
    ∀ B : Bytes, s.inLen.toNat / 8 ≤ 16777215 → s.inLen.toNat % 8 = 0 → inputBytes s (s.inLen.toNat / 8) = some B →
      exec .enct s = .next (delivered s 0#3 false false (frameText Config.codec B).length B.length 0 (ceilDiv B.length 223) 0
        (Memory.ofBytes (packBits (frameText Config.codec B))))

/-- 43_encoder.md R184: `ENCI` delivers `frame_image` of the pixel bytes, or aborts on the height, the width, the number of
bytes, in that order. That the attached codec's frame never passes the end of `OBUF` is the model's reading of the port, whose
answers have at most 255 bytes (30_encoding.md R104, log entry 3). The working values are empty afterwards: the model's choice (log entry 8). -/
def Obligations.EnciEncodesAnImageFrame : Prop :=
  ∀ s : State, s.status.busy = false →
    (4095 < s.arg0.toNat → exec .enci s = .next (aborted s 1#4 1#2 s.arg0 s.obuf)) ∧
    (s.arg0.toNat ≤ 4095 → 4095 < s.arg1.toNat → exec .enci s = .next (aborted s 1#4 2#2 s.arg1 s.obuf)) ∧
    (s.arg0.toNat ≤ 4095 → s.arg1.toNat ≤ 4095 → s.inLen.toNat ≠ 8 * (3 * s.arg0.toNat * s.arg1.toNat) →
      exec .enci s = .next (aborted s 7#4 2#2 s.inLen s.obuf)) ∧
    ∀ B : Bytes, s.arg0.toNat ≤ 4095 → s.arg1.toNat ≤ 4095 → s.inLen.toNat = 8 * (3 * s.arg0.toNat * s.arg1.toNat) →
      inputBytes s (3 * s.arg0.toNat * s.arg1.toNat) = some B →
      exec .enci s = .next (delivered s 1#3 false false
        (frameImage Config.codec B s.arg0.toNat s.arg1.toNat).length s.arg0.toNat s.arg1.toNat (ceilDiv B.length 223) 0
        (Memory.ofBytes (packBits (frameImage Config.codec B s.arg0.toNat s.arg1.toNat))))

/-- 42_codec.md R171, 43_encoder.md R188: with any codec, an encoder takes the answered bytes as they come, and aborts when the
frame would pass the end of `OBUF`, else delivers it. The working values are empty afterwards: the model's choice (log entry
8). -/
def Obligations.EncodersAbortPastTheBuffer : Prop :=
  ∀ (k : Codec) (s : State) (B : Bytes), s.status.busy = false → inputBytes s (s.inLen.toNat / 8) = some B →
    (s.inLen.toNat / 8 ≤ 16777215 → s.inLen.toNat % 8 = 0 →
      execEnctWith k s =
        if (frameText k B).length ≤ 536870912 then
          .next (delivered s 0#3 false false (frameText k B).length B.length 0 (ceilDiv B.length 223) 0
            (Memory.ofBytes (packBits (frameText k B))))
        else .next (aborted s 7#4 0#2 s.inLen s.obuf)) ∧
    (s.arg0.toNat ≤ 4095 → s.arg1.toNat ≤ 4095 → s.inLen.toNat = 8 * (3 * s.arg0.toNat * s.arg1.toNat) →
      execEnciWith k s =
        if (frameImage k B s.arg0.toNat s.arg1.toNat).length ≤ 536870912 then
          .next (delivered s 1#3 false false (frameImage k B s.arg0.toNat s.arg1.toNat).length s.arg0.toNat s.arg1.toNat
            (ceilDiv B.length 223) 0 (Memory.ofBytes (packBits (frameImage k B s.arg0.toNat s.arg1.toNat))))
        else .next (aborted s 7#4 0#2 s.inLen s.obuf))

/-! ### Decoders -/

/-- 44_decoder.md R201, R203, R221, 60_exceptions.md R269: the tests of `DEC` and `RAW` before the first block, in their order,
each ending in its abort. The working values are empty afterwards: the model's choice (log entry 8). -/
def Obligations.DecodersCheckTheFrameFirst : Prop :=
  ∀ (s : State) (i : Instr), s.status.busy = false → i = .dec ∨ i = .raw →
    (536870912 < s.inLen.toNat → exec i s = .next (aborted s 7#4 0#2 s.inLen s.obuf)) ∧
    ∀ bits : Bits, s.inLen.toNat ≤ 536870912 → inputBits s (min s.inLen.toNat 27) = some bits →
      (hdrParse bits = .short → exec i s = .next (aborted s 5#4 0#2 s.inLen s.obuf)) ∧
      (∀ t : Nat, hdrParse bits = .badTag t → exec i s = .next (aborted s 3#4 0#2 (BitVec.ofNat 32 t) s.obuf)) ∧
      (∀ n : Nat, declaredLength (hdrParse bits) = some n →
        ((s.inLen.toNat - 27) % 8 ≠ 0 → exec i s = .next (aborted s 5#4 1#2 s.inLen s.obuf)) ∧
        ((s.inLen.toNat - 27) % 8 = 0 → (s.inLen.toNat - 27) / 8 < n →
          exec i s = .next (aborted s 5#4 2#2 s.inLen s.obuf)))

/-- 44_decoder.md R201, R204 to R208, R211, R212, R215: `DEC` with `FBEN = 1` on an image frame, with any codec: the payload is the
pieces of all blocks in order, cut or filled with `0xFF` to `3·H·W` bytes; pieces that would pass the end of `OBUF` abort. With
the attached codec it completes whatever is answered: the model's reading of the port, whose answers have at most 255 bytes
(30_encoding.md R104, log entry 3). The working values are empty afterwards: the model's choice (log entry 8). -/
def Obligations.DecDecodesAnImageFrame : Prop :=
  ∀ (s : State) (bits : Bits) (height width : Nat), s.status.busy = false → s.ctrl.fben = true →
    s.inLen.toNat ≤ 536870912 → inputBits s s.inLen.toNat = some bits → hdrParse bits = .image height width →
    (bits.length - 27) % 8 = 0 → 3 * height * width ≤ (bits.length - 27) / 8 →
    exec .dec s = .next (delivered s 1#3
      (decide (0 < failedBlocks Config.codec (cwBlocks (region bits)))) false
      (8 * (3 * height * width)) height width (cwBlocks (region bits)).length
      (failedBlocks Config.codec (cwBlocks (region bits)))
      (Memory.ofBytes (imagePayload (3 * height * width) (decodedBytes Config.codec (cwBlocks (region bits)))))) ∧
    ∀ k : Codec,
      ((decodedBytes k (cwBlocks (region bits))).length ≤ 67108864 →
        execDecWith k s = .next (delivered s 1#3
          (decide (0 < failedBlocks k (cwBlocks (region bits)))) false
          (8 * (3 * height * width)) height width (cwBlocks (region bits)).length (failedBlocks k (cwBlocks (region bits)))
          (Memory.ofBytes (imagePayload (3 * height * width) (decodedBytes k (cwBlocks (region bits))))))) ∧
      (67108864 < (decodedBytes k (cwBlocks (region bits))).length →
        ∃ ob : List Host.Cell, execDecWith k s = .next (aborted s 7#4 0#2 s.inLen ob))

/-- 44_decoder.md R201, R204 to R208, R211, R212, R216, R217: `DEC` with `FBEN = 1` on a text frame, with any codec. A payload
shorter than declared aborts, and so do pieces that would pass the end of `OBUF`. The pieces of a codec whose answers fit the port
never do; that the attached codec is one is the model's reading of the port (30_encoding.md R104, log entry 3). The working values
are empty afterwards: the model's choice (log entry 8). -/
def Obligations.DecDecodesATextFrame : Prop :=
  (∀ s : State, exec .dec s = execDecWith Config.codec s) ∧ Config.codec.FitsPort ∧
  ∀ (k : Codec) (s : State) (bits : Bits) (len : Nat), s.status.busy = false → s.ctrl.fben = true →
    s.inLen.toNat ≤ 536870912 → inputBits s s.inLen.toNat = some bits → hdrParse bits = .text len →
    (bits.length - 27) % 8 = 0 → len ≤ (bits.length - 27) / 8 →
    (k.FitsPort → (decodedBytes k (cwBlocks (region bits))).length ≤ 67108864) ∧
    (len ≤ (decodedBytes k (cwBlocks (region bits))).length → (decodedBytes k (cwBlocks (region bits))).length ≤ 67108864 →
      execDecWith k s = .next (delivered s 0#3
        (decide (0 < failedBlocks k (cwBlocks (region bits))))
        (!utf8Wf ((decodedBytes k (cwBlocks (region bits))).take len)) (8 * len) len 0 (cwBlocks (region bits)).length
        (failedBlocks k (cwBlocks (region bits))) (Memory.ofBytes ((decodedBytes k (cwBlocks (region bits))).take len)))) ∧
    ((decodedBytes k (cwBlocks (region bits))).length < len →
      ∃ ob : List Host.Cell, execDecWith k s = .next (aborted s 5#4 3#2 s.inLen ob)) ∧
    (67108864 < (decodedBytes k (cwBlocks (region bits))).length →
      ∃ ob : List Host.Cell, execDecWith k s = .next (aborted s 7#4 0#2 s.inLen ob))

/-- 44_decoder.md R209: with `FBEN = 0` and any codec the first block the codec fails on aborts `DEC` with its index, unless the
pieces before it already pass the end of `OBUF`, which aborts first (R212); they never do where the codec's answers fit the port.
With no failing block the result is that of `FBEN = 1`. The working values are empty afterwards: the model's choice (log entry
8). -/
def Obligations.StrictDecStopsAtTheFirstFailure : Prop :=
  ∀ (k : Codec) (s : State) (bits : Bits) (n : Nat), s.status.busy = false → s.ctrl.fben = false →
    s.inLen.toNat ≤ 536870912 → inputBits s s.inLen.toNat = some bits → declaredLength (hdrParse bits) = some n →
    (bits.length - 27) % 8 = 0 → n ≤ (bits.length - 27) / 8 →
    (∀ (done later : List Bytes) (c : Bytes), cwBlocks (region bits) = done ++ c :: later → k.dec c = none →
      (∀ d : Bytes, d ∈ done → k.dec d ≠ none) →
      (k.FitsPort → (decodedBytes k done).length ≤ 67108864) ∧
      ((decodedBytes k done).length ≤ 67108864 →
        ∃ ob : List Host.Cell, execDecWith k s = .next (aborted s 2#4 0#2 (BitVec.ofNat 32 done.length) ob)) ∧
      (67108864 < (decodedBytes k done).length →
        ∃ ob : List Host.Cell, execDecWith k s = .next (aborted s 7#4 0#2 s.inLen ob))) ∧
    ((∀ c : Bytes, c ∈ cwBlocks (region bits) → k.dec c ≠ none) →
      ∃ t : State, execDecWith k { s with ctrl := { s.ctrl with fben := true } } = .next t ∧
        execDecWith k s = .next { t with ctrl := s.ctrl })

/-- 44_decoder.md R221, R222: `RAW` on a text frame and on an image frame. The working values are empty afterwards: the
model's choice (log entry 8). -/
def Obligations.RawExtractsThePrefixes : Prop :=
  ∀ (s : State) (bits : Bits), s.status.busy = false → s.inLen.toNat ≤ 536870912 →
    inputBits s s.inLen.toNat = some bits → (bits.length - 27) % 8 = 0 →
    (∀ len : Nat, hdrParse bits = .text len → len ≤ (bits.length - 27) / 8 →
      (len ≤ (rawBytes (cwBlocks (region bits))).length →
        exec .raw s = .next (delivered s 0#3 false (!utf8Wf ((rawBytes (cwBlocks (region bits))).take len)) (8 * len) len 0
          (cwBlocks (region bits)).length 0 (Memory.ofBytes ((rawBytes (cwBlocks (region bits))).take len)))) ∧
      ((rawBytes (cwBlocks (region bits))).length < len →
        ∃ ob : List Host.Cell, exec .raw s = .next (aborted s 5#4 3#2 s.inLen ob))) ∧
    (∀ height width : Nat, hdrParse bits = .image height width → 3 * height * width ≤ (bits.length - 27) / 8 →
      exec .raw s = .next (delivered s 1#3 false false (8 * (3 * height * width)) height width
        (cwBlocks (region bits)).length 0
        (Memory.ofBytes (imagePayload (3 * height * width) (rawBytes (cwBlocks (region bits)))))))

/-- 44_decoder.md R223 (e): `RAW` does the same whatever codec is attached. -/
def Obligations.RawNeedsNoCodec : Prop :=
  ∀ (k j : Codec) (s : State), execRawWith k s = execRawWith j s

/-- 44_decoder.md R223 (c): if the codec fails on every block of the frame, `DEC` with `FBEN = 1` ends as `RAW` does, but for
`FAILCNT` and `DEGRADED` of a completed command. -/
def Obligations.DecWithAllBlocksFailingEqualsRaw : Prop :=
  ∀ (k : Codec) (s t : State), s.status.busy = false → s.ctrl.fben = true →
    (∀ bits : Bits, inputBits s s.inLen.toNat = some bits → ∀ c : Bytes, c ∈ cwBlocks (region bits) → k.dec c = none) →
    execRawWith k s = .next t →
    execDecWith k s = .next (if t.status.err = 0#4 then
      { t with failcnt := t.blkcnt, status := { t.status with degraded := decide (t.blkcnt ≠ 0#32) } } else t)

/-! ### The document's laws -/

/-- 44_decoder.md R224, text: `DEC`, whatever `FBEN`, on an unaltered text frame gives the payload back. The working values
are empty afterwards: the model's choice (log entry 8). -/
def Obligations.TextRoundTrip : Prop :=
  ∀ (k : Codec) (s : State) (B : Bytes), k.EncodeLength → k.CleanDecode → B.length ≤ 16777215 → s.status.busy = false →
    inputBits s s.inLen.toNat = some (frameText k B) →
    execDecWith k s = .next (delivered s 0#3 false (!utf8Wf B) (8 * B.length) B.length 0 (ceilDiv B.length 223) 0
      (Memory.ofBytes B))

/-- 44_decoder.md R224, image. The working values are empty afterwards: the model's choice (log entry 8). -/
def Obligations.ImageRoundTrip : Prop :=
  ∀ (k : Codec) (s : State) (B : Bytes) (height width : Nat), k.EncodeLength → k.CleanDecode → height ≤ 4095 →
    width ≤ 4095 → B.length = 3 * height * width → s.status.busy = false →
    inputBits s s.inLen.toNat = some (frameImage k B height width) →
    execDecWith k s = .next (delivered s 1#3 false false (8 * B.length) height width (ceilDiv B.length 223) 0
      (Memory.ofBytes B))

/-- 44_decoder.md R225: at most 16 wrong bytes in each codeword of a frame change no result, when the codec corrects the
frame's messages. The working values are empty afterwards: the model's choice (log entry 8). -/
def Obligations.CorrectableErrorsChangeNothing : Prop :=
  ∀ (k : Codec) (s : State) (B : Bytes) (cs : List Bytes), k.EncodeLength → s.status.busy = false →
    (B.length ≤ 16777215 → (∀ m : Bytes, m ∈ msgBlocks B true → k.CorrectsMessage m) →
      List.Forall₂ (fun m c => c.length = (k.enc m).length ∧ differingBytes (k.enc m) c ≤ 16) (msgBlocks B true) cs →
      inputBits s s.inLen.toNat = some (hdrTextBits B.length ++ assemble cs) →
      execDecWith k s = .next (delivered s 0#3 false (!utf8Wf B) (8 * B.length) B.length 0 (ceilDiv B.length 223) 0
        (Memory.ofBytes B))) ∧
    (∀ height width : Nat, height ≤ 4095 → width ≤ 4095 → B.length = 3 * height * width →
      (∀ m : Bytes, m ∈ msgBlocks B false → k.CorrectsMessage m) →
      List.Forall₂ (fun m c => c.length = (k.enc m).length ∧ differingBytes (k.enc m) c ≤ 16) (msgBlocks B false) cs →
      inputBits s s.inLen.toNat = some (hdrImageBits height width ++ assemble cs) →
      execDecWith k s = .next (delivered s 1#3 false false (8 * B.length) height width (ceilDiv B.length 223) 0
        (Memory.ofBytes B)))

/-- 44_decoder.md R226, R210: one block the codec fails on damages its own 223 bytes alone. The working values are empty
afterwards: the model's choice (log entry 8). -/
def Obligations.OneFailingBlockStaysLocal : Prop :=
  ∀ (k : Codec) (s : State) (B : Bytes) (cs : List Bytes) (i : Nat) (c out : Bytes), s.status.busy = false →
    s.ctrl.fben = true → B.length ≤ 16777215 → cs.length = ceilDiv B.length 223 → (∀ b : Bytes, b ∈ cs → b.length = 255) →
    cs[i]? = some c → k.dec c = none →
    (∀ (j : Nat) (b : Bytes), j ≠ i → cs[j]? = some b → k.dec b = (msgBlocks B true)[j]?) →
    inputBits s s.inLen.toNat = some (hdrTextBits B.length ++ assemble cs) →
    out = (B.take (223 * i) ++ c.take 223 ++ B.drop (223 * (i + 1))).take B.length →
    execDecWith k s = .next (delivered s 0#3 true (!utf8Wf out) (8 * B.length) B.length 0 cs.length 1 (Memory.ofBytes out))

/-- 44_decoder.md R223 (d): on an unaltered frame of a systematic codec `RAW` gives the payload too. The working values are
empty afterwards: the model's choice (log entry 8). -/
def Obligations.RawReadsAnUnalteredFrame : Prop :=
  ∀ (k : Codec) (s : State) (B : Bytes), k.Systematic → s.status.busy = false →
    (B.length ≤ 16777215 → inputBits s s.inLen.toNat = some (frameText k B) →
      exec .raw s = .next (delivered s 0#3 false (!utf8Wf B) (8 * B.length) B.length 0 (ceilDiv B.length 223) 0
        (Memory.ofBytes B))) ∧
    (∀ height width : Nat, height ≤ 4095 → width ≤ 4095 → B.length = 3 * height * width →
      inputBits s s.inLen.toNat = some (frameImage k B height width) →
      exec .raw s = .next (delivered s 1#3 false false (8 * B.length) height width (ceilDiv B.length 223) 0
        (Memory.ofBytes B)))

/-- 40_header.md R128, 20_memory.md R63, 70_reset_and_hazards.md R308: a header packed by `HPKT` or `HPKI`, copied to `IBUF`
with its length, is unpacked by `HUNP` to the same operands. -/
def Obligations.PackedHeadersUnpack : Prop :=
  ∀ s : State, s.status.busy = false →
    (s.arg0.toNat ≤ 16777215 → ∃ t u : State, exec .hpkt s = .next t ∧
      exec .hunp { t with ibuf := t.obuf, inLen := t.outLen } = .next u ∧
      u.status = t.status ∧ u.res0 = s.arg0 ∧ u.res1 = 0#32) ∧
    (s.arg0.toNat ≤ 4095 → s.arg1.toNat ≤ 4095 → ∃ t u : State, exec .hpki s = .next t ∧
      exec .hunp { t with ibuf := t.obuf, inLen := t.outLen } = .next u ∧
      u.status = t.status ∧ u.res0 = s.arg0 ∧ u.res1 = s.arg1)

/-! ### The whole machine -/

/-- Every instruction answers a next state when every byte of the input is written; none is refused, and a fault means an
unwritten byte (20_memory.md R72). A command issued while not busy has then run to its completion or its abort: the engine is idle,
`BUSY` is 0, and `DONE` is 1 but after `CLR` (45_control.md R250, 10_state.md R30). That the codec answers every request is an
assumption of the model (log entry 1). -/
def Obligations.WrittenInputAlwaysCompletes : Prop :=
  ∀ (i : Instr) (s : State),
    ((∀ a : Nat, a < ceilDiv s.inLen.toNat 8 → (Memory.get s.ibuf a).isSome = true) → ∃ t : State, exec i s = .next t) ∧
    (∀ r : Refusal, exec i s ≠ .refused r) ∧
    ∀ (op : Opcode) (t : State), op ≠ .nop → i = op.instr → s.status.busy = false → exec i s = .next t →
      t.phase = .idle ∧ t.blk = 0 ∧ t.status.busy = false ∧ (t.status.done = true ↔ op ≠ .clr)

/-- 20_memory.md R72: a command that reads a byte the host has not written stops; the commands and the bytes they read. -/
def Obligations.UnwrittenInputStops : Prop :=
  ∀ s : State, s.status.busy = false →
    (s.inLen.toNat / 8 ≤ 16777215 → s.inLen.toNat % 8 = 0 → inputBytes s (s.inLen.toNat / 8) = none →
      exec .enct s = .fault .unwrittenInput) ∧
    (s.arg0.toNat ≤ 4095 → s.arg1.toNat ≤ 4095 → s.inLen.toNat = 8 * (3 * s.arg0.toNat * s.arg1.toNat) →
      inputBytes s (3 * s.arg0.toNat * s.arg1.toNat) = none → exec .enci s = .fault .unwrittenInput) ∧
    (∀ i : Instr, i = .hunp ∨ i = .dec ∨ i = .raw → s.inLen.toNat ≤ 536870912 →
      inputBits s (min s.inLen.toNat 27) = none → exec i s = .fault .unwrittenInput) ∧
    (∀ (i : Instr) (bits : Bits) (n : Nat), i = .dec ∨ i = .raw → s.inLen.toNat ≤ 536870912 →
      inputBits s (min s.inLen.toNat 27) = some bits → declaredLength (hdrParse bits) = some n →
      (s.inLen.toNat - 27) % 8 = 0 → n ≤ (s.inLen.toNat - 27) / 8 → inputBits s s.inLen.toNat = none →
      exec i s = .fault .unwrittenInput)

/-- 10_state.md R46: no instruction changes the operands, the control bits, `IBUF`, or what belongs to the outside world. -/
def Obligations.EngineKeepsTheInput : Prop :=
  ∀ (i : Instr) (s t : State), exec i s = .next t →
    t.ctrl = s.ctrl ∧ t.arg0 = s.arg0 ∧ t.arg1 = s.arg1 ∧ t.inLen = s.inLen ∧ t.ibuf = s.ibuf ∧ t.events = s.events ∧
    t.portData = s.portData ∧ t.freeCount = s.freeCount

/-- 30_encoding.md R104, 42_codec.md R167, R168, R172: a request is made only at a block of `ENCT`, `ENCI` or `DEC`, asks for
32 parity bytes and carries 1 to 223 message bytes or 1 to 255 codeword bytes; the codec's turn answers it as the codec's
function and changes nothing else. -/
def Obligations.CodecRequestsAreWellFormed : Prop :=
  (∀ (s : State) (r : CodecRequest), codecRequest s = some r →
    s.phase = .block ∧ r.par = 32#8 ∧ 1 ≤ r.data.length ∧ r.data.length ≤ 255 ∧
    (r.op = false → r.data.length ≤ 223 ∧ (s.work.op = .enct ∨ s.work.op = .enci)) ∧ (r.op = true → s.work.op = .dec)) ∧
  (∀ (k : Codec) (s : State) (r : CodecRequest), codecRequest s = some r → s.answer = none →
    ∃ a : CodecAnswer, codecTurn k s = { s with answer := some a } ∧
      (r.op = false → a.ok = true ∧ a.data = k.enc r.data) ∧
      (∀ m : Bytes, r.op = true → k.dec r.data = some m → a.ok = true ∧ a.data = m) ∧
      (r.op = true → k.dec r.data = none → a.ok = false ∧ a.data = []))

/-- 45_control.md R248, 10_state.md R40, R43: what one engine step does to the sequencer, from each phase, and the working values
phase HDR of a frame command sets. -/
def Obligations.SequencerTransitions : Prop :=
  ∀ s t : State, engineTurn s = .next t →
    (s.phase = .idle → t = s) ∧
    (s.phase = .hdr → s.work.op ≠ .nop →
      (t.phase = .idle ∧ t.blk = 0 ∧ t.status.busy = false) ∨
      ((encoding s.work.op = true ∨ decoding s.work.op = true) ∧ t.blk = 0 ∧ t.work.op = s.work.op ∧
        t.phase = (if 0 < t.work.nblk then .block else .fin) ∧ t.work.acc = 0 ∧ t.work.nfail = 0 ∧
        (s.work.op = .enct → t.work.t = 0#3 ∧ t.work.l = s.inLen.toNat / 8 ∧ t.work.nblk = ceilDiv (s.inLen.toNat / 8) 223 ∧
          t.work.out = hdrTextBits (s.inLen.toNat / 8)) ∧
        (s.work.op = .enci → t.work.t = 1#3 ∧ t.work.h = s.arg0.toNat ∧ t.work.w = s.arg1.toNat ∧
          t.work.nblk = ceilDiv (3 * s.arg0.toNat * s.arg1.toNat) 223 ∧
          t.work.out = hdrImageBits s.arg0.toNat s.arg1.toNat) ∧
        (decoding s.work.op = true → t.work.nblk = ceilDiv ((s.inLen.toNat - 27) / 8) 255 ∧
          ∃ bits : Bits, inputBits s (min s.inLen.toNat 27) = some bits ∧
            ((hdrParse bits = .text t.work.l ∧ t.work.t = 0#3) ∨
              (hdrParse bits = .image t.work.h t.work.w ∧ t.work.t = 1#3))))) ∧
    (s.phase = .block → encoding s.work.op = true ∨ decoding s.work.op = true →
      (t = s ∧ s.answer = none ∧ s.work.op ≠ .raw) ∨
      (t.phase = .idle ∧ t.blk = 0 ∧ t.status.busy = false ∧ t.status.err ≠ 0#4) ∨
      (t.phase = .block ∧ t.blk = s.blk + 1 ∧ s.blk + 1 < s.work.nblk ∧ t.answer = none) ∨
      (t.phase = .fin ∧ t.blk = s.work.nblk ∧ s.work.nblk ≤ s.blk + 1 ∧ t.answer = none)) ∧
    (s.phase = .fin → encoding s.work.op = true ∨ decoding s.work.op = true →
      t.phase = .idle ∧ t.blk = 0 ∧ t.status.busy = false ∧ t.status.done = true)

/-- 10_state.md R44: two states that give a command the same operands and input end with the same results. -/
def Obligations.NoStateCrossesCommands : Prop :=
  ∀ (op : Opcode) (s t s' : State), op ≠ .nop → s.status.busy = false → t.status.busy = false → sameInput s t →
    exec op.instr s = .next s' → ∃ t' : State, exec op.instr t = .next t' ∧ results t' = results s'

/-- 45_control.md R249, R250: the write to `CMD` followed by engine steps and codec answers computes what the command as one
transition computes, and once it has ended further turns change nothing. -/
def Obligations.SmallStepsAgreeWithTheCommand : Prop :=
  ∀ (op : Opcode) (w : Word) (s : State), op ≠ .nop → encode op.instr = .command w → s.events = [] →
    s.status.busy = false →
    ∃ N : Nat, ∀ n : Nat, N ≤ n →
      Host.Core.run Sys2Proof.core (2 * n + 2)
        { s with events := .write 2 w :: .engine :: (List.replicate n [Event.codec, Event.engine]).flatten } = exec op.instr s

/-- Every step keeps both buffers canonical and inside their capacity, a value in every byte of `OBUF` that `OUT_LEN` declares valid,
and what the engine is about to store inside `OBUF` (20_memory.md R60, R68, R71, 10_state.md R30, 43_encoder.md R188, 44_decoder.md
R212, R220). -/
def Obligations.StepKeepsTheBuffers : Prop :=
  ∀ s t : State, BuffersOk s → step s = .next t → BuffersOk t

/-- Every step keeps `STATUS`, the results and the sequencer in agreement, and an encoder's tag that of its frame (10_state.md R28
to R43, 60_exceptions.md R268). -/
def Obligations.StepKeepsTheStatus : Prop :=
  ∀ s t : State, StatusOk s → step s = .next t → StatusOk t

end Statements
end

