-- ==== Sys2Proof/Laws/Memory.lean ====
section
/-! SUPPORT. Laws of the buffers: a read after a write, what a write leaves alone, and that every buffer operation keeps the
canonical form. -/

namespace Sys2Proof.Machine

/-! ### Reads after writes -/

@[simp] theorem Memory.get_nil (a : Nat) : Memory.get [] a = none := rfl

theorem Memory.get_set (m : List Host.Cell) (a b : Nat) (v : Byte) :
    Memory.get (Memory.set m a v) b = if b = a then some v else Memory.get m b := by
  induction m with
  | nil => simp [Memory.set, Memory.get]
  | cons c m ih =>
    obtain ⟨d, u⟩ := c
    simp only [Memory.set]
    split
    · simp [Memory.get]
    · split
      · subst d; simp only [Memory.get]; split <;> rfl
      · simp only [Memory.get, ih]; split <;> split <;> first | rfl | omega

@[simp] theorem Memory.get_set_self (m : List Host.Cell) (a : Nat) (v : Byte) :
    Memory.get (Memory.set m a v) a = some v := by simp [Memory.get_set]

theorem Memory.get_set_other (m : List Host.Cell) {a b : Nat} (v : Byte) (h : b ≠ a) :
    Memory.get (Memory.set m a v) b = Memory.get m b := by simp [Memory.get_set, h]

/-- Each byte of `vs` is read back; every other byte is as before. -/
theorem Memory.get_setBytes (vs : Bytes) (m : List Host.Cell) (a b : Nat) :
    Memory.get (Memory.setBytes m a vs) b = if a ≤ b ∧ b < a + vs.length then vs[b - a]? else Memory.get m b := by
  induction vs generalizing m a with
  | nil => simp only [Memory.setBytes, List.length_nil]; rw [if_neg (by omega)]
  | cons v vs ih =>
    simp only [Memory.setBytes, ih, List.length_cons, Memory.get_set]
    by_cases h : b = a
    · subst h
      rw [if_neg (by omega), if_pos rfl, if_pos (by omega)]; simp
    · by_cases h2 : a + 1 ≤ b ∧ b < a + 1 + vs.length
      · rw [if_pos h2, if_pos (by omega)]
        obtain ⟨k, rfl⟩ : ∃ k, b = a + 1 + k := ⟨b - (a + 1), by omega⟩
        rw [show a + 1 + k - (a + 1) = k by omega, show a + 1 + k - a = k + 1 by omega, List.getElem?_cons_succ]
      · rw [if_neg h2, if_neg h, if_neg (by omega)]

theorem Memory.get_ofBytesFrom (vs : Bytes) (a b : Nat) :
    Memory.get (Memory.ofBytesFrom a vs) b = if a ≤ b then vs[b - a]? else none := by
  induction vs generalizing a with
  | nil => simp [Memory.ofBytesFrom]
  | cons v vs ih =>
    simp only [Memory.ofBytesFrom, Memory.get, ih]
    by_cases h : b = a
    · subst h; simp
    · rw [if_neg h]
      by_cases h2 : a ≤ b
      · rw [if_pos (by omega), if_pos h2]
        obtain ⟨k, rfl⟩ : ∃ k, b = a + 1 + k := ⟨b - (a + 1), by omega⟩
        rw [show a + 1 + k - (a + 1) = k by omega, show a + 1 + k - a = k + 1 by omega, List.getElem?_cons_succ]
      · rw [if_neg (by omega), if_neg h2]

@[simp] theorem Memory.get_ofBytes (vs : Bytes) (b : Nat) : Memory.get (Memory.ofBytes vs) b = vs[b]? := by
  simp [Memory.ofBytes, Memory.get_ofBytesFrom]

/-! ### Reading a run of bytes -/

theorem Memory.readBytes_length {m : List Host.Cell} {a n : Nat} {vs : Bytes} (h : Memory.readBytes m a n = some vs) :
    vs.length = n := by
  induction n generalizing a vs with
  | zero => simp only [Memory.readBytes, Option.some.injEq] at h; subst h; rfl
  | succ n ih =>
    simp only [Memory.readBytes] at h
    split at h
    · rename_i h2; simp only [Option.some.injEq] at h; subst h; simp [ih h2]
    · cases h

/-- A run of bytes is read exactly when each of its bytes has a value. -/
theorem Memory.readBytes_eq_some_iff (m : List Host.Cell) (a n : Nat) (vs : Bytes) :
    Memory.readBytes m a n = some vs ↔ vs.length = n ∧ ∀ j, j < n → Memory.get m (a + j) = vs[j]? := by
  induction n generalizing a vs with
  | zero => cases vs <;> simp [Memory.readBytes]
  | succ n ih =>
    constructor
    · intro h
      refine ⟨Memory.readBytes_length h, ?_⟩
      simp only [Memory.readBytes] at h
      split at h
      · rename_i v ws hv hws
        simp only [Option.some.injEq] at h; subst h
        intro j hj
        cases j with
        | zero => simpa using hv
        | succ j => have := ((ih (a + 1) ws).1 hws).2 j (by omega); simpa [Nat.add_assoc, Nat.add_comm 1 j] using this
      · cases h
    · rintro ⟨hl, h⟩
      cases vs with
      | nil => simp at hl
      | cons v vs =>
        have h0 := h 0 (by omega)
        have hr : Memory.readBytes m (a + 1) n = some vs :=
          (ih (a + 1) vs).2 ⟨by simpa using hl, fun j hj => by
            have := h (j + 1) (by omega); simpa [Nat.add_assoc, Nat.add_comm 1 j] using this⟩
        simp only [Nat.add_zero, List.getElem?_cons_zero] at h0
        simp [Memory.readBytes, h0, hr]

@[simp] theorem Memory.readBytes_ofBytes (vs : Bytes) : Memory.readBytes (Memory.ofBytes vs) 0 vs.length = some vs :=
  (Memory.readBytes_eq_some_iff _ _ _ _).2 ⟨rfl, fun j _ => by simp⟩

/-- Bytes that are all written are read as a prefix of a longer run that is read. -/
theorem Memory.readBytes_take {m : List Host.Cell} {a n : Nat} {vs : Bytes} (h : Memory.readBytes m a n = some vs)
    {k : Nat} (hk : k ≤ n) : Memory.readBytes m a k = some (vs.take k) := by
  have h' := (Memory.readBytes_eq_some_iff m a n vs).1 h
  refine (Memory.readBytes_eq_some_iff m a k _).2 ⟨by simp [h'.1, hk], fun j hj => ?_⟩
  rw [h'.2 j (by omega), List.getElem?_take, if_pos hj]

/-! ### The canonical form -/

theorem Memory.wf_nil : Memory.wf [] := by simp [Memory.wf]

theorem Memory.mem_set {m : List Host.Cell} {a : Nat} {v : Byte} {c : Host.Cell} (h : c ∈ Memory.set m a v) :
    c = (a, v) ∨ c ∈ m := by
  induction m with
  | nil => simpa [Memory.set] using h
  | cons d m ih =>
    obtain ⟨b, u⟩ := d
    simp only [Memory.set] at h
    split at h
    · simpa using h
    · split at h
      · rcases List.mem_cons.1 h with h | h
        · exact .inl h
        · exact .inr (List.mem_cons_of_mem _ h)
      · rcases List.mem_cons.1 h with h | h
        · exact .inr (by simp [h])
        · rcases ih h with h | h
          · exact .inl h
          · exact .inr (List.mem_cons_of_mem _ h)

theorem Memory.pairwise_set {m : List Host.Cell} {a : Nat} {v : Byte} (h : (m.map Prod.fst).Pairwise (· < ·)) :
    ((Memory.set m a v).map Prod.fst).Pairwise (· < ·) := by
  induction m with
  | nil => simp [Memory.set]
  | cons d m ih =>
    obtain ⟨b, u⟩ := d
    rw [List.map_cons, List.pairwise_cons] at h
    obtain ⟨hb, hm⟩ := h
    simp only [Memory.set]
    split
    · rename_i hab
      rw [List.map_cons, List.pairwise_cons, List.map_cons, List.pairwise_cons]
      refine ⟨fun x hx => ?_, hb, hm⟩
      rcases List.mem_cons.1 hx with rfl | hx
      · exact hab
      · exact lt_trans hab (hb x hx)
    · split
      · rename_i hab
        rw [List.map_cons, List.pairwise_cons]
        exact ⟨fun x hx => hab ▸ hb x hx, hm⟩
      · rename_i h1 h2
        rw [List.map_cons, List.pairwise_cons]
        refine ⟨fun x hx => ?_, ih hm⟩
        obtain ⟨c, hc, rfl⟩ := List.mem_map.1 hx
        rcases Memory.mem_set hc with rfl | hc
        · show b < a; omega
        · exact hb _ (List.mem_map_of_mem hc)

/-- Writing a byte inside the buffer keeps the canonical form. -/
theorem Memory.wf_set {m : List Host.Cell} {a : Nat} (v : Byte) (h : Memory.wf m) (ha : a < Config.capBytes) :
    Memory.wf (Memory.set m a v) :=
  ⟨Memory.pairwise_set h.1, fun c hc => by
    rcases Memory.mem_set hc with rfl | hc
    · exact ha
    · exact h.2 c hc⟩

/-- Writing a run of bytes inside the buffer keeps the canonical form. -/
theorem Memory.wf_setBytes {m : List Host.Cell} {a : Nat} (vs : Bytes) (h : Memory.wf m)
    (ha : a + vs.length ≤ Config.capBytes) : Memory.wf (Memory.setBytes m a vs) := by
  induction vs generalizing m a with
  | nil => exact h
  | cons v vs ih =>
    simp only [List.length_cons] at ha
    exact ih (Memory.wf_set v h (by omega)) (by omega)

theorem Memory.mem_ofBytesFrom {a : Nat} {vs : Bytes} {c : Host.Cell} (h : c ∈ Memory.ofBytesFrom a vs) :
    a ≤ c.1 ∧ c.1 < a + vs.length := by
  induction vs generalizing a with
  | nil => simp [Memory.ofBytesFrom] at h
  | cons v vs ih =>
    rcases List.mem_cons.1 h with rfl | h
    · simp
    · have := ih h; simp only [List.length_cons]; omega

theorem Memory.pairwise_ofBytesFrom (a : Nat) (vs : Bytes) :
    ((Memory.ofBytesFrom a vs).map Prod.fst).Pairwise (· < ·) := by
  induction vs generalizing a with
  | nil => simp [Memory.ofBytesFrom]
  | cons v vs ih =>
    rw [Memory.ofBytesFrom, List.map_cons, List.pairwise_cons]
    refine ⟨fun x hx => ?_, ih (a + 1)⟩
    obtain ⟨c, hc, rfl⟩ := List.mem_map.1 hx
    have := (Memory.mem_ofBytesFrom hc).1
    show a < c.1; omega

/-- A byte sequence no longer than the buffer is a canonical buffer. -/
theorem Memory.wf_ofBytes {vs : Bytes} (h : vs.length ≤ Config.capBytes) : Memory.wf (Memory.ofBytes vs) :=
  ⟨Memory.pairwise_ofBytesFrom 0 vs, fun c hc => by have := (Memory.mem_ofBytesFrom hc).2; omega⟩

/-- The buffers of the reset state are canonical. -/
theorem reset_buffers_wf : Memory.wf State.reset.ibuf ∧ Memory.wf State.reset.obuf := ⟨Memory.wf_nil, Memory.wf_nil⟩

end Sys2Proof.Machine
end

