-- ==== Sys2Proof/Laws/Bits.lean ====
section
/-! SUPPORT. The lengths of what the conversions, the headers, the chunker and the frames give. -/

namespace Sys2Proof

@[simp] theorem u2b_length (n v : Nat) : (u2b n v).length = n := by simp [u2b]

@[simp] theorem hdrTextBits_length (len : Nat) : (hdrTextBits len).length = 27 := by simp [hdrTextBits]

@[simp] theorem hdrImageBits_length (height width : Nat) : (hdrImageBits height width).length = 27 := by
  simp [hdrImageBits]

theorem b2u_foldl (s : Bits) (a : Nat) :
    s.foldl (fun acc b => 2 * acc + b.toNat) a = a * 2 ^ s.length + b2u s := by
  induction s generalizing a with
  | nil => simp [b2u]
  | cons b s ih =>
    simp only [List.foldl_cons, List.length_cons, b2u]
    rw [ih, ih (2 * 0 + b.toNat)]
    ring

@[simp] theorem b2u_nil : b2u [] = 0 := rfl

theorem b2u_cons (b : Bool) (s : Bits) : b2u (b :: s) = b.toNat * 2 ^ s.length + b2u s := by
  rw [b2u, List.foldl_cons, b2u_foldl]; simp

theorem b2u_append (s t : Bits) : b2u (s ++ t) = b2u s * 2 ^ t.length + b2u t := by
  induction s with
  | nil => simp
  | cons b s ih => rw [List.cons_append, b2u_cons, b2u_cons, ih, List.length_append, pow_add]; ring

theorem b2u_lt (s : Bits) : b2u s < 2 ^ s.length := by
  induction s with
  | nil => simp
  | cons b s ih =>
    rw [b2u_cons, List.length_cons, pow_succ]
    cases b <;> simp <;> omega

namespace Machine

@[simp] theorem bytesToBits_nil : bytesToBits [] = [] := rfl

@[simp] theorem bytesToBits_cons (v : Byte) (B : Bytes) : bytesToBits (v :: B) = u2b 8 v.toNat ++ bytesToBits B := rfl

theorem bytesToBits_append (A B : Bytes) : bytesToBits (A ++ B) = bytesToBits A ++ bytesToBits B := by
  simp [bytesToBits]

@[simp] theorem bytesToBits_length (B : Bytes) : (bytesToBits B).length = 8 * B.length := by
  induction B with
  | nil => rfl
  | cons v B ih => simp [ih]; omega

theorem bitsToBytes_length (s : Bits) : (bitsToBytes s).length = s.length / 8 := by
  induction s using bitsToBytes.induct with
  | case1 a b c d e f g h rest ih => simp only [bitsToBytes, List.length_cons, ih]; omega
  | case2 s h =>
    match s, h with
    | [], _ => simp [bitsToBytes]
    | [_], _ => simp [bitsToBytes]
    | [_, _], _ => simp [bitsToBytes]
    | [_, _, _], _ => simp [bitsToBytes]
    | [_, _, _, _], _ => simp [bitsToBytes]
    | [_, _, _, _, _], _ => simp [bitsToBytes]
    | [_, _, _, _, _, _], _ => simp [bitsToBytes]
    | [_, _, _, _, _, _, _], _ => simp [bitsToBytes]
    | a :: b :: c :: d :: e :: f :: g :: h' :: rest, h => exact absurd rfl (h a b c d e f g h' rest)

@[simp] theorem packBits_length (s : Bits) : (packBits s).length = ceilDiv s.length 8 := by
  simp only [packBits, bitsToBytes_length, List.length_append, List.length_replicate, ceilDiv]; omega

theorem inputBytes_length {s : State} {n : Nat} {B : Bytes} (h : inputBytes s n = some B) : B.length = n :=
  Memory.readBytes_length h

theorem inputBits_length {s : State} {n : Nat} {bits : Bits} (h : inputBits s n = some bits) : bits.length = n := by
  simp only [inputBits, Option.map_eq_some_iff] at h
  obtain ⟨B, hB, rfl⟩ := h
  simp only [List.length_take, bytesToBits_length, inputBytes_length hB, ceilDiv]; omega

@[simp] theorem outputBytes_length (s : State) (n : Nat) : (outputBytes s n).length = n := by simp [outputBytes]

theorem region_length (s : Bits) : (region s).length = (s.length - 27) / 8 := by
  simp [region, bitsToBytes_length, Config.hdrBits]

@[simp] theorem chunks_length (B : Bytes) (n : Nat) : (chunks B n).length = ceilDiv B.length n := by simp [chunks]

theorem chunks_getElem? (B : Bytes) (n i : Nat) (h : i < ceilDiv B.length n) :
    (chunks B n)[i]? = some ((B.drop (i * n)).take n) := by
  simp [chunks, List.getElem?_map, List.getElem?_range h]

/-- Every chunk has 1 to `n` bytes. -/
theorem mem_chunks_length {B c : Bytes} {n : Nat} (hn : 0 < n) (h : c ∈ chunks B n) : 1 ≤ c.length ∧ c.length ≤ n := by
  simp only [chunks, List.mem_map, List.mem_range] at h
  obtain ⟨i, hi, rfl⟩ := h
  have h1 : i * n < B.length := by
    have h2 : (i + 1) * n ≤ B.length + n - 1 := (Nat.le_div_iff_mul_le hn).1 hi
    rw [Nat.add_mul] at h2; omega
  simp only [List.length_take, List.length_drop]; omega

@[simp] theorem msgBlocks_length (B : Bytes) (pad : Bool) : (msgBlocks B pad).length = ceilDiv B.length 223 := by
  cases pad <;> simp [msgBlocks, Config.messageK]

@[simp] theorem cwBlocks_length (B : Bytes) : (cwBlocks B).length = ceilDiv B.length 255 := by
  simp [cwBlocks, Config.blockN]

/-- Every message block has 1 to 223 bytes; padding fills it to 223. -/
theorem mem_msgBlocks_length {B c : Bytes} {pad : Bool} (h : c ∈ msgBlocks B pad) :
    1 ≤ c.length ∧ c.length ≤ 223 ∧ (pad = true → c.length = 223) := by
  cases pad
  · simp only [msgBlocks, Bool.false_eq_true, if_false] at h
    have := mem_chunks_length (n := Config.messageK) (by decide) h
    exact ⟨this.1, this.2, by simp⟩
  · simp only [msgBlocks, if_true, List.mem_map] at h
    obtain ⟨b, hb, rfl⟩ := h
    have := mem_chunks_length (n := Config.messageK) (by decide) hb
    simp only [padBlock, List.length_append, List.length_replicate, Config.messageK] at *
    omega

/-- Every codeword block has 1 to 255 bytes. -/
theorem mem_cwBlocks_length {B c : Bytes} (h : c ∈ cwBlocks B) : 1 ≤ c.length ∧ c.length ≤ 255 :=
  mem_chunks_length (n := Config.blockN) (by decide) h

theorem msgPrefix_length (c : Bytes) : (msgPrefix c).length = min 223 c.length := by
  simp [msgPrefix, Config.messageK]

end Machine

/-! ### The attached codec -/

/-- The attached codec's codewords fit the port. -/
theorem Config.codec_enc_length (m : Bytes) : (Config.codec.enc m).length ≤ 255 := by
  simp only [Config.codec, List.length_map, List.length_range]
  have := (Config.encLen m).isLt; omega

/-- The attached codec's messages fit the port. -/
theorem Config.codec_dec_length {c m : Bytes} (h : Config.codec.dec c = some m) : m.length ≤ 255 := by
  simp only [Config.codec] at h
  split at h
  · simp only [Option.some.injEq] at h; subst h
    simp only [List.length_map, List.length_range]
    have := (Config.decLen c).isLt; omega
  · cases h

end Sys2Proof
end

