-- ==== Sys2Proof/Laws/State.lean ====
section
/-! SUPPORT. What each named update of the state does to each field: one lemma for each, true by unfolding once. -/

namespace Sys2Proof.Machine

/-! ### clearResults -/

@[simp] theorem clearResults_ctrl (s : State) : (clearResults s).ctrl = s.ctrl := rfl
@[simp] theorem clearResults_status (s : State) : (clearResults s).status = { Status.clear with busy := s.status.busy } := rfl
@[simp] theorem clearResults_arg0 (s : State) : (clearResults s).arg0 = s.arg0 := rfl
@[simp] theorem clearResults_arg1 (s : State) : (clearResults s).arg1 = s.arg1 := rfl
@[simp] theorem clearResults_inLen (s : State) : (clearResults s).inLen = s.inLen := rfl
@[simp] theorem clearResults_outLen (s : State) : (clearResults s).outLen = 0#32 := rfl
@[simp] theorem clearResults_res0 (s : State) : (clearResults s).res0 = 0#32 := rfl
@[simp] theorem clearResults_res1 (s : State) : (clearResults s).res1 = 0#32 := rfl
@[simp] theorem clearResults_blkcnt (s : State) : (clearResults s).blkcnt = 0#32 := rfl
@[simp] theorem clearResults_failcnt (s : State) : (clearResults s).failcnt = 0#32 := rfl
@[simp] theorem clearResults_errinfo (s : State) : (clearResults s).errinfo = 0#32 := rfl
@[simp] theorem clearResults_ibuf (s : State) : (clearResults s).ibuf = s.ibuf := rfl
@[simp] theorem clearResults_obuf (s : State) : (clearResults s).obuf = s.obuf := rfl
@[simp] theorem clearResults_phase (s : State) : (clearResults s).phase = s.phase := rfl
@[simp] theorem clearResults_blk (s : State) : (clearResults s).blk = s.blk := rfl
@[simp] theorem clearResults_work (s : State) : (clearResults s).work = s.work := rfl
@[simp] theorem clearResults_answer (s : State) : (clearResults s).answer = s.answer := rfl
@[simp] theorem clearResults_events (s : State) : (clearResults s).events = s.events := rfl
@[simp] theorem clearResults_portData (s : State) : (clearResults s).portData = s.portData := rfl
@[simp] theorem clearResults_freeCount (s : State) : (clearResults s).freeCount = s.freeCount := rfl

/-! ### issue -/

@[simp] theorem issue_ctrl (op : Opcode) (s : State) : (issue op s).ctrl = s.ctrl := rfl
@[simp] theorem issue_status (op : Opcode) (s : State) : (issue op s).status = { Status.clear with busy := true } := rfl
@[simp] theorem issue_arg0 (op : Opcode) (s : State) : (issue op s).arg0 = s.arg0 := rfl
@[simp] theorem issue_arg1 (op : Opcode) (s : State) : (issue op s).arg1 = s.arg1 := rfl
@[simp] theorem issue_inLen (op : Opcode) (s : State) : (issue op s).inLen = s.inLen := rfl
@[simp] theorem issue_outLen (op : Opcode) (s : State) : (issue op s).outLen = 0#32 := rfl
@[simp] theorem issue_res0 (op : Opcode) (s : State) : (issue op s).res0 = 0#32 := rfl
@[simp] theorem issue_res1 (op : Opcode) (s : State) : (issue op s).res1 = 0#32 := rfl
@[simp] theorem issue_blkcnt (op : Opcode) (s : State) : (issue op s).blkcnt = 0#32 := rfl
@[simp] theorem issue_failcnt (op : Opcode) (s : State) : (issue op s).failcnt = 0#32 := rfl
@[simp] theorem issue_errinfo (op : Opcode) (s : State) : (issue op s).errinfo = 0#32 := rfl
@[simp] theorem issue_ibuf (op : Opcode) (s : State) : (issue op s).ibuf = s.ibuf := rfl
@[simp] theorem issue_obuf (op : Opcode) (s : State) : (issue op s).obuf = s.obuf := rfl
@[simp] theorem issue_phase (op : Opcode) (s : State) : (issue op s).phase = .hdr := rfl
@[simp] theorem issue_blk (op : Opcode) (s : State) : (issue op s).blk = 0 := rfl
@[simp] theorem issue_work (op : Opcode) (s : State) : (issue op s).work = { Work.none with op := op } := rfl
@[simp] theorem issue_answer (op : Opcode) (s : State) : (issue op s).answer = none := rfl
@[simp] theorem issue_events (op : Opcode) (s : State) : (issue op s).events = s.events := rfl
@[simp] theorem issue_portData (op : Opcode) (s : State) : (issue op s).portData = s.portData := rfl
@[simp] theorem issue_freeCount (op : Opcode) (s : State) : (issue op s).freeCount = s.freeCount := rfl

/-! ### toIdle -/

@[simp] theorem toIdle_ctrl (s : State) : (toIdle s).ctrl = s.ctrl := rfl
@[simp] theorem toIdle_status (s : State) : (toIdle s).status = s.status := rfl
@[simp] theorem toIdle_arg0 (s : State) : (toIdle s).arg0 = s.arg0 := rfl
@[simp] theorem toIdle_arg1 (s : State) : (toIdle s).arg1 = s.arg1 := rfl
@[simp] theorem toIdle_inLen (s : State) : (toIdle s).inLen = s.inLen := rfl
@[simp] theorem toIdle_outLen (s : State) : (toIdle s).outLen = s.outLen := rfl
@[simp] theorem toIdle_res0 (s : State) : (toIdle s).res0 = s.res0 := rfl
@[simp] theorem toIdle_res1 (s : State) : (toIdle s).res1 = s.res1 := rfl
@[simp] theorem toIdle_blkcnt (s : State) : (toIdle s).blkcnt = s.blkcnt := rfl
@[simp] theorem toIdle_failcnt (s : State) : (toIdle s).failcnt = s.failcnt := rfl
@[simp] theorem toIdle_errinfo (s : State) : (toIdle s).errinfo = s.errinfo := rfl
@[simp] theorem toIdle_ibuf (s : State) : (toIdle s).ibuf = s.ibuf := rfl
@[simp] theorem toIdle_obuf (s : State) : (toIdle s).obuf = s.obuf := rfl
@[simp] theorem toIdle_phase (s : State) : (toIdle s).phase = .idle := rfl
@[simp] theorem toIdle_blk (s : State) : (toIdle s).blk = 0 := rfl
@[simp] theorem toIdle_work (s : State) : (toIdle s).work = Work.none := rfl
@[simp] theorem toIdle_answer (s : State) : (toIdle s).answer = none := rfl
@[simp] theorem toIdle_events (s : State) : (toIdle s).events = s.events := rfl
@[simp] theorem toIdle_portData (s : State) : (toIdle s).portData = s.portData := rfl
@[simp] theorem toIdle_freeCount (s : State) : (toIdle s).freeCount = s.freeCount := rfl

/-! ### complete -/

@[simp] theorem complete_ctrl (s : State) : (complete s).ctrl = s.ctrl := rfl
@[simp] theorem complete_status (s : State) : (complete s).status = { s.status with busy := false, done := true } := rfl
@[simp] theorem complete_arg0 (s : State) : (complete s).arg0 = s.arg0 := rfl
@[simp] theorem complete_arg1 (s : State) : (complete s).arg1 = s.arg1 := rfl
@[simp] theorem complete_inLen (s : State) : (complete s).inLen = s.inLen := rfl
@[simp] theorem complete_outLen (s : State) : (complete s).outLen = s.outLen := rfl
@[simp] theorem complete_res0 (s : State) : (complete s).res0 = s.res0 := rfl
@[simp] theorem complete_res1 (s : State) : (complete s).res1 = s.res1 := rfl
@[simp] theorem complete_blkcnt (s : State) : (complete s).blkcnt = s.blkcnt := rfl
@[simp] theorem complete_failcnt (s : State) : (complete s).failcnt = s.failcnt := rfl
@[simp] theorem complete_errinfo (s : State) : (complete s).errinfo = s.errinfo := rfl
@[simp] theorem complete_ibuf (s : State) : (complete s).ibuf = s.ibuf := rfl
@[simp] theorem complete_obuf (s : State) : (complete s).obuf = s.obuf := rfl
@[simp] theorem complete_phase (s : State) : (complete s).phase = .idle := rfl
@[simp] theorem complete_blk (s : State) : (complete s).blk = 0 := rfl
@[simp] theorem complete_work (s : State) : (complete s).work = Work.none := rfl
@[simp] theorem complete_answer (s : State) : (complete s).answer = none := rfl
@[simp] theorem complete_events (s : State) : (complete s).events = s.events := rfl
@[simp] theorem complete_portData (s : State) : (complete s).portData = s.portData := rfl
@[simp] theorem complete_freeCount (s : State) : (complete s).freeCount = s.freeCount := rfl

/-! ### raise -/

@[simp] theorem raise_ctrl (e : ErrKind) (sub : BitVec 2) (info : Nat) (s : State) : (raise e sub info s).ctrl = s.ctrl := rfl
@[simp] theorem raise_status (e : ErrKind) (sub : BitVec 2) (info : Nat) (s : State) : (raise e sub info s).status = { busy := false, done := true, degraded := false, txe := false, ftype := 0#3, err := errCode e, errsub := sub } := rfl
@[simp] theorem raise_arg0 (e : ErrKind) (sub : BitVec 2) (info : Nat) (s : State) : (raise e sub info s).arg0 = s.arg0 := rfl
@[simp] theorem raise_arg1 (e : ErrKind) (sub : BitVec 2) (info : Nat) (s : State) : (raise e sub info s).arg1 = s.arg1 := rfl
@[simp] theorem raise_inLen (e : ErrKind) (sub : BitVec 2) (info : Nat) (s : State) : (raise e sub info s).inLen = s.inLen := rfl
@[simp] theorem raise_outLen (e : ErrKind) (sub : BitVec 2) (info : Nat) (s : State) : (raise e sub info s).outLen = 0#32 := rfl
@[simp] theorem raise_res0 (e : ErrKind) (sub : BitVec 2) (info : Nat) (s : State) : (raise e sub info s).res0 = 0#32 := rfl
@[simp] theorem raise_res1 (e : ErrKind) (sub : BitVec 2) (info : Nat) (s : State) : (raise e sub info s).res1 = 0#32 := rfl
@[simp] theorem raise_blkcnt (e : ErrKind) (sub : BitVec 2) (info : Nat) (s : State) : (raise e sub info s).blkcnt = 0#32 := rfl
@[simp] theorem raise_failcnt (e : ErrKind) (sub : BitVec 2) (info : Nat) (s : State) : (raise e sub info s).failcnt = 0#32 := rfl
@[simp] theorem raise_errinfo (e : ErrKind) (sub : BitVec 2) (info : Nat) (s : State) : (raise e sub info s).errinfo = BitVec.ofNat 32 info := rfl
@[simp] theorem raise_ibuf (e : ErrKind) (sub : BitVec 2) (info : Nat) (s : State) : (raise e sub info s).ibuf = s.ibuf := rfl
@[simp] theorem raise_obuf (e : ErrKind) (sub : BitVec 2) (info : Nat) (s : State) : (raise e sub info s).obuf = s.obuf := rfl
@[simp] theorem raise_phase (e : ErrKind) (sub : BitVec 2) (info : Nat) (s : State) : (raise e sub info s).phase = .idle := rfl
@[simp] theorem raise_blk (e : ErrKind) (sub : BitVec 2) (info : Nat) (s : State) : (raise e sub info s).blk = 0 := rfl
@[simp] theorem raise_work (e : ErrKind) (sub : BitVec 2) (info : Nat) (s : State) : (raise e sub info s).work = Work.none := rfl
@[simp] theorem raise_answer (e : ErrKind) (sub : BitVec 2) (info : Nat) (s : State) : (raise e sub info s).answer = none := rfl
@[simp] theorem raise_events (e : ErrKind) (sub : BitVec 2) (info : Nat) (s : State) : (raise e sub info s).events = s.events := rfl
@[simp] theorem raise_portData (e : ErrKind) (sub : BitVec 2) (info : Nat) (s : State) : (raise e sub info s).portData = s.portData := rfl
@[simp] theorem raise_freeCount (e : ErrKind) (sub : BitVec 2) (info : Nat) (s : State) : (raise e sub info s).freeCount = s.freeCount := rfl

/-! ### refuseIllegal -/

@[simp] theorem refuseIllegal_ctrl (w : Word) (sub : BitVec 2) (s : State) : (refuseIllegal w sub s).ctrl = s.ctrl := rfl
@[simp] theorem refuseIllegal_status (w : Word) (sub : BitVec 2) (s : State) : (refuseIllegal w sub s).status = { Status.clear with busy := s.status.busy, done := true, err := errCode .illegalCommand, errsub := sub } := rfl
@[simp] theorem refuseIllegal_arg0 (w : Word) (sub : BitVec 2) (s : State) : (refuseIllegal w sub s).arg0 = s.arg0 := rfl
@[simp] theorem refuseIllegal_arg1 (w : Word) (sub : BitVec 2) (s : State) : (refuseIllegal w sub s).arg1 = s.arg1 := rfl
@[simp] theorem refuseIllegal_inLen (w : Word) (sub : BitVec 2) (s : State) : (refuseIllegal w sub s).inLen = s.inLen := rfl
@[simp] theorem refuseIllegal_outLen (w : Word) (sub : BitVec 2) (s : State) : (refuseIllegal w sub s).outLen = 0#32 := rfl
@[simp] theorem refuseIllegal_res0 (w : Word) (sub : BitVec 2) (s : State) : (refuseIllegal w sub s).res0 = 0#32 := rfl
@[simp] theorem refuseIllegal_res1 (w : Word) (sub : BitVec 2) (s : State) : (refuseIllegal w sub s).res1 = 0#32 := rfl
@[simp] theorem refuseIllegal_blkcnt (w : Word) (sub : BitVec 2) (s : State) : (refuseIllegal w sub s).blkcnt = 0#32 := rfl
@[simp] theorem refuseIllegal_failcnt (w : Word) (sub : BitVec 2) (s : State) : (refuseIllegal w sub s).failcnt = 0#32 := rfl
@[simp] theorem refuseIllegal_errinfo (w : Word) (sub : BitVec 2) (s : State) : (refuseIllegal w sub s).errinfo = w := rfl
@[simp] theorem refuseIllegal_ibuf (w : Word) (sub : BitVec 2) (s : State) : (refuseIllegal w sub s).ibuf = s.ibuf := rfl
@[simp] theorem refuseIllegal_obuf (w : Word) (sub : BitVec 2) (s : State) : (refuseIllegal w sub s).obuf = s.obuf := rfl
@[simp] theorem refuseIllegal_phase (w : Word) (sub : BitVec 2) (s : State) : (refuseIllegal w sub s).phase = s.phase := rfl
@[simp] theorem refuseIllegal_blk (w : Word) (sub : BitVec 2) (s : State) : (refuseIllegal w sub s).blk = s.blk := rfl
@[simp] theorem refuseIllegal_work (w : Word) (sub : BitVec 2) (s : State) : (refuseIllegal w sub s).work = s.work := rfl
@[simp] theorem refuseIllegal_answer (w : Word) (sub : BitVec 2) (s : State) : (refuseIllegal w sub s).answer = s.answer := rfl
@[simp] theorem refuseIllegal_events (w : Word) (sub : BitVec 2) (s : State) : (refuseIllegal w sub s).events = s.events := rfl
@[simp] theorem refuseIllegal_portData (w : Word) (sub : BitVec 2) (s : State) : (refuseIllegal w sub s).portData = s.portData := rfl
@[simp] theorem refuseIllegal_freeCount (w : Word) (sub : BitVec 2) (s : State) : (refuseIllegal w sub s).freeCount = s.freeCount := rfl

/-! ### storeBits -/

@[simp] theorem storeBits_ctrl (bits : Bits) (s : State) : (storeBits bits s).ctrl = s.ctrl := rfl
@[simp] theorem storeBits_status (bits : Bits) (s : State) : (storeBits bits s).status = s.status := rfl
@[simp] theorem storeBits_arg0 (bits : Bits) (s : State) : (storeBits bits s).arg0 = s.arg0 := rfl
@[simp] theorem storeBits_arg1 (bits : Bits) (s : State) : (storeBits bits s).arg1 = s.arg1 := rfl
@[simp] theorem storeBits_inLen (bits : Bits) (s : State) : (storeBits bits s).inLen = s.inLen := rfl
@[simp] theorem storeBits_outLen (bits : Bits) (s : State) : (storeBits bits s).outLen = s.outLen := rfl
@[simp] theorem storeBits_res0 (bits : Bits) (s : State) : (storeBits bits s).res0 = s.res0 := rfl
@[simp] theorem storeBits_res1 (bits : Bits) (s : State) : (storeBits bits s).res1 = s.res1 := rfl
@[simp] theorem storeBits_blkcnt (bits : Bits) (s : State) : (storeBits bits s).blkcnt = s.blkcnt := rfl
@[simp] theorem storeBits_failcnt (bits : Bits) (s : State) : (storeBits bits s).failcnt = s.failcnt := rfl
@[simp] theorem storeBits_errinfo (bits : Bits) (s : State) : (storeBits bits s).errinfo = s.errinfo := rfl
@[simp] theorem storeBits_ibuf (bits : Bits) (s : State) : (storeBits bits s).ibuf = s.ibuf := rfl
@[simp] theorem storeBits_obuf (bits : Bits) (s : State) : (storeBits bits s).obuf = Memory.ofBytes (packBits bits) := rfl
@[simp] theorem storeBits_phase (bits : Bits) (s : State) : (storeBits bits s).phase = s.phase := rfl
@[simp] theorem storeBits_blk (bits : Bits) (s : State) : (storeBits bits s).blk = s.blk := rfl
@[simp] theorem storeBits_work (bits : Bits) (s : State) : (storeBits bits s).work = s.work := rfl
@[simp] theorem storeBits_answer (bits : Bits) (s : State) : (storeBits bits s).answer = s.answer := rfl
@[simp] theorem storeBits_events (bits : Bits) (s : State) : (storeBits bits s).events = s.events := rfl
@[simp] theorem storeBits_portData (bits : Bits) (s : State) : (storeBits bits s).portData = s.portData := rfl
@[simp] theorem storeBits_freeCount (bits : Bits) (s : State) : (storeBits bits s).freeCount = s.freeCount := rfl

/-! ### hardReset -/

@[simp] theorem hardReset_ctrl (s : State) : (hardReset s).ctrl = State.reset.ctrl := rfl
@[simp] theorem hardReset_status (s : State) : (hardReset s).status = State.reset.status := rfl
@[simp] theorem hardReset_arg0 (s : State) : (hardReset s).arg0 = State.reset.arg0 := rfl
@[simp] theorem hardReset_arg1 (s : State) : (hardReset s).arg1 = State.reset.arg1 := rfl
@[simp] theorem hardReset_inLen (s : State) : (hardReset s).inLen = State.reset.inLen := rfl
@[simp] theorem hardReset_outLen (s : State) : (hardReset s).outLen = State.reset.outLen := rfl
@[simp] theorem hardReset_res0 (s : State) : (hardReset s).res0 = State.reset.res0 := rfl
@[simp] theorem hardReset_res1 (s : State) : (hardReset s).res1 = State.reset.res1 := rfl
@[simp] theorem hardReset_blkcnt (s : State) : (hardReset s).blkcnt = State.reset.blkcnt := rfl
@[simp] theorem hardReset_failcnt (s : State) : (hardReset s).failcnt = State.reset.failcnt := rfl
@[simp] theorem hardReset_errinfo (s : State) : (hardReset s).errinfo = State.reset.errinfo := rfl
@[simp] theorem hardReset_ibuf (s : State) : (hardReset s).ibuf = State.reset.ibuf := rfl
@[simp] theorem hardReset_obuf (s : State) : (hardReset s).obuf = State.reset.obuf := rfl
@[simp] theorem hardReset_phase (s : State) : (hardReset s).phase = State.reset.phase := rfl
@[simp] theorem hardReset_blk (s : State) : (hardReset s).blk = State.reset.blk := rfl
@[simp] theorem hardReset_work (s : State) : (hardReset s).work = State.reset.work := rfl
@[simp] theorem hardReset_answer (s : State) : (hardReset s).answer = State.reset.answer := rfl
@[simp] theorem hardReset_events (s : State) : (hardReset s).events = s.events := rfl
@[simp] theorem hardReset_portData (s : State) : (hardReset s).portData = s.portData := rfl
@[simp] theorem hardReset_freeCount (s : State) : (hardReset s).freeCount = s.freeCount := rfl

/-! ### enterBlocks -/

@[simp] theorem enterBlocks_ctrl (s : State) : (enterBlocks s).ctrl = s.ctrl := rfl
@[simp] theorem enterBlocks_status (s : State) : (enterBlocks s).status = s.status := rfl
@[simp] theorem enterBlocks_arg0 (s : State) : (enterBlocks s).arg0 = s.arg0 := rfl
@[simp] theorem enterBlocks_arg1 (s : State) : (enterBlocks s).arg1 = s.arg1 := rfl
@[simp] theorem enterBlocks_inLen (s : State) : (enterBlocks s).inLen = s.inLen := rfl
@[simp] theorem enterBlocks_outLen (s : State) : (enterBlocks s).outLen = s.outLen := rfl
@[simp] theorem enterBlocks_res0 (s : State) : (enterBlocks s).res0 = s.res0 := rfl
@[simp] theorem enterBlocks_res1 (s : State) : (enterBlocks s).res1 = s.res1 := rfl
@[simp] theorem enterBlocks_blkcnt (s : State) : (enterBlocks s).blkcnt = s.blkcnt := rfl
@[simp] theorem enterBlocks_failcnt (s : State) : (enterBlocks s).failcnt = s.failcnt := rfl
@[simp] theorem enterBlocks_errinfo (s : State) : (enterBlocks s).errinfo = s.errinfo := rfl
@[simp] theorem enterBlocks_ibuf (s : State) : (enterBlocks s).ibuf = s.ibuf := rfl
@[simp] theorem enterBlocks_obuf (s : State) : (enterBlocks s).obuf = s.obuf := rfl
@[simp] theorem enterBlocks_phase (s : State) : (enterBlocks s).phase = if 0 < s.work.nblk then Phase.block else Phase.fin := rfl
@[simp] theorem enterBlocks_blk (s : State) : (enterBlocks s).blk = 0 := rfl
@[simp] theorem enterBlocks_work (s : State) : (enterBlocks s).work = s.work := rfl
@[simp] theorem enterBlocks_answer (s : State) : (enterBlocks s).answer = s.answer := rfl
@[simp] theorem enterBlocks_events (s : State) : (enterBlocks s).events = s.events := rfl
@[simp] theorem enterBlocks_portData (s : State) : (enterBlocks s).portData = s.portData := rfl
@[simp] theorem enterBlocks_freeCount (s : State) : (enterBlocks s).freeCount = s.freeCount := rfl

/-! ### advance -/

@[simp] theorem advance_ctrl (s : State) : (advance s).ctrl = s.ctrl := by unfold advance; split <;> rfl
@[simp] theorem advance_status (s : State) : (advance s).status = s.status := by unfold advance; split <;> rfl
@[simp] theorem advance_arg0 (s : State) : (advance s).arg0 = s.arg0 := by unfold advance; split <;> rfl
@[simp] theorem advance_arg1 (s : State) : (advance s).arg1 = s.arg1 := by unfold advance; split <;> rfl
@[simp] theorem advance_inLen (s : State) : (advance s).inLen = s.inLen := by unfold advance; split <;> rfl
@[simp] theorem advance_outLen (s : State) : (advance s).outLen = s.outLen := by unfold advance; split <;> rfl
@[simp] theorem advance_res0 (s : State) : (advance s).res0 = s.res0 := by unfold advance; split <;> rfl
@[simp] theorem advance_res1 (s : State) : (advance s).res1 = s.res1 := by unfold advance; split <;> rfl
@[simp] theorem advance_blkcnt (s : State) : (advance s).blkcnt = s.blkcnt := by unfold advance; split <;> rfl
@[simp] theorem advance_failcnt (s : State) : (advance s).failcnt = s.failcnt := by unfold advance; split <;> rfl
@[simp] theorem advance_errinfo (s : State) : (advance s).errinfo = s.errinfo := by unfold advance; split <;> rfl
@[simp] theorem advance_ibuf (s : State) : (advance s).ibuf = s.ibuf := by unfold advance; split <;> rfl
@[simp] theorem advance_obuf (s : State) : (advance s).obuf = s.obuf := by unfold advance; split <;> rfl
@[simp] theorem advance_phase (s : State) : (advance s).phase = if s.blk + 1 < s.work.nblk then Phase.block else Phase.fin := by unfold advance; split <;> rfl
@[simp] theorem advance_blk (s : State) : (advance s).blk = if s.blk + 1 < s.work.nblk then s.blk + 1 else s.work.nblk := by unfold advance; split <;> rfl
@[simp] theorem advance_work (s : State) : (advance s).work = s.work := by unfold advance; split <;> rfl
@[simp] theorem advance_answer (s : State) : (advance s).answer = none := by unfold advance; split <;> rfl
@[simp] theorem advance_events (s : State) : (advance s).events = s.events := by unfold advance; split <;> rfl
@[simp] theorem advance_portData (s : State) : (advance s).portData = s.portData := by unfold advance; split <;> rfl
@[simp] theorem advance_freeCount (s : State) : (advance s).freeCount = s.freeCount := by unfold advance; split <;> rfl

end Sys2Proof.Machine
end

