-- ==== Sys2Proof/Laws/Sequencer.lean ====
section
/-! SUPPORT. What one round of codec and engine does, and what a run of rounds does to a frame being encoded or decoded: the
loops of `ENCT`, `ENCI`, `DEC` and `RAW` in closed form, for every codec. -/

namespace Sys2Proof.Machine

/-! ### Outcomes -/

@[simp] theorem andThen_next (s : State) (f : State → Result) : andThen (.next s) f = f s := rfl

@[simp] theorem andThen_fault (e : Fault) (f : State → Result) : andThen (.fault e) f = .fault e := rfl

@[simp] theorem andThen_refused (e : Refusal) (f : State → Result) : andThen (.refused e) f = .refused e := rfl

@[simp] theorem andThen_return (r : Result) : andThen r (fun s => .next s) = r := by cases r <;> rfl

/-- A sequence ends in a next state exactly through a next state in between. -/
theorem andThen_eq_next {r : Result} {f : State → Result} {t : State} (h : andThen r f = .next t) :
    ∃ u, r = .next u ∧ f u = .next t := by
  cases r with
  | next u => exact ⟨u, rfl, h⟩
  | fault e => cases h
  | refused e => cases h

/-! ### The input of a running command -/

/-- The codeword blocks depend on the input alone. -/
theorem codewordBlocks_congr {s t : State} (h1 : t.ibuf = s.ibuf) (h2 : t.inLen = s.inLen) :
    codewordBlocks t = codewordBlocks s := by simp [codewordBlocks, inputBits, inputBytes, h1, h2]

/-- The message blocks of `ENCT` depend on the input alone. -/
theorem textBlocks_congr {s t : State} (h1 : t.ibuf = s.ibuf) (h2 : t.inLen = s.inLen) : textBlocks t = textBlocks s := by
  simp [textBlocks, inputBytes, h1, h2]

/-- The message blocks of `ENCI` depend on the input alone. -/
theorem imageBlocks_congr {s t : State} (h1 : t.ibuf = s.ibuf) (h2 : t.inLen = s.inLen) : imageBlocks t = imageBlocks s := by
  simp [imageBlocks, inputBytes, h1, h2]

/-- A codec turn changes the waiting answer and nothing else. -/
theorem codecTurn_eq (k : Codec) (s : State) : ∃ a, codecTurn k s = { s with answer := a } := by
  unfold codecTurn
  split
  · exact ⟨s.answer, rfl⟩
  · split
    · exact ⟨_, rfl⟩
    · exact ⟨s.answer, rfl⟩

/-- With no request outstanding the codec does nothing. -/
theorem codecTurn_of_no_request {k : Codec} {s : State} (h : codecRequest s = none) : codecTurn k s = s := by
  unfold codecTurn
  split
  · rfl
  · rw [h]

/-- With a request outstanding and no answer yet the codec answers it. -/
theorem codecTurn_of_request {k : Codec} {s : State} {r : CodecRequest} (h : codecRequest s = some r)
    (ha : s.answer = none) : codecTurn k s = { s with answer := some (codecRespond k r) } := by
  unfold codecTurn; rw [ha, h]

theorem codecRequest_of_phase {s : State} (h : s.phase ≠ .block) : codecRequest s = none := by
  unfold codecRequest; split
  · contradiction
  · rfl

/-! ### Encoding -/

/-- The run of an encoder from a block on: every codeword is appended in order, then the command finishes. -/
theorem encode_run (k : Codec) (p : Phases) (hp : p.block = appendCodeword) (rest : List Bytes) :
    ∀ (pre : List Bytes) (s : State),
      (∀ t : State, t.ibuf = s.ibuf → t.inLen = s.inLen → t.work.op = s.work.op → t.phase = .block →
        codecRequest t = ((pre ++ rest)[t.blk]?).map encodeRequest) →
      s.work.nblk = pre.length + rest.length → s.blk = pre.length → s.answer = none →
      s.phase = (if rest = [] then .fin else .block) →
      27 + 8 * (s.work.acc + ((rest.map k.enc).flatten).length) ≤ Config.capBits →
      runPhases k p (rest.length + 1) s = p.fin { s with
        phase := .fin, blk := s.work.nblk, answer := none
        work := { s.work with
          acc := s.work.acc + ((rest.map k.enc).flatten).length
          out := s.work.out ++ bytesToBits (rest.map k.enc).flatten } } := by
  induction rest with
  | nil =>
    intro pre s _ hn hb ha hph _
    rw [if_pos rfl] at hph
    have hreq : codecRequest s = none := codecRequest_of_phase (by rw [hph]; decide)
    simp only [List.length_nil, Nat.add_zero] at hn
    simp only [List.length_nil, runPhases, hph, codecTurn_of_no_request hreq, phaseStep, reduceCtorEq, if_false,
      andThen_return, List.map_nil, List.flatten_nil, bytesToBits_nil, List.append_nil, Nat.add_zero]
    congr 1
    apply State.ext <;> simp [hph, hb, hn, ha]
    apply Work.ext <;> simp [hn]
  | cons b rest ih =>
    intro pre s hreq hn hb ha hph hfit
    rw [if_neg (by simp)] at hph
    have hr : codecRequest s = some (encodeRequest b) := by
      rw [hreq s rfl rfl rfl hph, hb]; simp
    rw [runPhases, if_neg (by rw [hph]; decide), codecTurn_of_request hr ha]
    have hresp : codecRespond k (encodeRequest b) = { ok := true, data := k.enc b } := by
      simp [codecRespond, encodeRequest]
    rw [phaseStep, hresp]
    simp only [hph, hp]
    simp only [appendCodeword]
    simp only [List.map_cons, List.flatten_cons, List.length_append, List.length_cons] at hfit hn
    rw [if_neg (by simp only [Config.hdrBits]; omega), andThen_next]
    rw [show (b :: rest).length = rest.length + 1 from rfl, ih (pre ++ [b])]
    · congr 1
      apply State.ext <;> simp [bytesToBits_append, Nat.add_assoc]
    · intro t h1 h2 h3 h4
      rw [List.append_assoc]
      exact hreq t (by simpa using h1) (by simpa using h2) (by simpa using h3) h4
    · simp only [advance_work, List.length_append, List.length_cons, List.length_nil, hn]; omega
    · simp only [advance_blk, hn, hb, List.length_append, List.length_cons, List.length_nil]
      split <;> omega
    · simp
    · simp only [advance_phase, hn, hb]
      cases rest with
      | nil => simp
      | cons c rest => simp
    · simp only [advance_work]; omega

/-! ### Decoding -/

theorem Memory.setBytes_append (m : List Host.Cell) (a : Nat) (x y : Bytes) :
    Memory.setBytes m a (x ++ y) = Memory.setBytes (Memory.setBytes m a x) (a + x.length) y := by
  induction x generalizing m a with
  | nil => rfl
  | cons v x ih =>
    simp only [List.cons_append, Memory.setBytes, ih, List.length_cons]
    rw [show a + 1 + x.length = a + (x.length + 1) by omega]

/-- The step of one block with a piece that fits: it is appended and the engine goes on. -/
theorem appendPiece_fits {piece : Bytes} {s : State} (h : s.work.acc + piece.length ≤ Config.capBytes) :
    appendPiece piece s = .next (advance { s with
      obuf := Memory.setBytes s.obuf s.work.acc piece
      work := { s.work with acc := s.work.acc + piece.length } }) := by
  rw [appendPiece, if_neg (by omega)]

/-- A piece that would pass the end of `OBUF` aborts (44_decoder.md R212). -/
theorem appendPiece_overflows {piece : Bytes} {s : State} (h : Config.capBytes < s.work.acc + piece.length) :
    appendPiece piece s = .next (raise .operand 0#2 s.inLen.toNat s) := by rw [appendPiece, if_pos h]

/-- One block of `DEC` that does not abort: the piece is the corrected message or the prefix, and a failure is counted. -/
theorem blockDec_round {k : Codec} {s : State} {c : Bytes} (hph : s.phase = .block) (hop : s.work.op = .dec)
    (ha : s.answer = none) (hc : blockAt (codewordBlocks s) s.blk = some c) (hf : s.ctrl.fben = true ∨ k.dec c ≠ none) :
    blockDec (codecTurn k s) = appendPiece ((k.dec c).getD (msgPrefix c))
      { s with
        answer := some (codecRespond k (decodeRequest c))
        work := { s.work with nfail := s.work.nfail + (if (k.dec c).isNone then 1 else 0) } } := by
  have hr : codecRequest s = some (decodeRequest c) := by simp [codecRequest, hph, hop, hc]
  rw [codecTurn_of_request hr ha]
  have hc' : blockAt (codewordBlocks { s with answer := some (codecRespond k (decodeRequest c)) }) s.blk = some c := hc
  cases hd : k.dec c with
  | some m =>
    have : codecRespond k (decodeRequest c) = { ok := true, data := m } := by
      simp [codecRespond, decodeRequest, hd]
    simp [blockDec, this]
  | none =>
    have hf : s.ctrl.fben = true := hf.resolve_right (fun h => h hd)
    have hresp : codecRespond k (decodeRequest c) = { ok := false, data := [] } := by
      simp [codecRespond, decodeRequest, hd]
    rw [hresp] at hc'
    simp [blockDec, hresp, hf, hc']

/-- One block of `DEC` with `FBEN = 0` that the codec fails on aborts with its index (44_decoder.md R209). -/
theorem blockDec_strict {k : Codec} {s : State} {c : Bytes} (hph : s.phase = .block) (hop : s.work.op = .dec)
    (ha : s.answer = none) (hc : blockAt (codewordBlocks s) s.blk = some c) (hf : s.ctrl.fben = false) (hd : k.dec c = none) :
    blockDec (codecTurn k s) = .next (raise .uncorrectableBlock 0#2 s.blk s) := by
  have hr : codecRequest s = some (decodeRequest c) := by simp [codecRequest, hph, hop, hc]
  have hresp : codecRespond k (decodeRequest c) = { ok := false, data := [] } := by simp [codecRespond, decodeRequest, hd]
  rw [codecTurn_of_request hr ha]
  simp only [blockDec, hresp, hf, Bool.false_eq_true, if_false]
  rfl

theorem decodedBytes_append (k : Codec) (as bs : List Bytes) :
    decodedBytes k (as ++ bs) = decodedBytes k as ++ decodedBytes k bs := by simp [decodedBytes]

/-- A run that has reached IDLE stays there. -/
theorem runPhases_of_idle {k : Codec} {p : Phases} {s : State} (h : s.phase = .idle) (n : Nat) :
    runPhases k p n s = .next s := by cases n <;> simp [runPhases, h]

/-- One round of `DEC` at a block is the block's step on the state after the codec's turn. -/
theorem decode_round {k : Codec} {s : State} (hph : s.phase = .block) (n : Nat) :
    runPhases k decPhases (n + 1) s = andThen (blockDec (codecTurn k s)) (runPhases k decPhases n) := by
  have hphase : (codecTurn k s).phase = .block := by
    obtain ⟨a, h⟩ := codecTurn_eq k s; rw [h]; exact hph
  rw [runPhases, if_neg (by rw [hph]; decide), phaseStep, hphase]
  rfl

/-- The run of `DEC` over blocks none of which aborts: their pieces are appended in order. -/
theorem decode_prefix (k : Codec) (later : List Bytes) (n : Nat) (done : List Bytes) :
    ∀ (pre : List Bytes) (s : State), codewordBlocks s = some (pre ++ (done ++ later)) → s.work.op = .dec →
      (s.ctrl.fben = true ∨ ∀ c ∈ done, k.dec c ≠ none) →
      s.work.nblk = pre.length + (done.length + later.length) → s.blk = pre.length → s.answer = none →
      s.phase = (if done ++ later = [] then .fin else .block) →
      s.work.acc + (decodedBytes k done).length ≤ Config.capBytes →
      runPhases k decPhases (done.length + n) s = runPhases k decPhases n { s with
        phase := if later = [] then .fin else .block, blk := pre.length + done.length, answer := none
        obuf := Memory.setBytes s.obuf s.work.acc (decodedBytes k done)
        work := { s.work with
          acc := s.work.acc + (decodedBytes k done).length, nfail := s.work.nfail + failedBlocks k done } } := by
  induction done with
  | nil =>
    intro pre s _ _ _ _ hb ha hph _
    simp only [List.length_nil, Nat.zero_add]
    congr 1
    apply State.ext <;> simp [hph, hb, ha, decodedBytes, failedBlocks, Memory.setBytes]
  | cons c done ih =>
    intro pre s hcs hop hf hn hb ha hph hfit
    rw [if_neg (by simp)] at hph
    have hc : blockAt (codewordBlocks s) s.blk = some c := by rw [hcs, hb]; simp [blockAt]
    simp only [decodedBytes, List.map_cons, List.flatten_cons, List.length_append] at hfit
    simp only [List.length_cons] at hn
    rw [show (c :: done).length + n = (done.length + n) + 1 by simp only [List.length_cons]; omega, decode_round hph,
      blockDec_round hph hop ha hc (hf.imp_right fun h => h c (by simp)),
      appendPiece_fits (by simp only; omega), andThen_next, ih (pre ++ [c])]
    · congr 1
      apply State.ext <;> simp only [advance_ctrl, advance_status, advance_arg0, advance_arg1, advance_inLen, advance_outLen,
        advance_res0, advance_res1, advance_blkcnt, advance_failcnt, advance_errinfo, advance_ibuf, advance_obuf, advance_work,
        advance_events, advance_portData, advance_freeCount]
      · simp [decodedBytes, Memory.setBytes_append]
      · simp only [List.length_append, List.length_cons, List.length_nil]; omega
      · cases hd : k.dec c <;> simp [decodedBytes, failedBlocks, hd, Nat.add_assoc, Nat.add_comm 1]
    · rw [List.append_assoc, codewordBlocks_congr (s := s) (by simp) (by simp)]; exact hcs
    · simpa using hop
    · simpa using hf.imp_right fun h d hd => h d (by simp [hd])
    · simp only [advance_work, List.length_append, List.length_cons, List.length_nil, hn]; omega
    · simp only [advance_blk, hn, hb, List.length_append, List.length_cons, List.length_nil]
      split <;> omega
    · simp
    · simp only [advance_phase, hn, hb]
      cases done with
      | nil => cases later with
        | nil => simp
        | cons d later => simp
      | cons d done => simp; omega
    · simp only [advance_work, decodedBytes]; omega

/-- The run of `DEC` from a block on, where no block aborts: every piece is appended in order, then the command finishes. -/
theorem decode_run (k : Codec) (rest pre : List Bytes) (s : State) (hcs : codewordBlocks s = some (pre ++ rest))
    (hop : s.work.op = .dec) (hf : s.ctrl.fben = true ∨ ∀ c ∈ rest, k.dec c ≠ none)
    (hn : s.work.nblk = pre.length + rest.length) (hb : s.blk = pre.length) (ha : s.answer = none)
    (hph : s.phase = (if rest = [] then .fin else .block))
    (hfit : s.work.acc + (decodedBytes k rest).length ≤ Config.capBytes) :
    runPhases k decPhases (rest.length + 1) s = finDec { s with
        phase := .fin, blk := s.work.nblk, answer := none
        obuf := Memory.setBytes s.obuf s.work.acc (decodedBytes k rest)
        work := { s.work with
          acc := s.work.acc + (decodedBytes k rest).length, nfail := s.work.nfail + failedBlocks k rest } } := by
  rw [decode_prefix k [] 1 rest pre s (by simpa using hcs) hop hf (by simpa using hn) hb ha (by simpa using hph) hfit]
  have hfin : ∀ t : State, t.phase = .fin → runPhases k decPhases 1 t = finDec t := fun t ht => by
    have hreq : codecRequest t = none := codecRequest_of_phase (by rw [ht]; decide)
    simp only [runPhases, ht, codecTurn_of_no_request hreq, phaseStep, reduceCtorEq, if_false, andThen_return, decPhases]
  rw [hfin _ (by simp)]
  simp only [hn, if_true]

/-- The run of `DEC` up to a block that aborts the command: what was there before is what the abort leaves but for `OBUF`. -/
theorem decode_aborts {k : Codec} {done later : List Bytes} {c : Bytes} {pre : List Bytes} {s : State} {e : ErrKind}
    {info : Nat} (hcs : codewordBlocks s = some (pre ++ (done ++ c :: later))) (hop : s.work.op = .dec)
    (hf : s.ctrl.fben = true ∨ ∀ d ∈ done, k.dec d ≠ none)
    (hn : s.work.nblk = pre.length + (done.length + (later.length + 1))) (hb : s.blk = pre.length) (ha : s.answer = none)
    (hph : s.phase = .block) (hfit : s.work.acc + (decodedBytes k done).length ≤ Config.capBytes)
    (habort : ∀ u : State, u.phase = .block → u.work.op = .dec → u.answer = none → u.ctrl = s.ctrl → u.inLen = s.inLen →
      u.blk = pre.length + done.length → u.work.acc = s.work.acc + (decodedBytes k done).length →
      blockAt (codewordBlocks u) u.blk = some c →
      blockDec (codecTurn k u) = .next (raise e 0#2 info u)) (n : Nat) :
    ∃ ob : List Host.Cell, runPhases k decPhases (done.length + (n + 1)) s = .next (raise e 0#2 info { s with obuf := ob }) := by
  rw [decode_prefix k (c :: later) (n + 1) done pre s hcs hop hf (by simpa using hn) hb ha (by simpa using hph) hfit,
    decode_round (by simp), if_neg (by simp)]
  have hstep := habort { s with
    phase := .block, blk := pre.length + done.length, answer := none
    obuf := Memory.setBytes s.obuf s.work.acc (decodedBytes k done)
    work := { s.work with
      acc := s.work.acc + (decodedBytes k done).length
      nfail := s.work.nfail + failedBlocks k done } } rfl hop rfl rfl rfl rfl rfl
    (by show blockAt (codewordBlocks s) (pre.length + done.length) = some c; rw [hcs]; simp [blockAt])
  exact ⟨_, (congrArg (andThen · _) hstep).trans (runPhases_of_idle rfl n)⟩

/-- With `FBEN = 0` the first block the codec fails on aborts `DEC` with its index (44_decoder.md R209). -/
theorem decode_strict {k : Codec} {done later : List Bytes} {c : Bytes} {pre : List Bytes} {s : State}
    (hcs : codewordBlocks s = some (pre ++ (done ++ c :: later))) (hop : s.work.op = .dec) (hf : s.ctrl.fben = false)
    (hdone : ∀ d ∈ done, k.dec d ≠ none) (hc : k.dec c = none)
    (hn : s.work.nblk = pre.length + (done.length + (later.length + 1))) (hb : s.blk = pre.length) (ha : s.answer = none)
    (hph : s.phase = .block) (hfit : s.work.acc + (decodedBytes k done).length ≤ Config.capBytes) (n : Nat) :
    ∃ ob : List Host.Cell, runPhases k decPhases (done.length + (n + 1)) s =
      .next (raise .uncorrectableBlock 0#2 (pre.length + done.length) { s with obuf := ob }) :=
  decode_aborts hcs hop (.inr hdone) hn hb ha hph hfit (fun u hu1 hu2 hu3 hu4 _ hu6 _ hu8 =>
    by rw [blockDec_strict hu1 hu2 hu3 hu8 (by rw [hu4]; exact hf) hc, hu6]) n

/-- The first block whose piece would pass the end of `OBUF` aborts `DEC` (44_decoder.md R212, 42_codec.md R171). -/
theorem decode_overflow {k : Codec} {done later : List Bytes} {c : Bytes} {pre : List Bytes} {s : State}
    (hcs : codewordBlocks s = some (pre ++ (done ++ c :: later))) (hop : s.work.op = .dec)
    (hf : s.ctrl.fben = true ∨ ∀ d ∈ done ++ [c], k.dec d ≠ none)
    (hn : s.work.nblk = pre.length + (done.length + (later.length + 1))) (hb : s.blk = pre.length) (ha : s.answer = none)
    (hph : s.phase = .block) (hfit : s.work.acc + (decodedBytes k done).length ≤ Config.capBytes)
    (hover : Config.capBytes < s.work.acc + (decodedBytes k (done ++ [c])).length) (n : Nat) :
    ∃ ob : List Host.Cell, runPhases k decPhases (done.length + (n + 1)) s =
      .next (raise .operand 0#2 s.inLen.toNat { s with obuf := ob }) :=
  decode_aborts hcs hop (hf.imp_right fun h d hd => h d (by simp [hd])) hn hb ha hph hfit
    (fun u hu1 hu2 hu3 hu4 hu5 _ hu7 hu8 => by
      rw [blockDec_round hu1 hu2 hu3 hu8 (by rw [hu4]; exact hf.imp_right fun h => h c (by simp)),
        appendPiece_overflows (by
          simp only [decodedBytes_append, List.length_append] at hover
          simp only [hu7, decodedBytes, List.map_cons, List.map_nil, List.flatten_cons, List.flatten_nil, List.append_nil] at hover ⊢
          omega)]
      rw [← hu5]; rfl) n

/-- Pieces that do not all fit are split at the first that does not. -/
theorem exists_overflow_split {k : Codec} {acc : Nat} {cs : List Bytes} (h0 : acc ≤ Config.capBytes)
    (h : Config.capBytes < acc + (decodedBytes k cs).length) :
    ∃ done c later, cs = done ++ c :: later ∧ acc + (decodedBytes k done).length ≤ Config.capBytes ∧
      Config.capBytes < acc + (decodedBytes k (done ++ [c])).length := by
  induction cs generalizing acc with
  | nil => simp only [decodedBytes, List.map_nil, List.flatten_nil, List.length_nil] at h; omega
  | cons c cs ih =>
    by_cases hc : Config.capBytes < acc + (decodedBytes k [c]).length
    · exact ⟨[], c, cs, rfl, by simpa [decodedBytes] using h0, by simpa using hc⟩
    · have happ : ∀ x : List Bytes, (decodedBytes k (c :: x)).length = (decodedBytes k [c]).length + (decodedBytes k x).length := by
        intro x; rw [← List.length_append, ← decodedBytes_append]; rfl
      obtain ⟨done, d, later, rfl, h1, h2⟩ := ih (acc := acc + (decodedBytes k [c]).length) (by omega)
        (by rw [happ] at h; omega)
      refine ⟨c :: done, d, later, rfl, ?_, ?_⟩
      · rw [happ]; omega
      · rw [List.cons_append, happ]; omega

/-- The pieces of codecs whose answers fit the port fit 255 bytes a block (30_encoding.md R104). -/
theorem decodedBytes_length_le {k : Codec} (hk : k.FitsPort) (cs : List Bytes) :
    (decodedBytes k cs).length ≤ 255 * cs.length := by
  induction cs with
  | nil => simp [decodedBytes]
  | cons c cs ih =>
    have hc : ((k.dec c).getD (msgPrefix c)).length ≤ 255 := by
      cases hd : k.dec c with
      | some m => exact hk.2 c m hd
      | none => simp only [Option.getD_none, msgPrefix_length]; omega
    simp only [decodedBytes, List.map_cons, List.flatten_cons, List.length_append, List.length_cons] at ih ⊢
    omega

/-- The run of `RAW` from a block on: every prefix is appended in order, then the command finishes; no codec is asked. -/
theorem raw_run (k : Codec) (rest : List Bytes) :
    ∀ (pre : List Bytes) (s : State), codewordBlocks s = some (pre ++ rest) → s.work.op = .raw →
      s.work.nblk = pre.length + rest.length → s.blk = pre.length → s.answer = none →
      s.phase = (if rest = [] then .fin else .block) →
      s.work.acc + (rawBytes rest).length ≤ Config.capBytes →
      runPhases k rawPhases (rest.length + 1) s = finRaw { s with
        phase := .fin, blk := s.work.nblk, answer := none
        obuf := Memory.setBytes s.obuf s.work.acc (rawBytes rest)
        work := { s.work with acc := s.work.acc + (rawBytes rest).length } } := by
  induction rest with
  | nil =>
    intro pre s _ _ hn hb ha hph _
    rw [if_pos rfl] at hph
    have hreq : codecRequest s = none := codecRequest_of_phase (by rw [hph]; decide)
    simp only [List.length_nil, Nat.add_zero] at hn
    simp only [List.length_nil, runPhases, hph, codecTurn_of_no_request hreq, phaseStep, reduceCtorEq, if_false,
      andThen_return, rawPhases, rawBytes, List.map_nil, List.flatten_nil, List.length_nil, Memory.setBytes, Nat.add_zero]
    congr 1
    apply State.ext <;> simp [hph, hb, hn, ha]
    apply Work.ext <;> simp [hn]
  | cons c rest ih =>
    intro pre s hcs hop hn hb ha hph hfit
    rw [if_neg (by simp)] at hph
    have hc : blockAt (codewordBlocks s) s.blk = some c := by rw [hcs, hb]; simp [blockAt]
    have hr : codecRequest s = none := by simp [codecRequest, hph, hop]
    rw [runPhases, if_neg (by rw [hph]; decide), codecTurn_of_no_request hr, phaseStep, hph]
    simp only [rawPhases, blockRaw, hc]
    simp only [rawBytes, List.map_cons, List.flatten_cons, List.length_append] at hfit
    rw [appendPiece_fits (by omega), andThen_next]
    simp only [List.length_cons] at hn
    rw [← rawPhases, show (c :: rest).length = rest.length + 1 from rfl, ih (pre ++ [c])]
    · congr 1
      apply State.ext <;> simp [rawBytes, Memory.setBytes_append, Nat.add_assoc]
    · rw [List.append_assoc, codewordBlocks_congr (s := s) (by simp) (by simp)]; exact hcs
    · simpa using hop
    · simp only [advance_work, List.length_append, List.length_cons, List.length_nil, hn]; omega
    · simp only [advance_blk, hn, hb, List.length_append, List.length_cons, List.length_nil]
      split <;> omega
    · simp [ha]
    · simp only [advance_phase, hn, hb]
      cases rest with
      | nil => simp
      | cons d rest => simp
    · simp only [advance_work, rawBytes]; omega

end Sys2Proof.Machine
end

