-- ==== Sys2Proof/Laws/Steps.lean ====
section
/-! SUPPORT. What each shared operation of a command can answer, said once: one inversion lemma for each, one for the engine's
step, and the induction that carries a property from the issue of a command to its end. -/

namespace Sys2Proof.Machine

/-! ### Phase HDR -/

/-- The region checks of `DEC` and `RAW` abort, or count the blocks and go to the first. -/
theorem enterRegion_cases {s t : State} (h : enterRegion s = .next t) :
    (∃ sub, t = raise .bitstreamLength sub s.inLen.toNat s) ∨
    ∃ cs, codewordBlocks s = some cs ∧ (s.inLen.toNat - 27) % 8 = 0 ∧ payloadLen s.work ≤ (s.inLen.toNat - 27) / 8 ∧
      t = enterBlocks { s with work := { s.work with nblk := cs.length, acc := 0, nfail := 0 } } := by
  unfold enterRegion at h
  by_cases h1 : (s.inLen.toNat - Config.hdrBits) % 8 ≠ 0
  · rw [if_pos h1] at h; exact .inl ⟨_, by cases h; rfl⟩
  · rw [if_neg h1] at h
    by_cases h2 : (s.inLen.toNat - Config.hdrBits) / 8 < payloadLen s.work
    · rw [if_pos h2] at h; exact .inl ⟨_, by cases h; rfl⟩
    · rw [if_neg h2] at h
      split at h
      · cases h
      · rename_i cs hcs
        exact .inr ⟨cs, hcs, not_ne_iff.1 h1, Nat.le_of_not_lt h2, by cases h; rfl⟩

/-- A wire header does nothing, delivers itself to `HUNP`, or opens the region for `DEC` and `RAW`. -/
theorem execHdrText_cases {len : Nat} {s t : State} (h : execHdrText len s = .next t) :
    (t = s ∧ (s.phase ≠ .hdr ∨ (s.work.op ≠ .hunp ∧ s.work.op ≠ .dec ∧ s.work.op ≠ .raw))) ∨
    (s.phase = .hdr ∧ s.work.op = .hunp ∧ t = headerResults 0#3 len 0 s) ∨
    (s.phase = .hdr ∧ (s.work.op = .dec ∨ s.work.op = .raw) ∧ enterRegion (setHeader 0#3 len 0 0 s) = .next t) := by
  unfold execHdrText at h
  split at h
  · rename_i hp ho; exact .inr (.inl ⟨hp, ho, by cases h; rfl⟩)
  · rename_i hp ho; exact .inr (.inr ⟨hp, .inl ho, h⟩)
  · rename_i hp ho; exact .inr (.inr ⟨hp, .inr ho, h⟩)
  · rename_i h1 h2 h3
    refine .inl ⟨by cases h; rfl, ?_⟩
    by_cases hp : s.phase = .hdr
    · exact .inr ⟨fun ho => h1 hp ho, fun ho => h2 hp ho, fun ho => h3 hp ho⟩
    · exact .inl hp

/-- The same for the header of an image frame. -/
theorem execHdrImage_cases {height width : Nat} {s t : State} (h : execHdrImage height width s = .next t) :
    (t = s ∧ (s.phase ≠ .hdr ∨ (s.work.op ≠ .hunp ∧ s.work.op ≠ .dec ∧ s.work.op ≠ .raw))) ∨
    (s.phase = .hdr ∧ s.work.op = .hunp ∧ t = headerResults 1#3 height width s) ∨
    (s.phase = .hdr ∧ (s.work.op = .dec ∨ s.work.op = .raw) ∧ enterRegion (setHeader 1#3 0 height width s) = .next t) := by
  unfold execHdrImage at h
  split at h
  · rename_i hp ho; exact .inr (.inl ⟨hp, ho, by cases h; rfl⟩)
  · rename_i hp ho; exact .inr (.inr ⟨hp, .inl ho, h⟩)
  · rename_i hp ho; exact .inr (.inr ⟨hp, .inr ho, h⟩)
  · rename_i h1 h2 h3
    refine .inl ⟨by cases h; rfl, ?_⟩
    by_cases hp : s.phase = .hdr
    · exact .inr ⟨fun ho => h1 hp ho, fun ho => h2 hp ho, fun ho => h3 hp ho⟩
    · exact .inl hp

/-- The fetch of a header aborts, or executes the header it read. -/
theorem fetchHeader_cases {s t : State} (h : fetchHeader s = .next t) :
    (∃ e sub info, t = raise e sub info s) ∨
    (s.inLen.toNat ≤ Config.capBits ∧ ∃ bits, inputBits s (min s.inLen.toNat 27) = some bits ∧
      ((∃ len, hdrParse bits = .text len ∧ execHdrText len s = .next t) ∨
       (∃ height width, hdrParse bits = .image height width ∧ execHdrImage height width s = .next t))) := by
  unfold fetchHeader at h
  split at h
  · exact .inl ⟨_, _, _, by cases h; rfl⟩
  · rename_i hc
    split at h
    · cases h
    · rename_i bits hb
      split at h
      · exact .inl ⟨_, _, _, by cases h; rfl⟩
      · exact .inl ⟨_, _, _, by cases h; rfl⟩
      · rename_i len hl
        exact .inr ⟨by omega, bits, hb, .inl ⟨len, hl, h⟩⟩
      · rename_i a b hl
        exact .inr ⟨by omega, bits, hb, .inr ⟨a, b, hl, h⟩⟩

/-- An encoder that has its operands counts the blocks, holds the header and goes to the first block. -/
theorem beginEncode_cases {blocks : Option (List Bytes)} {tt : BitVec 3} {len height width : Nat} {header : Bits} {s t : State}
    (h : beginEncode blocks tt len height width header s = .next t) :
    ∃ bs, blocks = some bs ∧ t = enterBlocks { s with
      work := { s.work with
        t := tt, l := len, h := height, w := width, nblk := bs.length, acc := 0, nfail := 0, out := header } } := by
  unfold beginEncode at h
  split at h
  · cases h
  · exact ⟨_, rfl, by cases h; rfl⟩

/-- Phase HDR of `ENCT` aborts or begins. -/
theorem hdrEnct_cases {s t : State} (h : hdrEnct s = .next t) :
    (∃ e sub info, t = raise e sub info s) ∨
    (s.inLen.toNat / 8 ≤ 16777215 ∧ s.inLen.toNat % 8 = 0 ∧
      beginEncode (textBlocks s) 0#3 (s.inLen.toNat / 8) 0 0 (hdrTextBits (s.inLen.toNat / 8)) s = .next t) := by
  unfold hdrEnct at h
  split at h
  · exact .inl ⟨_, _, _, by cases h; rfl⟩
  · split at h
    · exact .inl ⟨_, _, _, by cases h; rfl⟩
    · rename_i h1 h2
      exact .inr ⟨Nat.le_of_not_lt h1, not_ne_iff.1 h2, h⟩

/-- Phase HDR of `ENCI` aborts or begins. -/
theorem hdrEnci_cases {s t : State} (h : hdrEnci s = .next t) :
    (∃ e sub info, t = raise e sub info s) ∨
    (s.arg0.toNat ≤ 4095 ∧ s.arg1.toNat ≤ 4095 ∧ s.inLen.toNat = 8 * (3 * s.arg0.toNat * s.arg1.toNat) ∧
      beginEncode (imageBlocks s) 1#3 0 s.arg0.toNat s.arg1.toNat (hdrImageBits s.arg0.toNat s.arg1.toNat) s = .next t) := by
  unfold hdrEnci at h
  split at h
  · exact .inl ⟨_, _, _, by cases h; rfl⟩
  · split at h
    · exact .inl ⟨_, _, _, by cases h; rfl⟩
    · split at h
      · exact .inl ⟨_, _, _, by cases h; rfl⟩
      · rename_i h1 h2 h3
        exact .inr ⟨Nat.le_of_not_lt h1, Nat.le_of_not_lt h2, not_ne_iff.1 h3, h⟩

/-- Phase HDR of `HPKT` aborts or packs the header. -/
theorem hdrHpkt_cases {s t : State} (h : hdrHpkt s = .next t) :
    (∃ e sub info, t = raise e sub info s) ∨
    (s.arg0.toNat ≤ 16777215 ∧ t = packedHeader (hdrTextBits s.arg0.toNat) 0#3 s.arg0.toNat 0 s) := by
  unfold hdrHpkt at h
  split at h
  · exact .inl ⟨_, _, _, by cases h; rfl⟩
  · rename_i h1; exact .inr ⟨Nat.le_of_not_lt h1, by cases h; rfl⟩

/-- Phase HDR of `HPKI` aborts or packs the header. -/
theorem hdrHpki_cases {s t : State} (h : hdrHpki s = .next t) :
    (∃ e sub info, t = raise e sub info s) ∨
    (s.arg0.toNat ≤ 4095 ∧ s.arg1.toNat ≤ 4095 ∧
      t = packedHeader (hdrImageBits s.arg0.toNat s.arg1.toNat) 1#3 s.arg0.toNat s.arg1.toNat s) := by
  unfold hdrHpki at h
  split at h
  · exact .inl ⟨_, _, _, by cases h; rfl⟩
  · split at h
    · exact .inl ⟨_, _, _, by cases h; rfl⟩
    · rename_i h1 h2; exact .inr ⟨Nat.le_of_not_lt h1, Nat.le_of_not_lt h2, by cases h; rfl⟩

/-! ### Phase BLOCK -/

/-- An encoder at a block waits, aborts past the buffer, or appends the answer and goes on. -/
theorem appendCodeword_cases {s t : State} (h : appendCodeword s = .next t) :
    (s.answer = none ∧ t = s) ∨ t = raise .operand 0#2 s.inLen.toNat s ∨
    ∃ a, s.answer = some a ∧ 27 + 8 * (s.work.acc + a.data.length) ≤ Config.capBits ∧
      t = advance { s with
        work := { s.work with acc := s.work.acc + a.data.length, out := s.work.out ++ bytesToBits a.data } } := by
  unfold appendCodeword at h
  split at h
  · rename_i ha; exact .inl ⟨ha, by cases h; rfl⟩
  · rename_i a ha
    split at h
    · exact .inr (.inl (by cases h; rfl))
    · rename_i hf; exact .inr (.inr ⟨a, ha, Nat.le_of_not_lt hf, by cases h; rfl⟩)

/-- A piece aborts past the buffer, or is appended and the engine goes on. -/
theorem appendPiece_cases {piece : Bytes} {s t : State} (h : appendPiece piece s = .next t) :
    t = raise .operand 0#2 s.inLen.toNat s ∨
    (s.work.acc + piece.length ≤ Config.capBytes ∧ t = advance { s with
      obuf := Memory.setBytes s.obuf s.work.acc piece
      work := { s.work with acc := s.work.acc + piece.length } }) := by
  unfold appendPiece at h
  split at h
  · exact .inl (by cases h; rfl)
  · exact .inr ⟨by omega, by cases h; rfl⟩

/-- `DEC` at a block waits, takes the corrected message, falls back and counts, or aborts when strict. -/
theorem blockDec_cases {s t : State} (h : blockDec s = .next t) :
    (s.answer = none ∧ t = s) ∨ t = raise .uncorrectableBlock 0#2 s.blk s ∨
    (∃ a, s.answer = some a ∧ a.ok = true ∧ appendPiece a.data s = .next t) ∨
    (∃ a c, s.answer = some a ∧ a.ok = false ∧ s.ctrl.fben = true ∧ blockAt (codewordBlocks s) s.blk = some c ∧
      appendPiece (msgPrefix c) { s with work := { s.work with nfail := s.work.nfail + 1 } } = .next t) := by
  unfold blockDec at h
  split at h
  · rename_i ha; exact .inl ⟨ha, by cases h; rfl⟩
  · rename_i a ha
    split at h
    · rename_i hok; exact .inr (.inr (.inl ⟨a, ha, hok, h⟩))
    · rename_i hok
      split at h
      · rename_i hf
        split at h
        · cases h
        · rename_i c hc
          exact .inr (.inr (.inr ⟨a, c, ha, by simpa using hok, hf, hc, h⟩))
      · exact .inr (.inl (by cases h; rfl))

/-- `RAW` at a block takes its prefix. -/
theorem blockRaw_cases {s t : State} (h : blockRaw s = .next t) :
    ∃ c, blockAt (codewordBlocks s) s.blk = some c ∧ appendPiece (msgPrefix c) s = .next t := by
  unfold blockRaw at h
  split at h
  · cases h
  · rename_i c hc; exact ⟨c, hc, h⟩

/-! ### Phase FIN -/

/-- The end of a decode aborts on a short text, or delivers. -/
theorem finishDecode_cases {s t : State} (h : finishDecode s = .next t) :
    t = raise .bitstreamLength 3#2 s.inLen.toNat s ∨
    t = decodeResults (trimOrPad (payloadLen s.work) (outputBytes s s.work.acc)) s := by
  unfold finishDecode at h
  split at h
  · exact .inl (by cases h; rfl)
  · exact .inr (by cases h; rfl)

@[simp] theorem trimOrPad_length (n : Nat) (acc : Bytes) : (trimOrPad n acc).length = n := by
  simp only [trimOrPad, List.length_append, List.length_take, List.length_replicate]; omega

/-- Trimming or padding gives the first `n` bytes where there are as many. -/
theorem trimOrPad_of_le {n : Nat} {acc : Bytes} (h : n ≤ acc.length) : trimOrPad n acc = acc.take n := by
  simp [trimOrPad, Nat.sub_eq_zero_of_le h]

/-- For an image the trim or pad of step 4 is the payload of 44_decoder.md R215. -/
theorem trimOrPad_eq_imagePayload (n : Nat) (acc : Bytes) : trimOrPad n acc = imagePayload n acc := by
  unfold imagePayload
  split
  · rename_i h; exact trimOrPad_of_le h
  · rename_i h
    rw [trimOrPad, List.take_of_length_le (by omega)]; rfl

/-! ### The induction over a command -/

/-- A property that the issue gives and every codec turn and engine step keeps holds where the command ends. -/
theorem runCommand_induct (P : State → Prop) {k : Codec} {p : Phases} {op : Opcode} {s t : State}
    (hissue : s.status.busy = false → P (issue op s)) (hbusy : s.status.busy = true → P s)
    (hcodec : ∀ u, P u → P (codecTurn k u)) (hstep : ∀ u v, P u → phaseStep p u = .next v → P v)
    (h : runCommand k p op s = .next t) : P t := by
  have hrun : ∀ n u v, P u → runPhases k p n u = .next v → P v := by
    intro n
    induction n with
    | zero => intro u v hu hv; cases hv; exact hu
    | succ n ih =>
      intro u v hu hv
      rw [runPhases] at hv
      split at hv
      · cases hv; exact hu
      · obtain ⟨w, hw, hv⟩ := andThen_eq_next hv
        exact ih w v (hstep _ _ (hcodec u hu) hw) hv
  unfold runCommand at h
  split at h
  · rename_i hb; cases h; exact hbusy hb
  · rename_i hb
    have hb : s.status.busy = false := by simpa using hb
    obtain ⟨u, hu, h⟩ := andThen_eq_next h
    exact hrun _ _ _ (hstep _ _ (hissue hb) (by simpa [phaseStep] using hu)) h

/-! ### The inductions over an engine step and over a step of the machine -/

/-- An engine step is the step of its phase. -/
theorem phaseStep_next {p : Phases} {s t : State} (h : phaseStep p s = .next t) :
    (s.phase = .idle ∧ t = s) ∨ (s.phase = .hdr ∧ p.hdr s = .next t) ∨ (s.phase = .block ∧ p.block s = .next t) ∨
    (s.phase = .fin ∧ p.fin s = .next t) := by
  unfold phaseStep at h
  split at h <;> rename_i hp <;> simp_all

/-- A property that each of the ten things an engine step can do keeps is kept by the engine step: abort, `CLR`, the header
results, the packed header, the two ways into the blocks, the two ways through a block, the two ways to deliver. -/
theorem engineTurn_induct (P : State → Prop)
  (hraise : ∀ s e sub info, P s → s.phase ≠ .idle → P (raise e sub info s))
  (hclr : ∀ s, P s → s.phase = .hdr → P (toIdle { s with status := { s.status with busy := false } }))
  (hhr : ∀ s ft a b, P s → s.phase = .hdr → (ft = 0#3 ∨ ft = 1#3) → P (headerResults ft a b s))
  (hph : ∀ s bits ft a b, P s → s.phase = .hdr → bits.length = 27 → (ft = 0#3 ∨ ft = 1#3) →
    P (packedHeader bits ft a b s))
  (hbeg : ∀ s tt len height width header nblk, P s → s.phase = .hdr →
    (s.work.op = .enct ∧ tt = 0#3 ∨ s.work.op = .enci ∧ tt = 1#3) → header.length = 27 →
    P (enterBlocks { s with
      work := { s.work with
        t := tt, l := len, h := height, w := width, nblk := nblk, acc := 0, nfail := 0, out := header } }))
  (hreg : ∀ s tt len height width cs, P s → s.phase = .hdr → decoding s.work.op = true → (tt = 0#3 ∨ tt = 1#3) →
    s.inLen.toNat ≤ Config.capBits → codewordBlocks s = some cs →
    payloadLen (setHeader tt len height width s).work ≤ (s.inLen.toNat - 27) / 8 →
    P (enterBlocks { setHeader tt len height width s with
      work := { (setHeader tt len height width s).work with nblk := cs.length, acc := 0, nfail := 0 } }))
  (happ : ∀ s a, P s → s.phase = .block → encoding s.work.op = true → s.answer = some a →
    27 + 8 * (s.work.acc + a.data.length) ≤ Config.capBits →
    P (advance { s with
      work := { s.work with acc := s.work.acc + a.data.length, out := s.work.out ++ bytesToBits a.data } }))
  (hpiece : ∀ s (piece : Bytes) d, P s → s.phase = .block → decoding s.work.op = true → d ≤ 1 →
    s.work.acc + piece.length ≤ Config.capBytes →
    P (advance { s with
      obuf := Memory.setBytes s.obuf s.work.acc piece
      work := { s.work with nfail := s.work.nfail + d, acc := s.work.acc + piece.length } }))
  (hfe : ∀ s ft a b t, P s → s.phase = .fin → encoding s.work.op = true → (ft = 0#3 ∨ ft = 1#3) →
    finishEncode ft a b s = .next t → P t)
  (hfd : ∀ s out, P s → s.phase = .fin → decoding s.work.op = true → out.length = payloadLen s.work →
    P (decodeResults out s))
  {s t : State} (hs : P s) (h : engineTurn s = .next t) : P t := by
  have hfetch : ∀ t, s.phase = .hdr → (s.work.op = .hunp ∨ s.work.op = .dec ∨ s.work.op = .raw) →
      fetchHeader s = .next t → P t := by
    intro t hp ho h
    have hne : s.phase ≠ .idle := by rw [hp]; decide
    have key : ∀ tt len height width, (tt = 0#3 ∨ tt = 1#3) → s.inLen.toNat ≤ Config.capBits →
        (s.work.op = .dec ∨ s.work.op = .raw) →
        enterRegion (setHeader tt len height width s) = .next t → P t := by
      intro tt len height width htt hc hop h
      rcases enterRegion_cases h with ⟨sub, rfl⟩ | ⟨cs, hcs, _, hl, rfl⟩
      · have := hraise s .bitstreamLength sub s.inLen.toNat hs hne
        exact this
      · exact hreg s tt len height width cs hs hp (by rcases hop with h | h <;> simp [decoding, h]) htt hc hcs hl
    rcases fetchHeader_cases h with ⟨e, sub, info, rfl⟩ | ⟨hc, bits, hb, ⟨len, hl, h⟩ | ⟨a, b, hl, h⟩⟩
    · exact hraise _ _ _ _ hs hne
    · rcases execHdrText_cases h with ⟨rfl, hh⟩ | ⟨_, _, rfl⟩ | ⟨_, hop, h⟩
      · exact hs
      · exact hhr _ _ _ _ hs hp (.inl rfl)
      · exact key _ _ _ _ (.inl rfl) hc hop h
    · rcases execHdrImage_cases h with ⟨rfl, hh⟩ | ⟨_, _, rfl⟩ | ⟨_, hop, h⟩
      · exact hs
      · exact hhr _ _ _ _ hs hp (.inr rfl)
      · exact key _ _ _ _ (.inr rfl) hc hop h
  have hcw : s.phase = .block → encoding s.work.op = true → appendCodeword s = .next t → P t := by
    intro hp ho h
    have hne : s.phase ≠ .idle := by rw [hp]; decide
    rcases appendCodeword_cases h with ⟨_, rfl⟩ | rfl | ⟨a, ha, hf, rfl⟩
    · exact hs
    · exact hraise _ _ _ _ hs hne
    · exact happ _ _ hs hp ho ha hf
  have hpc : ∀ (piece : Bytes) d, s.phase = .block → decoding s.work.op = true → d ≤ 1 →
      appendPiece piece { s with work := { s.work with nfail := s.work.nfail + d } } = .next t → P t := by
    intro piece d hp ho hd h
    have hne : s.phase ≠ .idle := by rw [hp]; decide
    rcases appendPiece_cases h with rfl | ⟨hf, rfl⟩
    · exact hraise s .operand 0#2 s.inLen.toNat hs hne
    · exact hpiece s piece d hs hp ho hd hf
  have hfin : s.phase = .fin → decoding s.work.op = true → finishDecode s = .next t → P t := by
    intro hp ho h
    have hne : s.phase ≠ .idle := by rw [hp]; decide
    rcases finishDecode_cases h with rfl | rfl
    · exact hraise _ _ _ _ hs hne
    · exact hfd _ _ hs hp ho (by simp)
  rcases phaseStep_next h with ⟨_, rfl⟩ | ⟨hp, h⟩ | ⟨hp, h⟩ | ⟨hp, h⟩
  · exact hs
  · have hne : s.phase ≠ .idle := by rw [hp]; decide
    cases ho : s.work.op <;> simp only [ho, opPhases] at h
    · cases h; exact hs
    · rcases hdrEnct_cases h with ⟨_, _, _, rfl⟩ | ⟨_, _, h⟩
      · exact hraise _ _ _ _ hs hne
      · obtain ⟨bs, _, rfl⟩ := beginEncode_cases h
        exact hbeg _ _ _ _ _ _ _ hs hp (.inl ⟨ho, rfl⟩) (by simp)
    · rcases hdrEnci_cases h with ⟨_, _, _, rfl⟩ | ⟨_, _, _, h⟩
      · exact hraise _ _ _ _ hs hne
      · obtain ⟨bs, _, rfl⟩ := beginEncode_cases h
        exact hbeg _ _ _ _ _ _ _ hs hp (.inr ⟨ho, rfl⟩) (by simp)
    · exact hfetch _ hp (by simp [ho]) h
    · exact hfetch _ hp (by simp [ho]) h
    · rcases hdrHpkt_cases h with ⟨_, _, _, rfl⟩ | ⟨_, rfl⟩
      · exact hraise _ _ _ _ hs hne
      · exact hph _ _ _ _ _ hs hp (by simp) (.inl rfl)
    · rcases hdrHpki_cases h with ⟨_, _, _, rfl⟩ | ⟨_, _, rfl⟩
      · exact hraise _ _ _ _ hs hne
      · exact hph _ _ _ _ _ hs hp (by simp) (.inr rfl)
    · exact hfetch _ hp (by simp [ho]) h
    · cases h; exact hclr _ hs hp
  · have hne : s.phase ≠ .idle := by rw [hp]; decide
    cases ho : s.work.op <;>
      simp only [ho, opPhases, enctPhases, enciPhases, decPhases, rawPhases, hpktPhases, hpkiPhases, hunpPhases, clrPhases,
        headerOnly] at h
    · cases h; exact hs
    · exact hcw hp (by simp [encoding, ho]) h
    · exact hcw hp (by simp [encoding, ho]) h
    · rcases blockDec_cases h with ⟨_, rfl⟩ | rfl | ⟨a, ha, _, h⟩ | ⟨a, c, _, _, _, _, h⟩
      · exact hs
      · exact hraise _ _ _ _ hs hne
      · exact hpc _ 0 hp (by simp [decoding, ho]) (by omega) h
      · exact hpc _ 1 hp (by simp [decoding, ho]) (by omega) h
    · obtain ⟨c, _, h⟩ := blockRaw_cases h
      exact hpc _ 0 hp (by simp [decoding, ho]) (by omega) h
    all_goals (cases h; exact hs)
  · have hne : s.phase ≠ .idle := by rw [hp]; decide
    cases ho : s.work.op <;>
      simp only [ho, opPhases, enctPhases, enciPhases, decPhases, rawPhases, hpktPhases, hpkiPhases, hunpPhases, clrPhases,
        headerOnly] at h
    · cases h; exact hs
    · exact hfe s 0#3 _ _ _ hs hp (by simp [encoding, ho]) (.inl rfl) h
    · exact hfe s 1#3 _ _ _ hs hp (by simp [encoding, ho]) (.inr rfl) h
    · exact hfin hp (by simp [decoding, ho]) h
    · exact hfin hp (by simp [decoding, ho]) h
    all_goals (cases h; exact hs)

/-- A property that the engine, the codec, an issue, a refusal, a host write and reset keep, and that does not look at the model's
own fields, is kept by every step. -/
theorem step_induct (P : State → Prop)
  (hmeta : ∀ s e pd fc, P s → P { s with events := e, portData := pd, freeCount := fc })
  (heng : ∀ s t, P s → engineTurn s = .next t → P t)
  (hcodec : ∀ s, P s → P (codecTurn Config.codec s))
  (hissue : ∀ s op, P s → s.status.busy = false → op ≠ .nop → P (issue op s))
  (hrefuse : ∀ s w sub, P s → s.status.busy = false → P (refuseIllegal w sub s))
  (hreset : P State.reset)
  (hin : ∀ s i v, P s → s.status.busy = false → i < Config.capBytes → P { s with ibuf := Memory.set s.ibuf i v })
  (hregs : ∀ s c a b n, P s → s.status.busy = false → P { s with ctrl := c, arg0 := a, arg1 := b, inLen := n })
  {s t : State} (hs : P s) (h : step s = .next t) : P t := by
  have hrefw : ∀ s w e, P s → s.status.busy = false → P (refuseWord w e s) := by
    intro s w e hs hb; cases e <;> exact hrefuse _ _ _ hs hb
  have hcmd : ∀ (op : Opcode) (s t : State), P s → s.status.busy = false → op ≠ .nop →
      runCommand Config.codec (opPhases op) op s = .next t → P t := by
    intro op s t hs hb ho h
    refine (runCommand_induct (fun u => P u ∧ (u.work.op = op ∨ u.phase = .idle)) (fun _ => ⟨hissue _ _ hs hb ho, .inl rfl⟩)
      (fun hb' => by simp [hb] at hb') ?_ ?_ h).1
    · rintro u ⟨hu, hop⟩
      refine ⟨hcodec _ hu, ?_⟩
      obtain ⟨a, ha⟩ := codecTurn_eq Config.codec u
      rw [ha]; exact hop
    · rintro u v ⟨hu, hop⟩ hv
      by_cases hp : u.phase = .idle
      · have : v = u := by simp [phaseStep, hp] at hv; exact hv.symm
        rw [this]; exact ⟨hu, hop⟩
      · have hop : u.work.op = op := by rcases hop with h | h; exact h; contradiction
        have he : engineTurn u = .next v := by rw [engineTurn, hop]; exact hv
        refine ⟨heng _ _ hu he, ?_⟩
        refine engineTurn_induct (fun w => w.work.op = op ∨ w.phase = .idle) ?_ ?_ ?_ ?_ ?_ ?_ ?_ ?_ ?_ ?_ (.inl hop) he
        · intros; right; simp
        · intros; right; simp
        · intros; right; simp [headerResults]
        · intros; right; simp [packedHeader]
        · rintro s _ _ _ _ _ _ hs hp' - -; left; simpa [hp'] using hs
        · rintro s _ _ _ _ _ hs hp' -; intros; left; simpa [hp', setHeader] using hs
        · rintro s _ hs hp' -; intros; left; simpa [hp'] using hs
        · rintro s _ _ hs hp' -; intros; left; simpa [hp'] using hs
        · intro s _ _ _ t _ _ _ _ h; right; cases h; simp
        · intros; right; simp [decodeResults]
  cases he : s.events with
  | nil => simp only [step, he] at h; exact heng _ _ hs h
  | cons e rest =>
    have hs' : P { s with events := rest } := hmeta s rest s.portData s.freeCount hs
    simp only [step, he] at h
    cases e with
    | command w =>
      simp only [eventStep, commandStep] at h
      split at h
      · cases h; exact hs'
      · rename_i hb
        have hb : s.status.busy = false := by simpa using hb
        simp only [decode, decodeCommand] at h
        cases hd : decodeOpcode w with
        | error e => rw [hd] at h; cases h; exact hrefw _ _ _ hs' hb
        | ok op =>
          rw [hd] at h
          cases op with
          | nop => cases h; exact hs'
          | enct => exact hcmd .enct { s with events := rest } t hs' hb (by decide) h
          | enci => exact hcmd .enci { s with events := rest } t hs' hb (by decide) h
          | dec => exact hcmd .dec { s with events := rest } t hs' hb (by decide) h
          | raw => exact hcmd .raw { s with events := rest } t hs' hb (by decide) h
          | hpkt => exact hcmd .hpkt { s with events := rest } t hs' hb (by decide) h
          | hpki => exact hcmd .hpki { s with events := rest } t hs' hb (by decide) h
          | hunp => exact hcmd .hunp { s with events := rest } t hs' hb (by decide) h
          | clr => exact hcmd .clr { s with events := rest } t hs' hb (by decide) h
    | write reg v =>
      simp only [eventStep, hostWrite] at h
      split at h
      · cases h; exact hs'
      · rename_i hb
        have hb : s.status.busy = false := by simpa using hb
        split at h
        · cases h; exact hregs { s with events := rest } _ s.arg0 s.arg1 s.inLen hs' hb
        · cases h
          simp only [writeCmd]
          cases hd : decodeOpcode v with
          | error e => exact hrefw _ _ _ hs' hb
          | ok op =>
            cases op with
            | nop => exact hs'
            | _ => exact hissue _ _ hs' hb (by decide)
        · cases h; exact hregs { s with events := rest } s.ctrl _ s.arg1 s.inLen hs' hb
        · cases h; exact hregs { s with events := rest } s.ctrl s.arg0 _ s.inLen hs' hb
        · cases h; exact hregs { s with events := rest } s.ctrl s.arg0 s.arg1 _ hs' hb
        · cases h; exact hs'
    | read reg =>
      simp only [eventStep, hostRead] at h
      split at h <;> cases h <;> exact hmeta _ _ _ _ hs'
    | storeIn i v =>
      simp only [eventStep, hostStoreIn] at h
      split at h
      · cases h; exact hs'
      · rename_i hb
        simp at hb
        cases h; exact hin _ _ _ hs' hb.1 hb.2
    | loadIn i =>
      simp only [eventStep, hostLoadIn] at h
      split at h
      · cases h; exact hmeta _ _ _ _ hs'
      · split at h <;> cases h <;> exact hmeta _ _ _ _ hs'
    | storeOut i v => cases h; exact hs'
    | loadOut i =>
      simp only [eventStep, hostLoadOut] at h
      split at h
      · cases h; exact hmeta _ _ _ _ hs'
      · split at h <;> cases h <;> exact hmeta _ _ _ _ hs'
    | engine => exact heng _ _ hs' h
    | codec => cases h; exact hcodec _ hs'
    | reset => cases h; exact hmeta State.reset _ _ _ hreset

end Sys2Proof.Machine
end

