-- ==== Sys2Proof/Laws/Commands.lean ====
section
/-! SUPPORT. How a command ends, in the terms of Safety.lean: the abort sequence is `aborted`, the three ways to deliver are
`delivered`, and a command that ends in phase HDR ends there. -/

namespace Sys2Proof.Machine

/-- An abort after the issue, seen from the state before it. -/
theorem raise_eq_aborted {e : ErrKind} {sub : BitVec 2} {info : Nat} {s u : State} (h1 : u.ctrl = s.ctrl)
    (h2 : u.arg0 = s.arg0) (h3 : u.arg1 = s.arg1) (h4 : u.inLen = s.inLen) (h5 : u.ibuf = s.ibuf)
    (h6 : u.events = s.events) (h7 : u.portData = s.portData) (h8 : u.freeCount = s.freeCount) :
    raise e sub info u = aborted s (errCode e) sub (BitVec.ofNat 32 info) u.obuf := by
  apply State.ext <;> simp [aborted, *]

/-- An abort right after the issue. -/
theorem raise_issue (e : ErrKind) (sub : BitVec 2) (info : Nat) (op : Opcode) (s : State) :
    raise e sub info (issue op s) = aborted s (errCode e) sub (BitVec.ofNat 32 info) s.obuf := rfl

/-- A command issued while busy is ignored. -/
theorem runCommand_busy {k : Codec} {p : Phases} {op : Opcode} {s : State} (hb : s.status.busy = true) :
    runCommand k p op s = .next s := by simp [runCommand, hb]

/-- A command whose phase HDR ends it. -/
theorem runCommand_of_idle {k : Codec} {p : Phases} {op : Opcode} {s t : State} (hb : s.status.busy = false)
    (h : p.hdr (issue op s) = .next t) (hp : t.phase = .idle) : runCommand k p op s = .next t := by
  simp [runCommand, hb, h, runPhases, hp]

/-- A command whose phase HDR reads an unwritten byte. -/
theorem runCommand_of_fault {k : Codec} {p : Phases} {op : Opcode} {s : State} {e : Fault} (hb : s.status.busy = false)
    (h : p.hdr (issue op s) = .fault e) : runCommand k p op s = .fault e := by
  simp [runCommand, hb, h]

/-- A command whose phase HDR goes on runs a round for each block and one for FIN. -/
theorem runCommand_of_next {k : Codec} {p : Phases} {op : Opcode} {s t : State} (hb : s.status.busy = false)
    (h : p.hdr (issue op s) = .next t) : runCommand k p op s = runPhases k p (t.work.nblk + 1) t := by
  simp [runCommand, hb, h]

/-- The delivery of a header, right after the issue. -/
theorem headerResults_issue (ftype : BitVec 3) (res0 res1 : Nat) (op : Opcode) (s : State) :
    headerResults ftype res0 res1 (issue op s) = delivered s ftype false false 0 res0 res1 0 0 s.obuf := rfl

/-- The delivery of a packed header, right after the issue. -/
theorem packedHeader_issue (bits : Bits) (ftype : BitVec 3) (res0 res1 : Nat) (op : Opcode) (s : State) :
    packedHeader bits ftype res0 res1 (issue op s) =
      delivered s ftype false false bits.length res0 res1 0 0 (Memory.ofBytes (packBits bits)) := rfl

/-- The delivery of a frame. -/
theorem finishEncode_delivers {ftype : BitVec 3} {res0 res1 : Nat} {s u : State} (h1 : u.ctrl = s.ctrl)
    (h2 : u.arg0 = s.arg0) (h3 : u.arg1 = s.arg1) (h4 : u.inLen = s.inLen) (h5 : u.ibuf = s.ibuf)
    (h6 : u.events = s.events) (h7 : u.portData = s.portData) (h8 : u.freeCount = s.freeCount)
    (hst : u.status = { Status.clear with busy := true }) (he : u.errinfo = 0#32) :
    finishEncode ftype res0 res1 u = .next (delivered s ftype false false u.work.out.length res0 res1 u.work.nblk 0
      (Memory.ofBytes (packBits u.work.out))) := by
  unfold finishEncode
  congr 1
  apply State.ext <;> simp [delivered, Status.clear, *]

/-- The delivery of a payload. -/
theorem decodeResults_delivers {out : Bytes} {s u : State} (h1 : u.ctrl = s.ctrl)
    (h2 : u.arg0 = s.arg0) (h3 : u.arg1 = s.arg1) (h4 : u.inLen = s.inLen) (h5 : u.ibuf = s.ibuf)
    (h6 : u.events = s.events) (h7 : u.portData = s.portData) (h8 : u.freeCount = s.freeCount)
    (hst : u.status = { Status.clear with busy := true }) (he : u.errinfo = 0#32) :
    decodeResults out u = delivered s u.work.t (degradedFlag u.work.nfail) (txeFlag u.work.t out) (8 * payloadLen u.work)
      (if u.work.t = 0#3 then u.work.l else u.work.h) (if u.work.t = 0#3 then 0 else u.work.w) u.work.nblk u.work.nfail
      (Memory.ofBytes out) := by
  unfold decodeResults
  apply State.ext <;> simp [delivered, Status.clear, *]

/-- The accumulator read back from `OBUF` is what was written there. -/
theorem outputBytes_setBytes {s : State} {m : List Host.Cell} {acc : Bytes} (h : s.obuf = Memory.setBytes m 0 acc) :
    outputBytes s acc.length = acc := by
  apply List.ext_getElem?
  intro j
  simp only [outputBytes, List.getElem?_map, h, Memory.get_setBytes, Nat.zero_le, true_and, Nat.zero_add, Nat.sub_zero]
  by_cases hj : j < acc.length
  · simp [hj]
  · rw [List.getElem?_eq_none (by simpa using hj), List.getElem?_eq_none (by simpa using hj)]; rfl

end Sys2Proof.Machine
end

