-- ==== Sys2Proof/Laws/PerInstr.lean ====
section
/-! SUPPORT. A statement made for every instruction, one lemma a constructor: the shape of its code. -/

namespace Sys2Proof.Laws

/-- The code of a command is a word whose reserved bits are 0 and whose opcode is at most 8 (30_encoding.md R100, R101); the
code of a wire header has 27 bits (30_encoding.md R91). -/
def CodeShape.Statement (i : Instr) : Prop :=
  match encode i with
  | .command w => w.toNat ≤ 8
  | .wire bits => bits.length = Config.hdrBits

theorem CodeShape.nop : CodeShape.Statement .nop := Nat.le_of_ble_eq_true rfl

theorem CodeShape.enct : CodeShape.Statement .enct := Nat.le_of_ble_eq_true rfl

theorem CodeShape.enci : CodeShape.Statement .enci := Nat.le_of_ble_eq_true rfl

theorem CodeShape.dec : CodeShape.Statement .dec := Nat.le_of_ble_eq_true rfl

theorem CodeShape.raw : CodeShape.Statement .raw := Nat.le_of_ble_eq_true rfl

theorem CodeShape.hpkt : CodeShape.Statement .hpkt := Nat.le_of_ble_eq_true rfl

theorem CodeShape.hpki : CodeShape.Statement .hpki := Nat.le_of_ble_eq_true rfl

theorem CodeShape.hunp : CodeShape.Statement .hunp := Nat.le_of_ble_eq_true rfl

theorem CodeShape.clr : CodeShape.Statement .clr := Nat.le_of_ble_eq_true rfl

theorem CodeShape.hdrText (len : Nat) : CodeShape.Statement (.hdrText len) := hdrTextBits_length len

theorem CodeShape.hdrImage (height width : Nat) : CodeShape.Statement (.hdrImage height width) :=
  hdrImageBits_length height width

end Sys2Proof.Laws
end

