-- ==== Sys2Proof/Tests/Slice0.lean ====
section
/-! SUPPORT. Tests: the checks of WellFormed, the decoding of written-out words, one step of each instruction on the spec's own
vectors (95_test_vectors.md), and for every statement a concrete case that meets its hypotheses. -/

-- One theorem at a time: the concrete cases are checked in the kernel and would else wait for one another in many threads.
set_option Elab.async false

namespace Sys2Proof.Tests

open Sys2Proof.Machine

/-! ### Well-formedness: one ill-formed term for each check -/

theorem test_text_length_too_large : (Instr.hdrText 16777216).wellFormed = false := by decide

theorem test_text_length_largest : (Instr.hdrText 16777215).wellFormed = true := by decide

theorem test_height_too_large : (Instr.hdrImage 4096 0).wellFormed = false := by decide

theorem test_width_too_large : (Instr.hdrImage 0 4096).wellFormed = false := by decide

theorem test_dimensions_largest : (Instr.hdrImage 4095 4095).wellFormed = true := by decide

/-! ### Decoding: every constructor from a word written out from 30_encoding.md R101 and R91 -/

theorem test_decode_nop : decode (.command 0b00000000000000000000000000000000#32) = .ok .nop := by decide

theorem test_decode_enct : decode (.command 0b00000000000000000000000000000001#32) = .ok .enct := by decide

theorem test_decode_enci : decode (.command 0b00000000000000000000000000000010#32) = .ok .enci := by decide

theorem test_decode_dec : decode (.command 0b00000000000000000000000000000011#32) = .ok .dec := by decide

theorem test_decode_raw : decode (.command 0b00000000000000000000000000000100#32) = .ok .raw := by decide

theorem test_decode_hpkt : decode (.command 0b00000000000000000000000000000101#32) = .ok .hpkt := by decide

theorem test_decode_hpki : decode (.command 0b00000000000000000000000000000110#32) = .ok .hpki := by decide

theorem test_decode_hunp : decode (.command 0b00000000000000000000000000000111#32) = .ok .hunp := by decide

theorem test_decode_clr : decode (.command 0b00000000000000000000000000001000#32) = .ok .clr := by decide

theorem test_decode_reserved_opcodes :
    decode (.command 0x00000009#32) = .error .reservedOpcode ∧ decode (.command 0x0000000F#32) = .error .reservedOpcode := by
  decide

theorem test_decode_reserved_bits :
    decode (.command 0x00000010#32) = .error .reservedBits ∧ decode (.command 0x00000019#32) = .error .reservedBits ∧
      decode (.command 0x80000001#32) = .error .reservedBits := by decide

/-- A bit string written with digits, first bit on the left (00_scope.md R8). -/
def wire (digits : List Nat) : Code := .wire (digits.map fun d => d = 1)

/-- The header of `"hi"` (40_header.md R129). -/
theorem test_decode_text_header :
    decode (wire [0, 0, 0, 0, 0, 0, 0, 0, 0, 0, 0, 0, 0, 0, 0, 0, 0, 0, 0, 0, 0, 0, 0, 0, 0, 1, 0]) = .ok (.hdrText 2) := by
  decide

/-- The header of the 1×1 image (40_header.md R129). -/
theorem test_decode_image_header :
    decode (wire [0, 0, 1, 0, 0, 0, 0, 0, 0, 0, 0, 0, 0, 0, 1, 0, 0, 0, 0, 0, 0, 0, 0, 0, 0, 0, 1]) = .ok (.hdrImage 1 1) := by
  decide

/-- The height stands before the width, each most significant bit first (30_encoding.md R91). -/
theorem test_decode_image_fields :
    decode (wire [0, 0, 1, 1, 0, 0, 0, 0, 0, 0, 0, 0, 0, 0, 0, 0, 0, 0, 0, 0, 0, 0, 0, 0, 0, 1, 1]) =
      .ok (.hdrImage 2048 3) := by decide

/-- An unrecognised tag is reported even with fewer than 27 bits (40_header.md R123, R128). -/
theorem test_decode_bad_tag : decode (wire [0, 1, 0]) = .error (.badTag 2) ∧ decode (wire [1, 1, 1]) = .error (.badTag 7) := by
  decide

theorem test_decode_short_header : decode (wire [0, 1]) = .error .headerShort ∧
    decode (.wire (List.replicate 26 false)) = .error .headerShort := by decide

theorem test_table_words : decodeTableWord 32 4 = some .raw ∧ decodeTableWord 27 2 = some (.hdrText 2) ∧
    decodeTableWord 27 (2 ^ 24 + 2 ^ 12 + 1) = some (.hdrImage 1 1) ∧ decodeTableWord 32 9 = none := by decide +kernel

/-! ### One step of each instruction -/

/-- An idle machine after reset with given input, operands and fallback policy. -/
def ready (input : Bytes) (len : Nat) (a0 a1 : Word) (fben : Bool) : State :=
  { State.reset with
    ctrl := { fben := fben, ien := false }
    ibuf := Memory.ofBytes input, inLen := BitVec.ofNat 32 len, arg0 := a0, arg1 := a1 }

/-- What a next state shows of a command's end: `STATUS`, `OUT_LEN`, `RES0`, `RES1`, `BLKCNT`, `FAILCNT`, `ERRINFO` and the first
`n` bytes of `OBUF`. -/
def shows (r : Result) (n : Nat) : List Nat × List (Option Nat) :=
  match r with
  | .next s =>
    ([(statusWord s.status).toNat, s.outLen.toNat, s.res0.toNat, s.res1.toNat, s.blkcnt.toNat, s.failcnt.toNat,
      s.errinfo.toNat], (List.range n).map fun j => (Memory.get s.obuf j).map BitVec.toNat)
  | .fault _ => ([], [])
  | .refused _ => ([], [])

/-- A stand-in codec for tests: the message and 32 zero bytes; the check is that the parity reads zero (42_codec.md R161 to
R163, R165 hold of it). -/
def standIn : Codec where
  enc m := m ++ List.replicate 32 0x00#8
  dec c := if 33 ≤ c.length ∧ c.drop (c.length - 32) = List.replicate 32 0x00#8 then some (c.take (c.length - 32)) else none

/-- A codec that fails on every block. -/
def failing : Codec where
  enc m := m ++ List.replicate 32 0x00#8
  dec _ := none

/-- A codec that corrects every block of the right length to one message. -/
def oneMessage (m : Bytes) : Codec where
  enc x := x ++ List.replicate 32 0x00#8
  dec c := if c.length = m.length + 32 then some m else none

/-- A codec whose codewords are longer than `OBUF`, outside its contract (42_codec.md R171). -/
def oversized : Codec where
  enc _ := List.replicate 67108861 0x00#8
  dec _ := none

/-- 40_header.md R126, the example. -/
theorem test_hpkt : shows (exec .hpkt (ready [] 0 2#32 0#32 true)) 5 =
    ([0x2, 27, 2, 0, 0, 0, 0], [some 0x00, some 0x00, some 0x00, some 0x40, none]) := by decide +kernel

/-- 40_header.md R126, the corner case `L = 2^24`. -/
theorem test_hpkt_range : shows (exec .hpkt (ready [] 0 16777216#32 0#32 true)) 0 =
    ([0x102, 0, 0, 0, 0, 0, 0x01000000], []) := by decide +kernel

/-- 40_header.md R127, the example. -/
theorem test_hpki : shows (exec .hpki (ready [] 0 1#32 1#32 true)) 4 =
    ([0x12, 27, 1, 1, 0, 0, 0], [some 0x20, some 0x02, some 0x00, some 0x20]) := by decide +kernel

/-- 40_header.md R127: the height is reported when both are out of range. -/
theorem test_hpki_height_first : shows (exec .hpki (ready [] 0 4096#32 5000#32 true)) 0 =
    ([0x1102, 0, 0, 0, 0, 0, 4096], []) := by decide +kernel

/-- 40_header.md R128, the example. -/
theorem test_hunp : shows (exec .hunp (ready [0x20#8, 0x02#8, 0x00#8, 0x20#8] 27 0#32 0#32 true)) 0 =
    ([0x12, 0, 1, 1, 0, 0, 0], []) := by decide +kernel

/-- 40_header.md R128: three bits `010`. -/
theorem test_hunp_bad_tag : shows (exec .hunp (ready [0x40#8] 3 0#32 0#32 true)) 0 = ([0x302, 0, 0, 0, 0, 0, 2], []) := by
  decide +kernel

/-- 43_encoder.md R181: the empty message needs no codec. -/
theorem test_enct_empty : shows (exec .enct (ready [] 0 0#32 0#32 true)) 5 =
    ([0x2, 27, 0, 0, 0, 0, 0], [some 0, some 0, some 0, some 0, none]) := by decide +kernel

/-- 43_encoder.md R181, the example `"hi"`: six bytes of the frame, its length, one codeword. -/
theorem test_enct_hi : shows (execEnctWith standIn (ready [0x68#8, 0x69#8] 16 0#32 0#32 true)) 6 =
    ([0x2, 2067, 2, 0, 1, 0, 0], [some 0x00, some 0x00, some 0x00, some 0x4D, some 0x0D, some 0x20]) := by decide +kernel

/-- 43_encoder.md R184, the example: a short codeword of 35 bytes. -/
theorem test_enci_pixel : shows (execEnciWith standIn (ready [0x0A#8, 0x0B#8, 0x0C#8] 24 1#32 1#32 true)) 7 =
    ([0x12, 307, 1, 1, 1, 0, 0], [some 0x20, some 0x02, some 0x00, some 0x21, some 0x41, some 0x61, some 0x80]) := by
  decide +kernel

/-- 43_encoder.md R184: the number of bytes is not `3·H·W`. -/
theorem test_enci_operand : shows (exec .enci (ready [] 16 1#32 1#32 true)) 0 = ([0x2702, 0, 0, 0, 0, 0, 16], []) := by
  decide +kernel

/-- 44_decoder.md R201: a region shorter than the declared payload. -/
theorem test_dec_short_region : shows (exec .dec (ready [0x00#8, 0x00#8, 0x00#8, 0x20#8] 27 0#32 0#32 true)) 0 =
    ([0x2502, 0, 0, 0, 0, 0, 27], []) := by decide +kernel

/-- 44_decoder.md R208, R215: the codec fails on a 1×1 image's only block; the prefix is trimmed to 3 bytes and `DEGRADED` is
set. -/
theorem test_dec_fallback :
    shows (execDecWith failing (ready [0x20#8, 0x02#8, 0x00#8, 0x21#8, 0x41#8, 0x61#8, 0x9F#8, 0xE0#8] 59 0#32 0#32 true)) 4 =
      ([0x16, 24, 1, 1, 1, 1, 0], [some 0x0A, some 0x0B, some 0x0C, none]) := by decide +kernel

/-- 44_decoder.md R217, R221: a two-byte text frame whose bytes are no UTF-8 sequence. -/
theorem test_raw_text : shows (exec .raw (ready [0x00#8, 0x00#8, 0x00#8, 0x58#8, 0x48#8, 0x00#8] 43 0#32 0#32 true)) 3 =
    ([0xA, 16, 2, 0, 1, 0, 0], [some 0xC2, some 0x40, none]) := by decide +kernel

/-- 44_decoder.md R203: a ragged tail of one bit. -/
theorem test_raw_ragged : shows (exec .raw (ready [0x00#8, 0x00#8, 0x00#8, 0x00#8] 28 0#32 0#32 true)) 0 =
    ([0x1502, 0, 0, 0, 0, 0, 28], []) := by decide +kernel

/-- 45_control.md R244, the example: an aborted command's status is cleared and `DONE` stays 0. -/
theorem test_clr :
    shows (exec .clr { ready [] 0 0#32 0#32 true with
      status := { busy := false, done := true, degraded := false, txe := false, ftype := 0#3, err := 3#4, errsub := 0#2 }
      errinfo := 5#32 }) 0 = ([0, 0, 0, 0, 0, 0, 0], []) := by decide +kernel

/-- 45_control.md R243. -/
theorem test_nop : exec .nop (ready [] 7 1#32 2#32 false) = .next (ready [] 7 1#32 2#32 false) := rfl

/-- 45_control.md R246, the example, as the write of a word. -/
theorem test_illegal_word :
    shows (step { ready [] 0 0#32 0#32 true with events := [.write 2 0x0000000F#32] }) 0 =
      ([0x1602, 0, 0, 0, 0, 0, 15], []) := by decide +kernel

/-- The word of an opcode-table row placed where the next step takes it is executed: `HPKT` of length 0. -/
theorem test_fetch_command : shows (step (State.reset.withFetchWord 32 5)) 1 = ([0x2, 27, 0, 0, 0, 0, 0], [some 0]) := by
  decide +kernel

/-- The same for a wire header, which `HUNP` delivers. -/
theorem test_fetch_header : shows (step (State.reset.withFetchWord 27 (2 ^ 24 + 2 ^ 12 + 1))) 0 =
    ([0x12, 0, 1, 1, 0, 0, 0], []) := by decide +kernel

/-- 44_decoder.md R217: boundaries of the table; the empty string; a cut sequence; a surrogate; an overlong form. -/
theorem test_utf8 : utf8Wf [] = true ∧ utf8Wf [0xF4#8, 0x8F#8, 0xBF#8, 0xBF#8, 0x00#8] = true ∧
    utf8Wf [0xF4#8, 0x90#8, 0x80#8, 0x80#8] = false ∧ utf8Wf [0xED#8, 0xA0#8, 0x80#8] = false ∧ utf8Wf [0xC1#8, 0xBF#8] = false ∧
    utf8Wf [0xE2#8, 0x82#8] = false := by decide +kernel

/-! ### Witnesses: concrete cases that meet the hypotheses of the statements -/

/-- A busy machine at the first block of a command, the codec silent. -/
def waiting (op : Opcode) : State :=
  { ready [0x68#8] 8 0#32 0#32 true with
    status := { Status.clear with busy := true }
    phase := .block, work := { Work.none with op := op, nblk := 1 } }

/-- An idle machine with a bitstream in `IBUF`. -/
def withStream (bits : Bits) (fben : Bool) : State := ready (packBits bits) bits.length 0#32 0#32 fben

theorem inputBits_withStream (bits : Bits) (fben : Bool) :
    inputBits (withStream bits fben) bits.length = some ((bytesToBits (packBits bits)).take bits.length) := by
  unfold inputBits inputBytes
  rw [← packBits_length bits]
  exact congrArg (Option.map _) (Memory.readBytes_ofBytes _)

/-- What `IBUF` gives back is the bitstream, if packing it and unpacking it does. -/
theorem inputBits_withStream_of (bits : Bits) (fben : Bool) (n : Nat) (hn : bits.length = n)
    (h : (bytesToBits (packBits bits)).take bits.length = bits) : inputBits (withStream bits fben) n = some bits := by
  rw [← hn, inputBits_withStream, h]

/-- A 1×1 image frame whose region is one block of 3 bytes. -/
def shortImage : Bits := hdrImageBits 1 1 ++ bytesToBits [0x0A#8, 0x0B#8, 0x0C#8]

/-- A text frame of one byte whose region is one block of one byte. -/
def shortText : Bits := hdrTextBits 1 ++ bytesToBits [0x41#8]

theorem witness_StepRunsTheDecodedCommand :
    ({ waiting .dec with events := [.command 3#32] } : State).status.busy = true ∧
    (State.reset.status.busy = false ∧ decode (.command 3#32) = .ok .dec) ∧
    decode (.command 0x19#32) = .error .reservedBits := by decide

theorem witness_StepRunsTheFetchedHeader :
    (issue .dec (withStream shortImage true)).events = [] ∧ (issue .dec (withStream shortImage true)).phase = .hdr ∧
    (issue .dec (withStream shortImage true)).work.op = .dec ∧
    (issue .dec (withStream shortImage true)).inLen.toNat ≤ 536870912 ∧
    inputBits (issue .dec (withStream shortImage true)) (min (issue .dec (withStream shortImage true)).inLen.toNat 27) =
      some (hdrImageBits 1 1) ∧
    decode (.wire (hdrImageBits 1 1)) = .ok (.hdrImage 1 1) := by decide +kernel

theorem witness_DecodeOfEncodeIsTheInstruction :
    Instr.enct.wellFormed = true ∧ (Instr.hdrText 16777215).wellFormed = true ∧ (Instr.hdrText 0).wellFormed = true ∧
    (Instr.hdrImage 4095 4095).wellFormed = true ∧ (Instr.hdrImage 0 0).wellFormed = true := by decide

theorem witness_HeaderFunctionsAreInverse :
    hdrParse (hdrTextBits 16777215 ++ [true]) = .text 16777215 ∧ hdrParse (hdrImageBits 4095 0 ++ []) = .image 4095 0 ∧
    (hdrTextBits 16777215).length = 27 ∧ b2u ((hdrTextBits 16777215).take 3) < 2 := by
  decide +kernel

theorem witness_BitAndByteConversionsAreInverse : ([true, false, true, false, true, true, true, true] : Bits).length % 8 = 0 := by
  decide

theorem witness_ChunksPartitionTheBytes :
    1 ≤ 1 ∧ 1 < (chunks [1#8, 2#8, 3#8] 2).length ∧ (chunks [1#8, 2#8, 3#8] 2)[0]? = some [1#8, 2#8] ∧
    (chunks [1#8, 2#8, 3#8] 2).getLast? = some [3#8] ∧ (chunks [1#8, 2#8] 2).getLast? = some [1#8, 2#8] := by decide

/-- The stand-in meets 42_codec.md R162. -/
theorem standIn_encodeLength : standIn.EncodeLength := fun m _ _ => by
  simp [standIn, Config.parityP]

/-- The stand-in meets 42_codec.md R161. -/
theorem standIn_systematic : standIn.Systematic := fun _ _ _ => ⟨List.replicate 32 0x00#8, by simp [Config.parityP], rfl⟩

/-- The stand-in meets 42_codec.md R163. -/
theorem standIn_cleanDecode : standIn.CleanDecode := fun m h _ => by
  simp only [standIn, List.length_append, List.length_replicate]
  rw [if_pos ⟨by omega, by simp⟩]; simp

/-- A codec that answers nothing and fails on every block. -/
def failingPort : Codec where
  enc _ := []
  dec _ := none

theorem failingPort_fitsPort : failingPort.FitsPort := ⟨fun _ => by simp [failingPort], fun c m h => by cases h⟩

/-- A codec that answers every block with no byte, or with three. -/
def answering (m : Bytes) : Codec where
  enc _ := []
  dec _ := some m

theorem answering_fitsPort {m : Bytes} (h : m.length ≤ 255) : (answering m).FitsPort :=
  ⟨fun _ => by simp [answering], fun c x hx => by cases hx; exact h⟩

/-- The one-message codec corrects its message. -/
theorem oneMessage_corrects (m : Bytes) : (oneMessage m).CorrectsMessage m := fun c h _ => by
  simp [oneMessage] at h ⊢; exact h

theorem oneMessage_encodeLength (m : Bytes) : (oneMessage m).EncodeLength := fun x _ _ => by
  simp [oneMessage, Config.parityP]

theorem witness_FramesAreCutBackIntoCodewords : standIn.EncodeLength ∧ ([1#8, 2#8, 3#8] : Bytes).length = 3 * 1 * 1 :=
  ⟨standIn_encodeLength, rfl⟩

theorem witness_InputBitsAreMostSignificantFirst :
    inputBits (ready [0xA0#8] 3 0#32 0#32 true) 3 = some [true, false, true] := by decide +kernel

theorem witness_CopiedOutputReadsBack :
    (hdrTextBits 2).length ≤ 536870912 ∧
    (∀ j : Nat, j < ceilDiv (hdrTextBits 2).length 8 →
      Memory.get (withStream (hdrTextBits 2) true).ibuf j = Memory.get (storeBits (hdrTextBits 2) State.reset).obuf j) ∧
    (withStream (hdrTextBits 2) true).inLen = BitVec.ofNat 32 (hdrTextBits 2).length :=
  ⟨by simp, fun _ _ => rfl, rfl⟩

/-- An idle machine whose `OBUF` holds one valid byte, with one host action pending. -/
def acting (e : Event) : State :=
  { ready [0x68#8] 8 0#32 0#32 true with obuf := [(0, 0x41#8)], outLen := 8#32, events := [e] }

theorem witness_BufferAccesses :
    (acting (.storeIn 67108863 7#8)).status.busy = false ∧ (acting (.storeIn 67108863 7#8)).events = [.storeIn 67108863 7#8] ∧
    (acting (.storeIn 67108864 7#8)).events = [.storeIn 67108864 7#8] ∧
    (acting (.storeOut 0 7#8)).events = [.storeOut 0 7#8] ∧ Memory.get (acting (.loadIn 0)).ibuf 0 = some 0x68#8 ∧
    Memory.get (acting (.loadIn 67108863)).ibuf 67108863 = none ∧
    (0 < ceilDiv (acting (.loadOut 0)).outLen.toNat 8 ∧ Memory.get (acting (.loadOut 0)).obuf 0 = some 0x41#8) ∧
    ceilDiv (acting (.loadOut 1)).outLen.toNat 8 ≤ 1 := by decide

/-- The clause on the bytes declared valid: the invariant holds of the machine with one of them. -/
theorem witness_BufferAccesses_valid : BuffersOk (acting (.loadOut 0)) :=
  ⟨by decide, by decide, fun j hj => by
    have hj : j < 1 := hj
    obtain rfl : j = 0 := by omega
    rfl, by simp [acting, ready, State.reset], by simp [acting, ready, State.reset]⟩

theorem witness_WritesWhileBusyAreLost :
    ({ waiting .enct with events := [.write 4 7#32, .storeIn 0 1#8, .storeOut 0 1#8, .command 8#32] } : State).status.busy = true := by decide

theorem witness_ReadsChangeNothing :
    (acting (.read 3)).events = [.read 3] ∧ (acting (.read 3)).status.busy = false ∧
    (({ waiting .enct with events := [.read 7] } : State).status.busy = true ∧
      (7 : Fin 16) ≠ 0 ∧ (7 : Fin 16) ≠ 1 ∧ (7 : Fin 16) ≠ 3) ∧
    ({ waiting .enct with events := [.loadOut 0] } : State).events = [.loadOut 0] := by decide

theorem witness_RegisterWrites :
    (acting (.write 1 0xFFFFFFFF#32)).status.busy = false ∧ (1 : Fin 16) ≠ 2 ∧ (15 : Fin 16) ≠ 2 ∧
    (acting (.write 1 0xFFFFFFFF#32)).events = [.write 1 0xFFFFFFFF#32] := by decide

theorem witness_InterruptLineIsALevel : (ready [] 0 0#32 0#32 true).status.busy = false := by decide

theorem witness_NopChangesNothing :
    (acting (.command 0#32)).events = [.command 0#32] ∧ (acting (.write 2 0#32)).events = [.write 2 0#32] ∧
    (0x10#32 : Word).extractLsb' 0 4 = 0#4 ∧ (0x10#32 : Word).extractLsb' 4 28 ≠ 0#28 := by decide

theorem witness_ClrClearsStatusAndResults : (acting (.command 8#32)).status.busy = false := by decide

theorem witness_IllegalCommandIsRefused :
    (acting (.command 9#32)).status.busy = false ∧ 9 ≤ (9#32).toNat ∧ (acting (.command 9#32)).events = [.command 9#32] ∧
    9 ≤ (15#32).toNat ∧ 9 ≤ (16#32).toNat ∧ (acting (.write 2 16#32)).events = [.write 2 16#32] := by decide

theorem witness_IssueClearsResults :
    (acting (.write 2 1#32)).status.busy = false ∧ Opcode.enct ≠ .nop ∧ encode Opcode.enct.instr = .command 1#32 ∧
    (acting (.write 2 1#32)).events = [.write 2 1#32] := by decide

theorem witness_ResetEndsEverything :
    ({ waiting .enct with events := [.reset] } : State).events = [.reset] ∧
    ({ waiting .enct with events := [.reset, .codec] } : State).events = [.reset, .codec] := by decide

theorem witness_SilentCodecHangsTheEngine :
    ({ waiting .enct with events := [.engine, .write 2 8#32] } : State).status.busy = true ∧
    (waiting .enct).phase = .block ∧ (waiting .enct).answer = none ∧ (waiting .enct).work.op = .enct ∧
    (∀ e : Event, e ∈ [Event.engine, .write 2 8#32] → e ≠ .codec ∧ e ≠ .reset) := by decide

theorem witness_HpktPacksATextHeader :
    (ready [] 0 16777215#32 0#32 true).status.busy = false ∧ (ready [] 0 16777215#32 0#32 true).arg0.toNat ≤ 16777215 ∧
    16777215 < (ready [] 0 16777216#32 0#32 true).arg0.toNat := by decide

theorem witness_HpkiPacksAnImageHeader :
    (ready [] 0 4095#32 4095#32 true).status.busy = false ∧
    ((ready [] 0 4095#32 4095#32 true).arg0.toNat ≤ 4095 ∧ (ready [] 0 4095#32 4095#32 true).arg1.toNat ≤ 4095) ∧
    4095 < (ready [] 0 4096#32 4096#32 true).arg0.toNat ∧
    ((ready [] 0 4095#32 4096#32 true).arg0.toNat ≤ 4095 ∧ 4095 < (ready [] 0 4095#32 4096#32 true).arg1.toNat) := by decide

theorem witness_HunpUnpacksAHeader :
    (ready [] 536870913 0#32 0#32 true).status.busy = false ∧ 536870912 < (ready [] 536870913 0#32 0#32 true).inLen.toNat ∧
    (ready [0#8, 0#8, 0#8, 0x40#8] 536870912 0#32 0#32 true).inLen.toNat ≤ 536870912 ∧
    inputBits (ready [0#8, 0#8, 0#8, 0x40#8] 536870912 0#32 0#32 true) 27 = some (hdrTextBits 2) ∧
    inputBits (ready [0x40#8] 3 0#32 0#32 true) 3 = some [false, true, false] ∧
    hdrParse [false, true, false] = .badTag 2 ∧ inputBits (ready [0#8] 2 0#32 0#32 true) 2 = some [false, false] ∧
    hdrParse [false, false] = .short := by decide +kernel

theorem witness_TextHeaderIsExecuted :
    ((issue .hunp State.reset).phase = .hdr ∧ (issue .hunp State.reset).work.op = .hunp) ∧
    ((issue .raw (withStream shortText true)).phase = .hdr ∧ (issue .raw (withStream shortText true)).work.op = .raw) ∧
    (28 - 27) % 8 ≠ 0 ∧ (issue .dec (ready [] 28 0#32 0#32 true)).inLen.toNat = 28 ∧
    ((issue .raw (withStream shortText true)).inLen.toNat - 27) % 8 = 0 ∧
    ((issue .raw (withStream shortText true)).inLen.toNat - 27) / 8 = 1 ∧
    inputBits (issue .raw (withStream shortText true)) (issue .raw (withStream shortText true)).inLen.toNat = some shortText ∧
    State.reset.phase ≠ .hdr := by decide +kernel

theorem witness_ImageHeaderIsExecuted :
    ((issue .dec (withStream shortImage true)).phase = .hdr ∧ (issue .dec (withStream shortImage true)).work.op = .dec) ∧
    ((issue .dec (withStream shortImage true)).inLen.toNat - 27) % 8 = 0 ∧
    3 * 1 * 1 ≤ ((issue .dec (withStream shortImage true)).inLen.toNat - 27) / 8 ∧
    ((issue .dec (withStream shortImage true)).inLen.toNat - 27) / 8 < 3 * 2 * 1 ∧
    inputBits (issue .dec (withStream shortImage true)) (issue .dec (withStream shortImage true)).inLen.toNat = some shortImage ∧
    ((issue .enct State.reset).work.op ≠ .hunp ∧ (issue .enct State.reset).work.op ≠ .dec ∧
      (issue .enct State.reset).work.op ≠ .raw) := by decide +kernel

theorem witness_EnctEncodesATextFrame :
    (ready [0x68#8] 8 0#32 0#32 true).status.busy = false ∧ 16777215 < (ready [] 134217728 0#32 0#32 true).inLen.toNat / 8 ∧
    ((ready [] 12 0#32 0#32 true).inLen.toNat / 8 ≤ 16777215 ∧ (ready [] 12 0#32 0#32 true).inLen.toNat % 8 ≠ 0) ∧
    ((ready [] 134217727 0#32 0#32 true).inLen.toNat / 8 ≤ 16777215 ∧
      (ready [] 134217727 0#32 0#32 true).inLen.toNat % 8 ≠ 0) ∧
    (8 / 8 ≤ 16777215 ∧ 8 % 8 = 0 ∧ (ready [0x68#8] 8 0#32 0#32 true).inLen.toNat = 8 ∧
      inputBytes (ready [0x68#8] 8 0#32 0#32 true) (8 / 8) = some [0x68#8]) := by decide

theorem witness_EnciEncodesAnImageFrame :
    (ready [0x0A#8, 0x0B#8, 0x0C#8] 24 1#32 1#32 true).status.busy = false ∧
    4095 < (ready [] 0 4096#32 4096#32 true).arg0.toNat ∧
    ((ready [] 0 4095#32 4096#32 true).arg0.toNat ≤ 4095 ∧ 4095 < (ready [] 0 4095#32 4096#32 true).arg1.toNat) ∧
    ((ready [] 16 4095#32 4095#32 true).arg0.toNat ≤ 4095 ∧ (ready [] 16 4095#32 4095#32 true).arg1.toNat ≤ 4095 ∧
      (ready [] 16 4095#32 4095#32 true).inLen.toNat ≠ 8 * (3 * 4095 * 4095)) ∧
    ((ready [0x0A#8, 0x0B#8, 0x0C#8] 24 1#32 1#32 true).inLen.toNat = 8 * (3 * (1#32).toNat * (1#32).toNat) ∧
      inputBytes (ready [0x0A#8, 0x0B#8, 0x0C#8] 24 1#32 1#32 true) (3 * 1 * 1) = some [0x0A#8, 0x0B#8, 0x0C#8]) := by decide

/-- Both branches of the statement occur: the stand-in's frame fits, the oversized codec's does not. -/
theorem witness_EncodersAbortPastTheBuffer :
    ((ready [0x68#8] 8 0#32 0#32 true).status.busy = false ∧ (ready [0x68#8] 8 0#32 0#32 true).inLen.toNat / 8 ≤ 16777215 ∧
      (ready [0x68#8] 8 0#32 0#32 true).inLen.toNat % 8 = 0 ∧
      inputBytes (ready [0x68#8] 8 0#32 0#32 true) ((ready [0x68#8] 8 0#32 0#32 true).inLen.toNat / 8) = some [0x68#8]) ∧
    ((ready [1#8, 2#8, 3#8] 24 1#32 1#32 true).inLen.toNat = 8 * (3 * 1 * 1) ∧
      inputBytes (ready [1#8, 2#8, 3#8] 24 1#32 1#32 true) ((ready [1#8, 2#8, 3#8] 24 1#32 1#32 true).inLen.toNat / 8) =
        some [1#8, 2#8, 3#8]) ∧
    (frameText standIn []).length ≤ 536870912 ∧ ¬ (frameText oversized [0x68#8]).length ≤ 536870912 := by
  refine ⟨by decide, by decide, by decide, ?_⟩
  have hm : msgBlocks [0x68#8] true = [padBlock [0x68#8]] := by decide +kernel
  simp only [frameText, List.length_append, assemble, bytesToBits_length, hm, List.map_cons, List.map_nil, List.flatten_cons,
    List.flatten_nil, List.append_nil, oversized, List.length_replicate, hdrTextBits_length]
  omega

theorem witness_DecodersCheckTheFrameFirst :
    536870912 < (ready [] 536870913 0#32 0#32 true).inLen.toNat ∧
    (inputBits (ready [0#8] 2 0#32 0#32 true) 2 = some [false, false] ∧ hdrParse [false, false] = .short) ∧
    (inputBits (ready [0xE0#8] 3 0#32 0#32 true) 3 = some [true, true, true] ∧ hdrParse [true, true, true] = .badTag 7) ∧
    (inputBits (ready [0#8, 0#8, 0#8, 0x20#8] 28 0#32 0#32 true) 27 = some (hdrTextBits 1) ∧
      declaredLength (hdrParse (hdrTextBits 1)) = some 1 ∧ (28 - 27) % 8 ≠ 0) ∧
    (inputBits (ready [0#8, 0#8, 0#8, 0x20#8] 27 0#32 0#32 true) 27 = some (hdrTextBits 1) ∧ (27 - 27) % 8 = 0 ∧
      (27 - 27) / 8 < 1) := by decide +kernel

theorem witness_DecDecodesAnImageFrame :
    (withStream shortImage true).status.busy = false ∧ (withStream shortImage true).ctrl.fben = true ∧
    (withStream shortImage true).inLen.toNat ≤ 536870912 ∧
    inputBits (withStream shortImage true) (withStream shortImage true).inLen.toNat = some shortImage ∧
    hdrParse shortImage = .image 1 1 ∧ (shortImage.length - 27) % 8 = 0 ∧ 3 * 1 * 1 ≤ (shortImage.length - 27) / 8 := by
  decide +kernel

/-- A codec that answers every block with more bytes than `OBUF` has, outside its contract (42_codec.md R171). -/
def flooding : Codec where
  enc _ := []
  dec _ := some (List.replicate 67108865 0x00#8)

theorem flooding_passes (c : Bytes) (cs : List Bytes) : 67108864 < (decodedBytes flooding (c :: cs)).length := by
  simp only [decodedBytes, flooding, List.map_cons, List.flatten_cons, List.length_append, Option.getD_some, List.length_replicate]
  omega

/-- Both clauses for any codec occur: three bytes fit, the flooding codec's do not. -/
theorem witness_DecDecodesAnImageFrame_pieces :
    (decodedBytes failing (cwBlocks (region shortImage))).length ≤ 67108864 ∧
    67108864 < (decodedBytes flooding (cwBlocks (region shortImage))).length := by
  have h : cwBlocks (region shortImage) = [[0x0A#8, 0x0B#8, 0x0C#8]] := by decide +kernel
  rw [h]; exact ⟨by decide, flooding_passes _ _⟩

/-- The hypotheses common to the text statements, at the shortest text frame with a block. -/
theorem shortText_read (fben : Bool) :
    (withStream shortText fben).status.busy = false ∧ (withStream shortText fben).ctrl.fben = fben ∧
    (withStream shortText fben).inLen.toNat ≤ 536870912 ∧
    inputBits (withStream shortText fben) (withStream shortText fben).inLen.toNat = some shortText ∧
    hdrParse shortText = .text 1 ∧ (shortText.length - 27) % 8 = 0 ∧ 1 ≤ (shortText.length - 27) / 8 := by
  cases fben <;> decide +kernel

/-- With a codec that answers no byte the payload is short; with one that answers three bytes it is not. -/
theorem witness_DecDecodesATextFrame :
    ((answering []).FitsPort ∧ (decodedBytes (answering []) (cwBlocks (region shortText))).length < 1) ∧
    ((answering [1#8, 2#8, 3#8]).FitsPort ∧
      1 ≤ (decodedBytes (answering [1#8, 2#8, 3#8]) (cwBlocks (region shortText))).length ∧
      (decodedBytes (answering [1#8, 2#8, 3#8]) (cwBlocks (region shortText))).length ≤ 67108864) ∧
    67108864 < (decodedBytes flooding (cwBlocks (region shortText))).length := by
  have h : cwBlocks (region shortText) = [[0x41#8]] := by decide +kernel
  rw [h]
  exact ⟨⟨answering_fitsPort (by decide), by decide⟩, ⟨answering_fitsPort (by decide), by decide, by decide⟩, flooding_passes _ _⟩

/-- The first failing block comes after a piece that passes the end of `OBUF`: the codec floods the first block and fails on the
second. -/
theorem witness_StrictDecStopsAtTheFirstFailure_overflow :
    let k : Codec := { enc := fun _ => [], dec := fun c => if c.length = 255 then some (List.replicate 67108865 0x00#8) else none }
    let bits := hdrTextBits 1 ++ bytesToBits (List.replicate 256 0x41#8)
    cwBlocks (region bits) = [List.replicate 255 0x41#8] ++ [0x41#8] :: [] ∧ k.dec [0x41#8] = none ∧
    (∀ d : Bytes, d ∈ [List.replicate 255 0x41#8] → k.dec d ≠ none) ∧
    67108864 < (decodedBytes k [List.replicate 255 0x41#8]).length := by
  refine ⟨by decide +kernel, rfl, fun d hd => ?_, ?_⟩
  · rw [List.mem_singleton.1 hd]; simp only [List.length_replicate, if_true]; exact Option.some_ne_none _
  · simp only [decodedBytes, List.map_cons, List.map_nil, List.flatten_cons, List.flatten_nil, List.append_nil,
      List.length_replicate, if_true, Option.getD_some]; omega

theorem witness_StrictDecStopsAtTheFirstFailure :
    failingPort.FitsPort ∧ declaredLength (hdrParse shortText) = some 1 ∧
    cwBlocks (region shortText) = [] ++ [0x41#8] :: [] ∧ failingPort.dec [0x41#8] = none ∧
    (∀ d : Bytes, d ∈ ([] : List Bytes) → failingPort.dec d ≠ none) ∧
    (∀ c : Bytes, c ∈ cwBlocks (region shortText) → (answering [1#8]).dec c ≠ none) :=
  ⟨failingPort_fitsPort, by decide +kernel, by decide +kernel, rfl, by simp, fun c _ => by simp [answering]⟩

theorem witness_RawExtractsThePrefixes :
    (1 ≤ (shortText.length - 27) / 8 ∧ 1 ≤ (rawBytes (cwBlocks (region shortText))).length) ∧
    hdrParse shortImage = .image 1 1 ∧ 3 * 1 * 1 ≤ (shortImage.length - 27) / 8 := by decide +kernel

/-- A text frame that declares as many bytes as its one full block has: the prefix is shorter (44_decoder.md R223 (b)). -/
theorem witness_RawExtractsThePrefixes_short :
    hdrParse (hdrTextBits 255 ++ bytesToBits (List.replicate 255 0x41#8)) = .text 255 ∧
    255 ≤ ((hdrTextBits 255 ++ bytesToBits (List.replicate 255 0x41#8)).length - 27) / 8 ∧
    (rawBytes (cwBlocks (region (hdrTextBits 255 ++ bytesToBits (List.replicate 255 0x41#8))))).length < 255 ∧
    inputBits (withStream (hdrTextBits 255 ++ bytesToBits (List.replicate 255 0x41#8)) true) 2067 =
      some (hdrTextBits 255 ++ bytesToBits (List.replicate 255 0x41#8)) :=
  ⟨by decide +kernel, by decide +kernel, by decide +kernel, inputBits_withStream_of _ _ _ (by decide +kernel) (by decide +kernel)⟩

/-- The stand-in, which meets 42_codec.md R163, fails on the one block of the frame: it is too short. -/
theorem witness_DecWithAllBlocksFailingEqualsRaw :
    (∀ bits : Bits, inputBits (withStream shortImage true) (withStream shortImage true).inLen.toNat = some bits →
      ∀ c : Bytes, c ∈ cwBlocks (region bits) → standIn.dec c = none) ∧
    ∃ t : State, execRawWith standIn (withStream shortImage true) = .next t ∧ t.status.err = 0#4 ∧ t.blkcnt = 1#32 := by
  refine ⟨fun bits hb c hc => ?_, _, rfl, by decide +kernel, by decide +kernel⟩
  have hin : inputBits (withStream shortImage true) (withStream shortImage true).inLen.toNat = some shortImage := by decide +kernel
  rw [hin] at hb
  cases hb
  have h : cwBlocks (region shortImage) = [[0x0A#8, 0x0B#8, 0x0C#8]] := by decide +kernel
  rw [h, List.mem_singleton] at hc
  rw [hc]; decide

theorem witness_TextRoundTrip :
    (standIn.EncodeLength ∧ standIn.CleanDecode) ∧ ([0x68#8, 0x69#8] : Bytes).length ≤ 16777215 ∧
    (withStream (frameText standIn [0x68#8, 0x69#8]) false).status.busy = false ∧
    inputBits (withStream (frameText standIn [0x68#8, 0x69#8]) false)
      (withStream (frameText standIn [0x68#8, 0x69#8]) false).inLen.toNat = some (frameText standIn [0x68#8, 0x69#8]) :=
  ⟨⟨standIn_encodeLength, standIn_cleanDecode⟩, by decide, by decide,
    inputBits_withStream_of _ _ _ (by decide +kernel) (by decide +kernel)⟩

theorem witness_ImageRoundTrip :
    ([1#8, 2#8, 3#8] : Bytes).length = 3 * 1 * 1 ∧ (withStream (frameImage standIn [1#8, 2#8, 3#8] 1 1) true).status.busy = false ∧
    inputBits (withStream (frameImage standIn [1#8, 2#8, 3#8] 1 1) true)
      (withStream (frameImage standIn [1#8, 2#8, 3#8] 1 1) true).inLen.toNat =
        some (frameImage standIn [1#8, 2#8, 3#8] 1 1) := by decide +kernel

/-- A codeword of the pixel `01 02 03` with 16 wrong bytes. -/
def damaged : Bytes := List.replicate 16 0xFF#8 ++ List.replicate 19 0x00#8

theorem witness_CorrectableErrorsChangeNothing :
    (oneMessage [1#8, 2#8, 3#8]).EncodeLength ∧
    (∀ m : Bytes, m ∈ msgBlocks [1#8, 2#8, 3#8] false → (oneMessage [1#8, 2#8, 3#8]).CorrectsMessage m) ∧
    List.Forall₂ (fun m c => c.length = ((oneMessage [1#8, 2#8, 3#8]).enc m).length ∧
      differingBytes ((oneMessage [1#8, 2#8, 3#8]).enc m) c ≤ 16) (msgBlocks [1#8, 2#8, 3#8] false) [damaged] ∧
    inputBits (withStream (hdrImageBits 1 1 ++ assemble [damaged]) false) 307 = some (hdrImageBits 1 1 ++ assemble [damaged]) := by
  have hm : msgBlocks [1#8, 2#8, 3#8] false = [[1#8, 2#8, 3#8]] := by decide
  refine ⟨oneMessage_encodeLength _, ?_, ?_, by decide +kernel⟩
  · intro m h; rw [hm] at h; simp only [List.mem_singleton] at h; subst h; exact oneMessage_corrects _
  · rw [hm]; exact .cons (by decide +kernel) .nil

/-- The text clause, at a message of 223 bytes and its codeword with 16 wrong bytes. -/
theorem witness_CorrectableErrorsChangeNothing_text :
    (∀ m : Bytes, m ∈ msgBlocks [0x41#8] true → (oneMessage (padBlock [0x41#8])).CorrectsMessage m) ∧
    List.Forall₂ (fun m c => c.length = ((oneMessage (padBlock [0x41#8])).enc m).length ∧
      differingBytes ((oneMessage (padBlock [0x41#8])).enc m) c ≤ 16) (msgBlocks [0x41#8] true)
      [List.replicate 16 0x42#8 ++ List.replicate 239 0x00#8] ∧
    inputBits (withStream (hdrTextBits 1 ++ assemble [List.replicate 16 0x42#8 ++ List.replicate 239 0x00#8]) true) 2067 =
      some (hdrTextBits 1 ++ assemble [List.replicate 16 0x42#8 ++ List.replicate 239 0x00#8]) := by
  have hm : msgBlocks [0x41#8] true = [padBlock [0x41#8]] := by decide +kernel
  refine ⟨?_, ?_, inputBits_withStream_of _ _ _ (by decide +kernel) (by decide +kernel)⟩
  · intro m h; rw [hm] at h; simp only [List.mem_singleton] at h; subst h; exact oneMessage_corrects _
  · rw [hm]; exact .cons (by decide +kernel) .nil

/-- A text of one byte whose one block the codec fails on; and, of two blocks, a second one that gives its message. -/
theorem witness_OneFailingBlockStaysLocal :
    ([List.replicate 255 0x42#8] : List Bytes).length = ceilDiv ([0x41#8] : Bytes).length 223 ∧
    (∀ b : Bytes, b ∈ [List.replicate 255 0x42#8] → b.length = 255) ∧
    ([List.replicate 255 0x42#8] : List Bytes)[0]? = some (List.replicate 255 0x42#8) ∧
    standIn.dec (List.replicate 255 0x42#8) = none ∧
    inputBits (withStream (hdrTextBits 1 ++ assemble [List.replicate 255 0x42#8]) true) 2067 =
      some (hdrTextBits 1 ++ assemble [List.replicate 255 0x42#8]) ∧
    standIn.dec (standIn.enc (padBlock [0x41#8])) = (msgBlocks (List.replicate 224 0x41#8) true)[1]? :=
  ⟨by decide, fun b h => by rw [List.mem_singleton.1 h, List.length_replicate], by decide +kernel, by decide +kernel,
    inputBits_withStream_of _ _ _ (by decide +kernel) (by decide +kernel), by decide +kernel⟩

theorem witness_RawReadsAnUnalteredFrame :
    standIn.Systematic ∧ (withStream (frameText standIn [0x68#8, 0x69#8]) false).status.busy = false :=
  ⟨standIn_systematic, by decide⟩

theorem witness_PackedHeadersUnpack :
    (ready [] 0 16777215#32 0#32 true).arg0.toNat ≤ 16777215 ∧ (ready [] 0 4095#32 4095#32 true).arg0.toNat ≤ 4095 ∧
    (ready [] 0 4095#32 4095#32 true).arg1.toNat ≤ 4095 ∧ (ready [] 0 4095#32 4095#32 true).status.busy = false := by decide

theorem witness_WrittenInputAlwaysCompletes :
    (∀ a : Nat, a < ceilDiv (withStream shortImage true).inLen.toNat 8 →
      (Memory.get (withStream shortImage true).ibuf a).isSome = true) ∧
    (withStream shortImage true).status.busy = false ∧ Opcode.raw ≠ .nop ∧
    ∃ t : State, exec Opcode.raw.instr (withStream shortImage true) = .next t :=
  ⟨by decide +kernel, by decide, by decide, _, rfl⟩

theorem witness_UnwrittenInputStops :
    (ready [] 8 0#32 0#32 true).status.busy = false ∧ inputBytes (ready [] 8 0#32 0#32 true) 1 = none ∧
    ((ready [] 24 1#32 1#32 true).inLen.toNat = 8 * (3 * 1 * 1) ∧ inputBytes (ready [] 24 1#32 1#32 true) 3 = none) ∧
    inputBits (ready [] 27 0#32 0#32 true) 27 = none ∧
    (inputBits (ready [0#8, 0#8, 0#8, 0x20#8] 35 0#32 0#32 true) 27 = some (hdrTextBits 1) ∧
      declaredLength (hdrParse (hdrTextBits 1)) = some 1 ∧ (35 - 27) % 8 = 0 ∧ 1 ≤ (35 - 27) / 8 ∧
      inputBits (ready [0#8, 0#8, 0#8, 0x20#8] 35 0#32 0#32 true) 35 = none) := by decide +kernel

theorem witness_EngineKeepsTheInput : ∃ t : State, exec .raw (withStream shortImage true) = .next t ∧ t.res0 = 1#32 :=
  ⟨_, rfl, by decide +kernel⟩

theorem witness_CodecRequestsAreWellFormed :
    codecRequest (waiting .enct) = some (encodeRequest (padBlock [0x68#8])) ∧ (waiting .enct).answer = none ∧
    codecRequest { waiting .dec with ibuf := (withStream shortText true).ibuf, inLen := (withStream shortText true).inLen } =
      some (decodeRequest [0x41#8]) := by decide +kernel

theorem witness_SequencerTransitions :
    engineTurn (waiting .enct) = .next (waiting .enct) ∧ (∃ t : State, engineTurn (issue .clr State.reset) = .next t) ∧
    (∃ t : State, engineTurn { waiting .raw with phase := .fin } = .next t) ∧
    (∃ t : State, engineTurn (issue .enci (ready [1#8, 2#8, 3#8] 24 1#32 1#32 true)) = .next t ∧ t.phase = .block ∧
      t.work.t = 1#3) ∧
    (∃ t : State, engineTurn (issue .dec (withStream shortImage true)) = .next t ∧ t.phase = .block ∧ t.work.t = 1#3) :=
  ⟨rfl, ⟨_, rfl⟩, ⟨_, rfl⟩, ⟨_, rfl, by decide +kernel, by decide +kernel⟩, ⟨_, rfl, by decide +kernel, by decide +kernel⟩⟩

/-- Two states with the same operands and different pasts, and a command that completes on the first. -/
theorem witness_NoStateCrossesCommands :
    sameInput (withStream shortImage true) { withStream shortImage true with outLen := 7#32, obuf := [(0, 1#8)] } ∧
    ∃ t : State, exec Opcode.raw.instr (withStream shortImage true) = .next t :=
  ⟨⟨rfl, rfl, rfl, rfl, fun _ _ => rfl⟩, ⟨_, rfl⟩⟩

theorem witness_SmallStepsAgreeWithTheCommand :
    Opcode.dec ≠ .nop ∧ encode Opcode.dec.instr = .command 3#32 ∧ (withStream shortText true).events = [] ∧
    (withStream shortText true).status.busy = false := by decide

theorem witness_StepKeepsTheBuffers : BuffersOk State.reset ∧ ∃ t : State, step State.reset = .next t :=
  ⟨⟨by decide, by decide, fun j hj => by simp [State.reset, ceilDiv] at hj, by simp [State.reset], by simp [State.reset]⟩, _, rfl⟩

theorem witness_StepKeepsTheStatus :
    StatusOk State.reset ∧ ∃ t : State, step { State.reset with events := [.command 5#32] } = .next t :=
  ⟨by constructor <;> simp [State.reset, Status.clear, Work.none], _, rfl⟩

end Sys2Proof.Tests
end

section
namespace Sys2Proof.Machine

/-- No opcode both encodes and decodes. -/
theorem not_encoding_and_decoding {op : Opcode} (he : encoding op = true) (hd : decoding op = true) : False := by
  cases op <;> simp [encoding, decoding] at he hd

/-! ### The buffers: every operation keeps `BuffersOk` -/

theorem ceilDiv_eight_le_capBytes {n : Nat} (h : n ≤ Config.capBits) : ceilDiv n 8 ≤ Config.capBytes := by
  simp only [ceilDiv, Config.capBits, Config.capBytes] at *; omega

/-- A buffer that holds a byte sequence has a value in each of its bytes. -/
theorem Memory.get_ofBytes_isSome {vs : Bytes} {j : Nat} (h : j < vs.length) :
    (Memory.get (Memory.ofBytes vs) j).isSome = true := by simp [h]

/-- Writing bytes takes no value away. -/
theorem Memory.get_setBytes_isSome {m : List Host.Cell} {a j : Nat} (vs : Bytes) (h : (Memory.get m j).isSome = true) :
    (Memory.get (Memory.setBytes m a vs) j).isSome = true := by
  rw [Memory.get_setBytes]
  split
  · rw [List.getElem?_eq_getElem (by omega)]; rfl
  · exact h

/-- An idle engine has nothing in hand: its buffers are in order when the buffers themselves are. -/
theorem BuffersOk.of_idle {s : State} (hi : Memory.wf s.ibuf) (ho : Memory.wf s.obuf)
    (hv : ∀ j, j < ceilDiv s.outLen.toNat 8 → (Memory.get s.obuf j).isSome = true) (hp : s.phase = .idle) : BuffersOk s where
  ibuf := hi
  obuf := ho
  valid := hv
  encoder h := by simp [hp] at h
  decoder h := by simp [hp] at h

/-- With `OUT_LEN = 0` no byte is declared valid. -/
theorem valid_of_outLen_zero {s : State} (h : s.outLen = 0#32) :
    ∀ j, j < ceilDiv s.outLen.toNat 8 → (Memory.get s.obuf j).isSome = true := by simp [h, ceilDiv]

/-- A bitstream that fits, stored in `OBUF` with its length in `OUT_LEN`, by an engine that is idle then. -/
theorem BuffersOk.of_stream {s : State} {bits : Bits} (hi : Memory.wf s.ibuf) (hfit : bits.length ≤ Config.capBits)
    (ho : s.obuf = Memory.ofBytes (packBits bits)) (hl : s.outLen = BitVec.ofNat 32 bits.length) (hp : s.phase = .idle) :
    BuffersOk s := by
  have hfit' := ceilDiv_eight_le_capBytes hfit
  refine .of_idle hi (ho ▸ Memory.wf_ofBytes (by simpa using hfit')) (fun j hj => ?_) hp
  rw [ho]
  refine Memory.get_ofBytes_isSome ?_
  have hlen : s.outLen.toNat = bits.length := by
    rw [hl, BitVec.toNat_ofNat]; simp only [Config.capBits] at hfit; omega
  simpa [hlen] using hj

theorem reset_buffersOk : BuffersOk State.reset :=
  .of_idle Memory.wf_nil Memory.wf_nil (valid_of_outLen_zero rfl) rfl

/-- Every engine step keeps the buffers in order. -/
theorem engineTurn_keeps_buffersOk {s t : State} (hs : BuffersOk s) (h : engineTurn s = .next t) : BuffersOk t := by
  refine engineTurn_induct BuffersOk ?abort ?clr ?header ?pack ?beginEncode ?region ?codeword ?piece ?finishEncode
    ?finishDecode hs h
  case abort => exact fun s _ _ _ hs _ => .of_idle hs.ibuf hs.obuf (valid_of_outLen_zero rfl) rfl
  case clr => exact fun s hs _ => .of_idle hs.ibuf hs.obuf hs.valid rfl
  case header => exact fun s _ _ _ hs _ _ => .of_idle hs.ibuf hs.obuf (valid_of_outLen_zero rfl) rfl
  case pack =>
    exact fun s bits _ _ _ hs _ hbits _ => .of_stream hs.ibuf (by simp [hbits, Config.capBits]) rfl rfl rfl
  case beginEncode =>
    intro s tt len height width header nblk hs _ hop hheader
    refine ⟨hs.ibuf, hs.obuf, hs.valid, fun _ _ => ?_, fun _ hdec => ?_⟩
    · simp [hheader, Config.hdrBits, Config.capBits]
    · rcases hop with ⟨hop, _⟩ | ⟨hop, _⟩ <;> simp [hop, decoding] at hdec
  case region =>
    intro s tt len height width cs hs _ hdec _ hcap _ hfit
    refine ⟨hs.ibuf, hs.obuf, hs.valid, fun _ henc => ?_, fun _ _ => ?_⟩
    · exact (not_encoding_and_decoding henc hdec).elim
    · refine le_trans hfit ?_
      simp only [Config.capBits, Config.capBytes] at *; omega
  case codeword =>
    intro s a hs hp henc _ hfit
    have hout := (hs.encoder (.inl hp) henc).1
    refine ⟨by simpa using hs.ibuf, by simpa using hs.obuf, by simpa using hs.valid, fun _ _ => ?_, fun _ hdec => ?_⟩
    · simp only [advance_work, List.length_append, bytesToBits_length, hout, Config.hdrBits]
      omega
    · exact (not_encoding_and_decoding henc (by simpa using hdec)).elim
  case piece =>
    intro s piece d hs hp hdec _ hfit
    refine ⟨by simpa using hs.ibuf, by simpa using Memory.wf_setBytes piece hs.obuf hfit, ?_, fun _ henc => ?_, fun _ _ => ?_⟩
    · intro j hj
      simp only [advance_outLen, advance_obuf] at hj ⊢
      exact Memory.get_setBytes_isSome piece (hs.valid j hj)
    · exact (not_encoding_and_decoding (by simpa using henc) hdec).elim
    · simpa [payloadLen] using hs.decoder (.inl hp) hdec
  case finishEncode =>
    intro s _ _ _ t hs hp henc _ h
    cases h
    exact .of_stream hs.ibuf (hs.encoder (.inr hp) henc).2 rfl rfl rfl
  case finishDecode =>
    intro s out hs hp hdec hout
    have hfit := hs.decoder (.inr hp) hdec
    refine .of_idle hs.ibuf (Memory.wf_ofBytes (by omega)) (fun j hj => Memory.get_ofBytes_isSome ?_) rfl
    simp only [decodeResults, complete_outLen, BitVec.toNat_ofNat, Config.capBytes, ceilDiv] at hj hfit
    omega

/-- Settles O59: each thing a step can do keeps the invariant, by the induction over a step. -/
theorem stepKeepsTheBuffers : Obligations.StepKeepsTheBuffers := by
  intro s t hs h
  refine step_induct BuffersOk ?ownFields ?engine ?codec ?issue ?refuse ?reset ?store ?registers hs h
  case ownFields => exact fun s _ _ _ hs => ⟨hs.ibuf, hs.obuf, hs.valid, hs.encoder, hs.decoder⟩
  case engine => exact fun s t => engineTurn_keeps_buffersOk
  case codec =>
    intro s hs
    obtain ⟨a, ha⟩ := codecTurn_eq Config.codec s
    rw [ha]
    exact ⟨hs.ibuf, hs.obuf, hs.valid, hs.encoder, hs.decoder⟩
  case issue =>
    exact fun s op hs _ _ => ⟨hs.ibuf, hs.obuf, valid_of_outLen_zero rfl, by simp, by simp⟩
  case refuse =>
    exact fun s w sub hs _ => ⟨hs.ibuf, hs.obuf, valid_of_outLen_zero rfl, hs.encoder, hs.decoder⟩
  case reset => exact reset_buffersOk
  case store =>
    exact fun s i v hs _ hi => ⟨Memory.wf_set v hs.ibuf hi, hs.obuf, hs.valid, hs.encoder, hs.decoder⟩
  case registers => exact fun s _ _ _ _ hs _ => ⟨hs.ibuf, hs.obuf, hs.valid, hs.encoder, hs.decoder⟩

end Sys2Proof.Machine
end

section
namespace Sys2Proof.Machine

/-! ### `STATUS`: every operation keeps `StatusOk` -/

/-- `STATUS` shows `BUSY` alone and every result is 0, as from the issue of a command to its end (45_control.md R249). -/
def ShowsBusy (s : State) : Prop :=
  s.status = { Status.clear with busy := true } ∧ s.outLen = 0#32 ∧ s.res0 = 0#32 ∧ s.res1 = 0#32 ∧ s.blkcnt = 0#32 ∧
    s.failcnt = 0#32 ∧ s.errinfo = 0#32

theorem StatusOk.showsBusy {s : State} (hs : StatusOk s) (hp : s.phase ≠ .idle) : ShowsBusy s :=
  hs.busy_shows (hs.busy_iff.2 hp)

theorem issue_showsBusy (op : Opcode) (s : State) : ShowsBusy (issue op s) := ⟨rfl, rfl, rfl, rfl, rfl, rfl, rfl⟩

/-- While a command runs only the sequencer and the working values are left to check. -/
theorem StatusOk.of_busy {s : State} (hb : ShowsBusy s) (hp : s.phase ≠ .idle)
    (hblock : s.phase = .block → decoding s.work.op = true →
      s.work.nfail ≤ s.blk ∧ s.blk < s.work.nblk ∧ s.work.nblk ≤ 263172)
    (hfin : s.phase = .fin → decoding s.work.op = true → s.work.nfail ≤ s.work.nblk ∧ s.work.nblk ≤ 263172)
    (htag : s.work.t = 0#3 ∨ s.work.t = 1#3)
    (henc : s.phase = .block ∨ s.phase = .fin →
      (s.work.op = .enct → s.work.t = 0#3) ∧ (s.work.op = .enci → s.work.t = 1#3)) : StatusOk s := by
  have hshows := hb
  obtain ⟨hst, hout, hres0, hres1, hblk, hfail, hinfo⟩ := hb
  exact {
    busy_iff := by simp [hst, hp]
    busy_shows := fun _ => hshows
    no_error := by simp [hst, hinfo, Status.clear]
    error := by simp [hst, Status.clear]
    codes := by simp [hst, Status.clear]
    ftype := by simp [hst, Status.clear]
    degraded_iff := by simp [hst, hfail, Status.clear]
    txe_text := by simp [hst, Status.clear]
    idle_rest := fun h => (hp h).elim
    in_block := hblock
    in_fin := hfin
    tag := htag
    encoder_tag := henc }

/-- The engine rests: it is in IDLE, not busy, no answer waits (10_state.md R40). -/
def AtRest (s : State) : Prop :=
  s.phase = .idle ∧ s.status.busy = false ∧ s.blk = 0 ∧ s.answer = none ∧ (s.work.t = 0#3 ∨ s.work.t = 1#3)

theorem errCode_ne_zero (e : ErrKind) : errCode e ≠ 0#4 := by cases e <;> decide

/-- The codes of 10_state.md R34 that stand in `ERR`: 4 is not among them. -/
theorem errCode_range (e : ErrKind) : (errCode e).toNat < 8 ∧ errCode e ≠ 4#4 := by cases e <;> decide

/-- At rest after an error: the results are 0 and the error stands in `STATUS` and `ERRINFO`. -/
theorem StatusOk.of_error {s : State} {sub : BitVec 2} (hr : AtRest s) (e : ErrKind)
    (hst : s.status =
      { busy := false, done := true, degraded := false, txe := false, ftype := 0#3, err := errCode e, errsub := sub })
    (hout : s.outLen = 0#32) (hres0 : s.res0 = 0#32) (hres1 : s.res1 = 0#32) (hblk : s.blkcnt = 0#32)
    (hfail : s.failcnt = 0#32) : StatusOk s := by
  obtain ⟨hp, hbusy, hb, ha, htag⟩ := hr
  exact {
    busy_iff := by simp [hp, hbusy]
    busy_shows := by simp [hbusy]
    no_error := by simp [hst, errCode_ne_zero]
    error := by simp [hst, hout, hres0, hres1, hblk, hfail]
    codes := by simpa [hst] using errCode_range e
    ftype := by simp [hst]
    degraded_iff := by simp [hst, hfail]
    txe_text := by simp [hst]
    idle_rest := fun _ => ⟨hb, ha⟩
    in_block := by simp [hp]
    in_fin := by simp [hp]
    tag := htag
    encoder_tag := by simp [hp] }

/-- At rest without an error: the flags agree with the results. -/
theorem StatusOk.of_success {s : State} {done degraded txe : Bool} {ft : BitVec 3} (hr : AtRest s)
    (hst : s.status =
      { busy := false, done := done, degraded := degraded, txe := txe, ftype := ft, err := 0#4, errsub := 0#2 })
    (hinfo : s.errinfo = 0#32) (hft : ft = 0#3 ∨ ft = 1#3) (hdeg : degraded = true ↔ s.failcnt ≠ 0#32)
    (htxe : txe = true → ft = 0#3) : StatusOk s := by
  obtain ⟨hp, hbusy, hb, ha, htag⟩ := hr
  exact {
    busy_iff := by simp [hp, hbusy]
    busy_shows := by simp [hbusy]
    no_error := by simp [hst, hinfo]
    error := by simp [hst]
    codes := by simp [hst]
    ftype := by simpa [hst] using hft
    degraded_iff := by simpa [hst] using hdeg
    txe_text := by simpa [hst] using htxe
    idle_rest := fun _ => ⟨hb, ha⟩
    in_block := by simp [hp]
    in_fin := by simp [hp]
    tag := htag
    encoder_tag := by simp [hp] }

theorem reset_statusOk : StatusOk State.reset :=
  .of_success ⟨rfl, rfl, rfl, rfl, .inl rfl⟩ rfl rfl (.inl rfl) (by simp [State.reset]) (by simp)

/-- An abort leaves `STATUS` in order, whatever was there before (60_exceptions.md R268). -/
theorem raise_statusOk (e : ErrKind) (sub : BitVec 2) (info : Nat) (s : State) : StatusOk (raise e sub info s) :=
  .of_error ⟨rfl, rfl, rfl, rfl, .inl rfl⟩ e rfl rfl rfl rfl rfl rfl

/-- `DEGRADED` is set exactly when `FAILCNT` reads more than 0, for a count that fits the register (10_state.md R31). -/
theorem degradedFlag_iff {n : Nat} (h : n ≤ 263172) : degradedFlag n = true ↔ BitVec.ofNat 32 n ≠ 0#32 := by
  simp only [degradedFlag, decide_eq_true_eq, ne_eq, ← BitVec.toNat_inj, BitVec.toNat_ofNat]; omega

/-- The number of codeword blocks of the input (41_chunker.md R145). -/
theorem codewordBlocks_length {s : State} {cs : List Bytes} (h : codewordBlocks s = some cs) :
    cs.length = ceilDiv ((s.inLen.toNat - 27) / 8) 255 := by
  simp only [codewordBlocks, Option.map_eq_some_iff] at h
  obtain ⟨bits, hbits, rfl⟩ := h
  simp [region_length, inputBits_length hbits]

theorem enterBlocks_phase_eq_block (s : State) : (enterBlocks s).phase = .block ↔ 0 < s.work.nblk := by simp

theorem enterBlocks_phase_ne_idle (s : State) : (enterBlocks s).phase ≠ .idle := by
  rw [enterBlocks_phase]; split <;> decide

theorem advance_phase_eq_block (s : State) : (advance s).phase = .block ↔ s.blk + 1 < s.work.nblk := by simp

theorem advance_phase_ne_idle (s : State) : (advance s).phase ≠ .idle := by
  rw [advance_phase]; split <;> decide

/-- Every engine step keeps `STATUS` in order. -/
theorem engineTurn_keeps_statusOk {s t : State} (hs : StatusOk s) (h : engineTurn s = .next t) : StatusOk t := by
  refine engineTurn_induct StatusOk ?abort ?clr ?header ?pack ?beginEncode ?region ?codeword ?piece ?finishEncode
    ?finishDecode hs h
  case abort => exact fun s e sub info _ _ => raise_statusOk e sub info s
  case clr =>
    intro s hs hp
    obtain ⟨hst, _, _, _, _, hfail, hinfo⟩ := hs.showsBusy (by simp [hp])
    exact .of_success (ft := 0#3) ⟨rfl, rfl, rfl, rfl, .inl rfl⟩ (by rw [toIdle_status, hst]; rfl) hinfo (.inl rfl)
      (by simp [hfail, Status.clear]) (by simp)
  case header =>
    intro s ft a b hs hp hft
    obtain ⟨hst, _, _, _, _, _, hinfo⟩ := hs.showsBusy (by simp [hp])
    exact .of_success ⟨rfl, rfl, rfl, rfl, .inl rfl⟩ (by rw [headerResults, complete_status, hst]; rfl) hinfo hft
      (by simp [headerResults, Status.clear]) (by simp [Status.clear])
  case pack =>
    intro s bits ft a b hs hp _ hft
    obtain ⟨hst, _, _, _, _, _, hinfo⟩ := hs.showsBusy (by simp [hp])
    exact .of_success ⟨rfl, rfl, rfl, rfl, .inl rfl⟩ (by rw [packedHeader, complete_status, hst]; rfl) hinfo hft
      (by simp [packedHeader, Status.clear]) (by simp [Status.clear])
  case beginEncode =>
    intro s tt len height width header nblk hs hp hop _
    have hb := hs.showsBusy (by simp [hp])
    refine .of_busy hb (enterBlocks_phase_ne_idle _) (fun _ hdec => ?_) (fun _ hdec => ?_) ?_ (fun _ => ?_)
    all_goals rcases hop with ⟨hop, rfl⟩ | ⟨hop, rfl⟩ <;> simp_all [decoding]
  case region =>
    intro s tt len height width cs hs hp hdec htt hcap hcs _
    have hb := hs.showsBusy (by simp [hp])
    have hlen : cs.length ≤ 263172 := by
      rw [codewordBlocks_length hcs]; simp only [ceilDiv, Config.capBits] at *; omega
    refine .of_busy hb (enterBlocks_phase_ne_idle _) (fun hblock _ => ⟨?_, ?_, hlen⟩) (fun _ _ => ⟨Nat.zero_le _, hlen⟩) htt (fun _ => ?_)
    · simp
    · exact (enterBlocks_phase_eq_block _).1 hblock
    · constructor <;> intro hop <;> simp_all [decoding, setHeader]
  case codeword =>
    intro s a hs hp henc _ _
    have hb := hs.showsBusy (by simp [hp])
    refine .of_busy (by simpa [ShowsBusy] using hb) (advance_phase_ne_idle _) (fun _ hdec => ?_) (fun _ hdec => ?_) (by simpa using hs.tag)
      (fun _ => ?_)
    · exact (not_encoding_and_decoding henc (by simpa using hdec)).elim
    · exact (not_encoding_and_decoding henc (by simpa using hdec)).elim
    · simpa using hs.encoder_tag (.inl hp)
  case piece =>
    intro s piece d hs hp hdec hd _
    have hb := hs.showsBusy (by simp [hp])
    obtain ⟨hnfail, hblk, hnblk⟩ := hs.in_block hp hdec
    refine .of_busy (by simpa [ShowsBusy] using hb) (advance_phase_ne_idle _) (fun hblock _ => ?_) (fun _ _ => ?_) (by simpa using hs.tag)
      (fun _ => ?_)
    · have hnext := (advance_phase_eq_block _).1 hblock
      rw [advance_work, advance_blk, if_pos hnext]
      dsimp only at hnext ⊢
      omega
    · rw [advance_work]
      dsimp only
      omega
    · simpa using hs.encoder_tag (.inl hp)
  case finishEncode =>
    intro s ft a b t hs hp _ hft h
    obtain ⟨hst, _, _, _, _, _, hinfo⟩ := hs.showsBusy (by simp [hp])
    cases h
    exact .of_success ⟨rfl, rfl, rfl, rfl, .inl rfl⟩ (by rw [complete_status, hst]; rfl) hinfo hft
      (by simp [Status.clear]) (by simp [Status.clear])
  case finishDecode =>
    intro s out hs hp hdec _
    obtain ⟨hst, _, _, _, _, _, hinfo⟩ := hs.showsBusy (by simp [hp])
    obtain ⟨hnfail, hnblk⟩ := hs.in_fin hp hdec
    exact .of_success ⟨rfl, rfl, rfl, rfl, .inl rfl⟩ (by rw [decodeResults, complete_status, hst]; rfl) hinfo hs.tag
      (degradedFlag_iff (by omega)) (by simp +contextual [txeFlag])

/-- Settles O60: each thing a step can do keeps the invariant, by the induction over a step. -/
theorem stepKeepsTheStatus : Obligations.StepKeepsTheStatus := by
  intro s t hs h
  refine step_induct StatusOk ?ownFields ?engine ?codec ?issue ?refuse ?reset ?store ?registers hs h
  case ownFields =>
    exact fun s _ _ _ hs => { hs with }
  case engine => exact fun s t => engineTurn_keeps_statusOk
  case codec =>
    intro s hs
    by_cases hp : s.phase = .idle
    · rwa [codecTurn_of_no_request (codecRequest_of_phase (by simp [hp]))]
    · obtain ⟨a, ha⟩ := codecTurn_eq Config.codec s
      rw [ha]
      exact { hs with idle_rest := fun h => (hp h).elim }
  case issue =>
    intro s op _ _ _
    exact .of_busy (issue_showsBusy op s) (by simp) (by simp) (by simp) (by simp [Work.none]) (by simp)
  case refuse =>
    intro s w sub hs hb
    have hp : s.phase = .idle := by
      by_contra hp
      simpa [hb] using hs.busy_iff.2 hp
    obtain ⟨hblk, hans⟩ := hs.idle_rest hp
    exact .of_error ⟨hp, hb, hblk, hans, hs.tag⟩ .illegalCommand (by rw [refuseIllegal_status, hb]; rfl) rfl rfl rfl rfl rfl
  case reset => exact reset_statusOk
  case store => exact fun s i v hs _ _ => { hs with }
  case registers => exact fun s _ _ _ _ hs _ => { hs with }

end Sys2Proof.Machine
end

section
namespace Sys2Proof.Machine

/-! ### Reset and the register port -/

/-- Settles O1: each register has its reset value, and neither buffer lists a byte. -/
theorem resetLeavesTheMachineIdle : Obligations.ResetLeavesTheMachineIdle := by
  have hregs : ∀ r : Reg, regValue State.reset r = match r with | .id => 0x00FFDF20#32 | .ctrl => 0x00000001#32 | _ => 0#32 := by
    intro r; cases r <;> decide
  have hloads : ∀ i : Nat,
      hostLoadIn i State.reset = returnFreeByte State.reset ∧ hostLoadOut i State.reset = returnFreeByte State.reset := by
    intro i
    constructor
    · rw [hostLoadIn]; exact ite_self _
    · rw [hostLoadOut]; exact ite_self _
  exact ⟨hregs, rfl, rfl, rfl, rfl, rfl, hloads, rfl⟩

/-- Settles O2: the state after reset is idle, with empty buffers and a clear `STATUS`. -/
theorem resetMeetsTheInvariants : Obligations.ResetMeetsTheInvariants := ⟨reset_buffersOk, reset_statusOk⟩

/-- With an action pending, a step performs it on the state without it. -/
theorem step_of_event {s : State} {e : Event} {rest : List Event} (h : s.events = e :: rest) :
    step s = eventStep e { s with events := rest } := by rw [step, h]

/-- The registers a host may read while busy are `ID`, `CTRL` and `STATUS` (10_state.md R24 (c)). -/
theorem readableBusy_regAt_iff (r : Fin 16) : readableBusy (regAt r) = true ↔ r = 0 ∨ r = 1 ∨ r = 3 := by
  revert r; decide

/-- A register that may be read returns its value (10_state.md R24 (b)). -/
theorem hostRead_of_readable {s : State} {reg : Fin 16} (h : s.status.busy = false ∨ readableBusy (regAt reg) = true) :
    hostRead reg s = returnWord (regValue s (regAt reg)) s := by
  rw [hostRead, if_neg]; rcases h with h | h <;> simp [h]

/-- While busy every other register reads as a free value (10_state.md R24 (c)). -/
theorem hostRead_of_unreadable {s : State} {reg : Fin 16} (hb : s.status.busy = true)
    (h : readableBusy (regAt reg) = false) : hostRead reg s = returnFreeWord s := by simp [hostRead, hb, h]

theorem hostLoadIn_busy {s : State} (i : Nat) (hb : s.status.busy = true) : hostLoadIn i s = returnFreeByte s := by
  simp [hostLoadIn, hb]

theorem hostLoadOut_busy {s : State} (i : Nat) (hb : s.status.busy = true) : hostLoadOut i s = returnFreeByte s := by
  simp [hostLoadOut, hb]

/-- Settles O20: a register read, then a read of either buffer while busy. -/
theorem readsChangeNothing : Obligations.ReadsChangeNothing := by
  refine ⟨fun s reg rest he => ⟨fun h => ?_, fun hb h0 h1 h3 => ?_⟩, fun s i rest hb he => ?_⟩
  · rw [step_of_event he]
    exact congrArg _ (hostRead_of_readable (s := { s with events := rest }) (h.imp id (readableBusy_regAt_iff reg).2))
  · have hreg : readableBusy (regAt reg) = false := by
      rw [← Bool.not_eq_true, readableBusy_regAt_iff]; tauto
    rw [step_of_event he]
    exact congrArg _ (hostRead_of_unreadable (s := { s with events := rest }) hb hreg)
  · rcases he with he | he <;> rw [step_of_event he]
    · exact congrArg _ (hostLoadIn_busy (s := { s with events := rest }) i hb)
    · exact congrArg _ (hostLoadOut_busy (s := { s with events := rest }) i hb)

/-! ### Register writes -/

/-- `CTRL` bit by bit (10_state.md R25). -/
theorem ctrlWord_getLsbD (c : Ctrl) (i : Nat) :
    (ctrlWord c).getLsbD i = if i = 0 then c.fben else if i = 1 then c.ien else false := by
  simp only [ctrlWord, BitVec.getLsbD_append, BitVec.getLsbD_ofBool, BitVec.getLsbD_zero]
  grind

/-- What `CTRL` stores of a word is its two defined bits (10_state.md R25). -/
theorem ctrlWord_ctrlOfWord (v : Word) : ctrlWord (ctrlOfWord v) = v &&& 0x00000003#32 := by
  have hmask : (0x00000003#32 : Word) = ctrlWord { fben := true, ien := true } := by decide
  apply BitVec.eq_of_getLsbD_eq
  intro i hi
  rw [BitVec.getLsbD_and, hmask, ctrlWord_getLsbD, ctrlWord_getLsbD, ctrlOfWord]
  grind

/-- `STATUS` bit by bit (10_state.md R28). -/
theorem statusWord_getLsbD (st : Status) (i : Nat) :
    (statusWord st).getLsbD i =
      if i = 0 then st.busy else if i = 1 then st.done else if i = 2 then st.degraded else if i = 3 then st.txe
      else if i < 7 then st.ftype.getLsbD (i - 4) else if i < 8 then false
      else if i < 12 then st.err.getLsbD (i - 8) else if i < 14 then st.errsub.getLsbD (i - 12) else false := by
  simp only [statusWord, BitVec.getLsbD_append, BitVec.getLsbD_ofBool, BitVec.getLsbD_zero, Nat.sub_sub]
  by_cases hi : i < 8
  · interval_cases i <;> rfl
  · simp (disch := omega) only [if_neg]
    grind

/-- Settles O22: each field is read off the words bit by bit. -/
theorem registerLayouts : Obligations.RegisterLayouts := by
  refine ⟨fun st => ?_, fun c => ?_, fun s => rfl⟩
  · refine ⟨?_, ?_, ?_, ?_, BitVec.eq_of_getLsbD_eq fun i hi => ?_, ?_, BitVec.eq_of_getLsbD_eq fun i hi => ?_,
      BitVec.eq_of_getLsbD_eq fun i hi => ?_, BitVec.eq_of_getLsbD_eq fun i hi => ?_⟩
    all_goals simp only [BitVec.getLsbD_extractLsb', statusWord_getLsbD, BitVec.getLsbD_zero]
    all_goals grind
  · refine ⟨?_, ?_, BitVec.eq_of_getLsbD_eq fun i hi => ?_⟩
    all_goals simp only [BitVec.getLsbD_extractLsb', ctrlWord_getLsbD, BitVec.getLsbD_zero]
    all_goals grind

/-! ### Register writes -/

/-- The writable registers have one index each (10_state.md R21). -/
theorem regAt_eq_iff (r : Fin 16) : (regAt r = .ctrl ↔ r = 1) ∧ (regAt r = .cmd ↔ r = 2) ∧
    (regAt r = .arg0 ↔ r = 4) ∧ (regAt r = .arg1 ↔ r = 5) ∧ (regAt r = .inLen ↔ r = 6) := by
  revert r; decide

theorem regValue_of_ctrl (s : State) (c : Ctrl) (r : Reg) :
    regValue { s with ctrl := c } r = if r = .ctrl then ctrlWord c else regValue s r := by cases r <;> rfl

theorem regValue_of_arg0 (s : State) (v : Word) (r : Reg) :
    regValue { s with arg0 := v } r = if r = .arg0 then v else regValue s r := by cases r <;> rfl

theorem regValue_of_arg1 (s : State) (v : Word) (r : Reg) :
    regValue { s with arg1 := v } r = if r = .arg1 then v else regValue s r := by cases r <;> rfl

theorem regValue_of_inLen (s : State) (v : Word) (r : Reg) :
    regValue { s with inLen := v } r = if r = .inLen then v else regValue s r := by cases r <;> rfl

theorem regValue_of_events (s : State) (es : List Event) (r : Reg) :
    regValue { s with events := es } r = regValue s r := by cases r <;> rfl

/-- What a write to a register but `CMD` does while not busy (10_state.md R24, R25, R36, R37). -/
theorem hostWrite_cases {s : State} {reg : Fin 16} (v : Word) (hb : s.status.busy = false) (hne : reg ≠ 2) :
    (reg = 1 ∧ hostWrite reg v s = { s with ctrl := ctrlOfWord v }) ∨ (reg = 4 ∧ hostWrite reg v s = { s with arg0 := v }) ∨
    (reg = 5 ∧ hostWrite reg v s = { s with arg1 := v }) ∨ (reg = 6 ∧ hostWrite reg v s = { s with inLen := v }) ∨
    (reg ≠ 1 ∧ reg ≠ 4 ∧ reg ≠ 5 ∧ reg ≠ 6 ∧ hostWrite reg v s = s) := by
  obtain ⟨hctrl, hcmd, harg0, harg1, hin⟩ := regAt_eq_iff reg
  unfold hostWrite
  rw [if_neg (by simp [hb])]
  split <;> simp_all

/-- Settles O21: the four registers a write changes, and those that ignore it. -/
theorem registerWrites : Obligations.RegisterWrites := by
  intro s reg v rest hb hne he
  refine ⟨hostWrite reg v { s with events := rest }, step_of_event he, ?_⟩
  rcases hostWrite_cases (s := { s with events := rest }) v hb hne with
    ⟨rfl, h⟩ | ⟨rfl, h⟩ | ⟨rfl, h⟩ | ⟨rfl, h⟩ | ⟨h1, h4, h5, h6, h⟩
  all_goals
    rw [h]
    refine ⟨fun r => ?_, rfl, rfl, rfl, rfl, rfl, rfl, rfl, rfl, rfl⟩
    obtain ⟨hctrl, hcmd, harg0, harg1, hin⟩ := regAt_eq_iff r
  · rw [regValue_of_ctrl, regValue_of_events, ctrlWord_ctrlOfWord]; simp only [hctrl]; split <;> simp_all
  · rw [regValue_of_arg0, regValue_of_events]; simp only [harg0]; split <;> simp_all
  · rw [regValue_of_arg1, regValue_of_events]; simp only [harg1]; split <;> simp_all
  · rw [regValue_of_inLen, regValue_of_events]; simp only [hin]; split <;> simp_all
  · rw [regValue_of_events]; split <;> simp_all

end Sys2Proof.Machine
end

section
namespace Sys2Proof.Machine

/-! ### Commands as runs of the engine -/

/-- An instruction is a command or one of the two wire headers. -/
theorem instr_cases (i : Instr) :
    (∃ op : Opcode, i = op.instr) ∨ (∃ len, i = .hdrText len) ∨ ∃ height width, i = .hdrImage height width := by
  cases i with
  | nop => exact .inl ⟨.nop, rfl⟩
  | enct => exact .inl ⟨.enct, rfl⟩
  | enci => exact .inl ⟨.enci, rfl⟩
  | dec => exact .inl ⟨.dec, rfl⟩
  | raw => exact .inl ⟨.raw, rfl⟩
  | hpkt => exact .inl ⟨.hpkt, rfl⟩
  | hpki => exact .inl ⟨.hpki, rfl⟩
  | hunp => exact .inl ⟨.hunp, rfl⟩
  | clr => exact .inl ⟨.clr, rfl⟩
  | hdrText len => exact .inr (.inl ⟨len, rfl⟩)
  | hdrImage height width => exact .inr (.inr ⟨height, width, rfl⟩)

/-- A command other than `NOP` is a run of its own phases with the attached codec. -/
theorem exec_command {op : Opcode} (h : op ≠ .nop) (s : State) :
    exec op.instr s = runCommand Config.codec (opPhases op) op s := by
  cases op with
  | nop => contradiction
  | _ => rfl

/-- An engine step does not change the command: it goes on with it or ends it. -/
theorem engineTurn_keeps_op {s t : State} (h : engineTurn s = .next t) : t.work.op = s.work.op ∨ t.phase = .idle := by
  refine engineTurn_induct (fun u => u.work.op = s.work.op ∨ u.phase = .idle) ?abort ?clr ?header ?pack ?beginEncode ?region
    ?codeword ?piece ?finishEncode ?finishDecode (.inl rfl) h
  case abort => exact fun _ _ _ _ _ _ => .inr rfl
  case clr => exact fun _ _ _ => .inr rfl
  case header => exact fun _ _ _ _ _ _ _ => .inr rfl
  case pack => exact fun _ _ _ _ _ _ _ _ _ => .inr rfl
  case beginEncode => exact fun u _ _ _ _ _ _ hu hp _ _ => .inl (hu.resolve_right (by simp [hp]))
  case region => exact fun u _ _ _ _ _ hu hp _ _ _ _ _ => .inl (hu.resolve_right (by simp [hp]))
  case codeword => exact fun u _ hu hp _ _ _ => .inl (by simpa using hu.resolve_right (by simp [hp]))
  case piece => exact fun u _ _ hu hp _ _ _ => .inl (by simpa using hu.resolve_right (by simp [hp]))
  case finishEncode => exact fun u _ _ _ t _ _ _ _ h => .inr (by cases h; rfl)
  case finishDecode => exact fun _ _ _ _ _ _ => .inr rfl

/-- A property that the issue of a command gives, and every codec turn and engine step keeps, holds where it ends. -/
theorem command_induct (P : State → Prop) {k : Codec} {op : Opcode} {s t : State}
    (hissue : s.status.busy = false → P (issue op s)) (hbusy : s.status.busy = true → P s)
    (hcodec : ∀ u, P u → P (codecTurn k u)) (hstep : ∀ u v, P u → engineTurn u = .next v → P v)
    (h : runCommand k (opPhases op) op s = .next t) : P t := by
  cases hb : s.status.busy with
  | true => rw [runCommand_busy hb] at h; cases h; exact hbusy hb
  | false =>
    refine (runCommand_induct (fun u => P u ∧ (u.work.op = op ∨ u.phase = .idle)) (fun _ => ⟨hissue hb, .inl rfl⟩)
      (fun hb' => by simp [hb] at hb') ?codec ?step h).1
    case codec =>
      rintro u ⟨hu, hop⟩
      obtain ⟨a, ha⟩ := codecTurn_eq k u
      exact ⟨hcodec u hu, by rw [ha]; exact hop⟩
    case step =>
      rintro u v ⟨hu, hop⟩ h
      by_cases hp : u.phase = .idle
      · have hv : u = v := by simpa [phaseStep, hp] using h
        exact hv ▸ ⟨hu, hop⟩
      · have hop := hop.resolve_right hp
        have h : engineTurn u = .next v := by rw [engineTurn, hop]; exact h
        exact ⟨hstep u v hu h, hop ▸ engineTurn_keeps_op h⟩

/-! ### What the engine leaves alone -/

/-- `t` has the operands, the control bits, `IBUF` and the model's own fields of `s` (10_state.md R46). -/
def KeepsInput (s t : State) : Prop :=
  t.ctrl = s.ctrl ∧ t.arg0 = s.arg0 ∧ t.arg1 = s.arg1 ∧ t.inLen = s.inLen ∧ t.ibuf = s.ibuf ∧ t.events = s.events ∧
    t.portData = s.portData ∧ t.freeCount = s.freeCount

theorem KeepsInput.refl (s : State) : KeepsInput s s := ⟨rfl, rfl, rfl, rfl, rfl, rfl, rfl, rfl⟩

/-- No engine step changes the input. -/
theorem engineTurn_keepsInput {s t : State} (h : engineTurn s = .next t) : KeepsInput s t := by
  refine engineTurn_induct (KeepsInput s) ?abort ?clr ?header ?pack ?beginEncode ?region ?codeword ?piece ?finishEncode
    ?finishDecode (.refl s) h
  case abort => exact fun _ _ _ _ hu _ => hu
  case clr => exact fun _ hu _ => hu
  case header => exact fun _ _ _ _ hu _ _ => hu
  case pack => exact fun _ _ _ _ _ hu _ _ _ => hu
  case beginEncode => exact fun _ _ _ _ _ _ _ hu _ _ _ => hu
  case region => exact fun _ _ _ _ _ _ hu _ _ _ _ _ _ => hu
  case codeword => exact fun _ _ hu _ _ _ _ => by simpa [KeepsInput] using hu
  case piece => exact fun _ _ _ hu _ _ _ _ => by simpa [KeepsInput] using hu
  case finishEncode => exact fun _ _ _ _ t hu _ _ _ h => by cases h; exact hu
  case finishDecode => exact fun _ _ hu _ _ _ => hu

theorem codecTurn_keepsInput (k : Codec) (s : State) : KeepsInput s (codecTurn k s) := by
  obtain ⟨a, ha⟩ := codecTurn_eq k s
  exact ha ▸ .refl s

theorem KeepsInput.trans {s t u : State} (h1 : KeepsInput s t) (h2 : KeepsInput t u) : KeepsInput s u := by
  unfold KeepsInput at *; simp_all

/-- No command changes the input. -/
theorem command_keepsInput {k : Codec} {op : Opcode} {s t : State} (h : runCommand k (opPhases op) op s = .next t) :
    KeepsInput s t :=
  command_induct (KeepsInput s) (fun _ => .refl s) (fun _ => .refl s) (fun _ hu => hu.trans (codecTurn_keepsInput k _))
    (fun _ _ hu h => hu.trans (engineTurn_keepsInput h)) h

theorem enterRegion_keepsInput {s t : State} (h : enterRegion s = .next t) : KeepsInput s t := by
  rcases enterRegion_cases h with ⟨sub, rfl⟩ | ⟨cs, _, _, _, rfl⟩
  · exact .refl s
  · exact .refl s

/-- Settles O54: a command by the induction over its run, a wire header by what it can do. -/
theorem engineKeepsTheInput : Obligations.EngineKeepsTheInput := by
  intro i s t h
  show KeepsInput s t
  rcases instr_cases i with ⟨op, rfl⟩ | ⟨len, rfl⟩ | ⟨height, width, rfl⟩
  · by_cases hop : op = .nop
    · subst hop; cases h; exact .refl s
    · exact command_keepsInput (exec_command hop s ▸ h)
  · rcases execHdrText_cases h with ⟨rfl, _⟩ | ⟨_, _, rfl⟩ | ⟨_, _, h⟩
    · exact .refl t
    · exact .refl s
    · have hkeeps := enterRegion_keepsInput h
      exact hkeeps
  · rcases execHdrImage_cases h with ⟨rfl, _⟩ | ⟨_, _, rfl⟩ | ⟨_, _, h⟩
    · exact .refl t
    · exact .refl s
    · have hkeeps := enterRegion_keepsInput h
      exact hkeeps

end Sys2Proof.Machine
end

section
namespace Sys2Proof.Machine

/-! ### The moves of the sequencer -/

/-- The blocks of the running frame command (43_encoder.md R181, R184, 44_decoder.md R204). -/
def commandBlocks (s : State) : Option (List Bytes) :=
  match s.work.op with
  | .enct => textBlocks s
  | .enci => imageBlocks s
  | .dec => codewordBlocks s
  | .raw => codewordBlocks s
  | _ => none

/-- The opcodes that work on the blocks of a frame. -/
def framing (op : Opcode) : Prop := encoding op = true ∨ decoding op = true

/-- The blocks depend on the command and the input alone. -/
theorem commandBlocks_congr {s t : State} (hop : t.work.op = s.work.op) (hbuf : t.ibuf = s.ibuf) (hlen : t.inLen = s.inLen) :
    commandBlocks t = commandBlocks s := by
  simp only [commandBlocks, hop, textBlocks_congr hbuf hlen, imageBlocks_congr hbuf hlen, codewordBlocks_congr hbuf hlen]

theorem textBlocks_length {s : State} {bs : List Bytes} (h : textBlocks s = some bs) :
    bs.length = ceilDiv (s.inLen.toNat / 8) 223 := by
  obtain ⟨B, hB, rfl⟩ := Option.map_eq_some_iff.1 h
  rw [msgBlocks_length, inputBytes_length hB]

theorem imageBlocks_length {s : State} {bs : List Bytes} (h : imageBlocks s = some bs) :
    bs.length = ceilDiv (s.inLen.toNat / 8) 223 := by
  obtain ⟨B, hB, rfl⟩ := Option.map_eq_some_iff.1 h
  rw [msgBlocks_length, inputBytes_length hB]

/-- The working values phase HDR of a frame command sets besides the counts (10_state.md R43, 45_control.md R248). -/
def HeaderValues (s : State) (w : Work) : Prop :=
  (s.work.op = .enct → w.t = 0#3 ∧ w.l = s.inLen.toNat / 8 ∧ w.nblk = ceilDiv (s.inLen.toNat / 8) 223 ∧
    w.out = hdrTextBits (s.inLen.toNat / 8)) ∧
  (s.work.op = .enci → w.t = 1#3 ∧ w.h = s.arg0.toNat ∧ w.w = s.arg1.toNat ∧
    w.nblk = ceilDiv (3 * s.arg0.toNat * s.arg1.toNat) 223 ∧ w.out = hdrImageBits s.arg0.toNat s.arg1.toNat) ∧
  (decoding s.work.op = true → w.nblk = ceilDiv ((s.inLen.toNat - 27) / 8) 255 ∧
    ∃ bits : Bits, inputBits s (min s.inLen.toNat 27) = some bits ∧
      ((hdrParse bits = .text w.l ∧ w.t = 0#3) ∨ (hdrParse bits = .image w.h w.w ∧ w.t = 1#3)))

/-- `t` is `s` gone on from phase HDR to the blocks `bs` or, if there are none, to phase FIN. -/
def EntersBlocks (s t : State) (bs : List Bytes) : Prop :=
  ∃ w : Work, t = enterBlocks { s with work := w } ∧ w.op = s.work.op ∧ w.nblk = bs.length ∧ w.acc = 0 ∧ w.nfail = 0 ∧
    HeaderValues s w

/-- The region checks of a decode abort or go on, with the values of the header. -/
theorem enterRegion_setHeader_cases {s t : State} {tt : BitVec 3} {len height width : Nat} {bits : Bits}
    (hdec : s.work.op = .dec ∨ s.work.op = .raw) (hbits : inputBits s (min s.inLen.toNat 27) = some bits)
    (hparse : (hdrParse bits = .text len ∧ tt = 0#3) ∨ (hdrParse bits = .image height width ∧ tt = 1#3))
    (h : enterRegion (setHeader tt len height width s) = .next t) :
    (∃ e sub info, t = raise e sub info s) ∨ ∃ bs, commandBlocks s = some bs ∧ EntersBlocks s t bs := by
  rcases enterRegion_cases h with ⟨sub, rfl⟩ | ⟨cs, hcs, _, _, rfl⟩
  · exact .inl ⟨_, sub, _, rfl⟩
  · have hcs : codewordBlocks s = some cs := hcs
    refine .inr ⟨cs, ?_, _, rfl, rfl, rfl, rfl, rfl, ?_, ?_, fun _ => ⟨codewordBlocks_length hcs, bits, hbits, hparse⟩⟩
    · rcases hdec with hop | hop <;> simp [commandBlocks, hop, hcs]
    · intro hop; simp [hop] at hdec
    · intro hop; simp [hop] at hdec

/-- Phase HDR of a decode aborts or goes on to the blocks. -/
theorem fetchHeader_decode_cases {s t : State} (hp : s.phase = .hdr) (hdec : s.work.op = .dec ∨ s.work.op = .raw)
    (h : fetchHeader s = .next t) :
    (∃ e sub info, t = raise e sub info s) ∨ ∃ bs, commandBlocks s = some bs ∧ EntersBlocks s t bs := by
  have hne : s.work.op ≠ .hunp := by rcases hdec with h | h <;> simp [h]
  rcases fetchHeader_cases h with habort | ⟨_, bits, hbits, ⟨len, hl, h⟩ | ⟨height, width, hl, h⟩⟩
  · exact .inl habort
  · rcases execHdrText_cases h with ⟨_, hno⟩ | ⟨_, hop, _⟩ | ⟨_, _, h⟩
    · tauto
    · contradiction
    · exact enterRegion_setHeader_cases hdec hbits (.inl ⟨hl, rfl⟩) h
  · rcases execHdrImage_cases h with ⟨_, hno⟩ | ⟨_, hop, _⟩ | ⟨_, _, h⟩
    · tauto
    · contradiction
    · exact enterRegion_setHeader_cases hdec hbits (.inr ⟨hl, rfl⟩) h

/-- The frame commands are `ENCT`, `ENCI`, `DEC` and `RAW`. -/
theorem framing_iff (op : Opcode) : framing op ↔ op = .enct ∨ op = .enci ∨ op = .dec ∨ op = .raw := by
  cases op <;> simp [framing, encoding, decoding]

/-- The other commands are `NOP`, `HPKT`, `HPKI`, `HUNP` and `CLR`. -/
theorem not_framing_iff (op : Opcode) :
    ¬ framing op ↔ op = .nop ∨ op = .hpkt ∨ op = .hpki ∨ op = .hunp ∨ op = .clr := by
  cases op <;> simp [framing, encoding, decoding]

/-- Phase HDR of a frame command aborts or goes on to the blocks. -/
theorem engineTurn_hdr_frame {s t : State} (hp : s.phase = .hdr) (hf : framing s.work.op) (h : engineTurn s = .next t) :
    (∃ e sub info, t = raise e sub info s) ∨ ∃ bs, commandBlocks s = some bs ∧ EntersBlocks s t bs := by
  rw [engineTurn, phaseStep, hp] at h
  rcases (framing_iff _).1 hf with hop | hop | hop | hop <;> rw [hop] at h
  · rcases hdrEnct_cases h with habort | ⟨_, _, h⟩
    · exact .inl habort
    · obtain ⟨bs, hbs, rfl⟩ := beginEncode_cases h
      refine .inr ⟨bs, by simp [commandBlocks, hop, hbs], _, rfl, rfl, rfl, rfl, rfl,
        fun _ => ⟨rfl, rfl, textBlocks_length hbs, rfl⟩, ?_, ?_⟩ <;> simp [hop, decoding]
  · rcases hdrEnci_cases h with habort | ⟨_, _, hlen, h⟩
    · exact .inl habort
    · obtain ⟨bs, hbs, rfl⟩ := beginEncode_cases h
      have hn := imageBlocks_length hbs
      rw [hlen, Nat.mul_div_cancel_left _ (by decide)] at hn
      refine .inr ⟨bs, by simp [commandBlocks, hop, hbs], _, rfl, rfl, rfl, rfl, rfl, ?_,
        fun _ => ⟨rfl, rfl, rfl, hn, rfl⟩, ?_⟩ <;> simp [hop, decoding]
  · exact fetchHeader_decode_cases hp (.inl hop) h
  · exact fetchHeader_decode_cases hp (.inr hop) h

/-- The engine has ended its command: IDLE, block 0, not busy (10_state.md R40). -/
def Ended (s : State) : Prop := s.phase = .idle ∧ s.blk = 0 ∧ s.status.busy = false

theorem raise_ended (e : ErrKind) (sub : BitVec 2) (info : Nat) (s : State) :
    Ended (raise e sub info s) ∧ (raise e sub info s).status.done = true := ⟨⟨rfl, rfl, rfl⟩, rfl⟩

theorem complete_ended (s : State) : Ended (complete s) ∧ (complete s).status.done = true := ⟨⟨rfl, rfl, rfl⟩, rfl⟩

/-- Phase HDR of `HPKT`, `HPKI` and `HUNP` ends the command with `DONE` (40_header.md R126 to R128). -/
theorem engineTurn_hdr_header {s t : State} (hp : s.phase = .hdr)
    (hop : s.work.op = .hpkt ∨ s.work.op = .hpki ∨ s.work.op = .hunp) (h : engineTurn s = .next t) :
    Ended t ∧ t.status.done = true := by
  rw [engineTurn, phaseStep, hp] at h
  rcases hop with hop | hop | hop <;> rw [hop] at h
  · rcases hdrHpkt_cases h with ⟨_, _, _, rfl⟩ | ⟨_, rfl⟩
    · exact raise_ended _ _ _ _
    · exact complete_ended _
  · rcases hdrHpki_cases h with ⟨_, _, _, rfl⟩ | ⟨_, _, rfl⟩
    · exact raise_ended _ _ _ _
    · exact complete_ended _
  · rcases fetchHeader_cases h with ⟨_, _, _, rfl⟩ | ⟨_, _, _, ⟨_, _, h⟩ | ⟨_, _, _, h⟩⟩
    · exact raise_ended _ _ _ _
    · rcases execHdrText_cases h with ⟨_, hno⟩ | ⟨_, _, rfl⟩ | ⟨_, hno, _⟩
      · simp [hp, hop] at hno
      · exact complete_ended _
      · simp [hop] at hno
    · rcases execHdrImage_cases h with ⟨_, hno⟩ | ⟨_, _, rfl⟩ | ⟨_, hno, _⟩
      · simp [hp, hop] at hno
      · exact complete_ended _
      · simp [hop] at hno

/-- Phase HDR of `CLR` ends the command and leaves `DONE` alone (45_control.md R244). -/
theorem engineTurn_hdr_clr {s t : State} (hp : s.phase = .hdr) (hop : s.work.op = .clr) (h : engineTurn s = .next t) :
    Ended t ∧ t.status.done = s.status.done := by
  rw [engineTurn, phaseStep, hp, hop] at h
  cases h
  exact ⟨⟨rfl, rfl, rfl⟩, rfl⟩

/-- `t` is `s` gone on from its block, with new working values of the same command. -/
def LeavesBlock (s t : State) : Prop :=
  ∃ ob w, t = advance { s with obuf := ob, work := w } ∧ w.op = s.work.op ∧ w.nblk = s.work.nblk

/-- Phase BLOCK of a frame command waits for the codec, aborts, or goes on (45_control.md R248). -/
theorem engineTurn_block_frame {s t : State} (hp : s.phase = .block) (hf : framing s.work.op) (h : engineTurn s = .next t) :
    (s.answer = none ∧ t = s ∧ s.work.op ≠ .raw) ∨ (∃ e sub info, t = raise e sub info s) ∨ LeavesBlock s t := by
  rw [engineTurn, phaseStep, hp] at h
  have hcodeword : s.work.op ≠ .raw → appendCodeword s = .next t →
      (s.answer = none ∧ t = s ∧ s.work.op ≠ .raw) ∨ (∃ e sub info, t = raise e sub info s) ∨ LeavesBlock s t := by
    intro hne h
    rcases appendCodeword_cases h with ⟨ha, rfl⟩ | rfl | ⟨a, _, _, rfl⟩
    · exact .inl ⟨ha, rfl, hne⟩
    · exact .inr (.inl ⟨_, _, _, rfl⟩)
    · exact .inr (.inr ⟨s.obuf, _, rfl, rfl, rfl⟩)
  have hpiece : ∀ (piece : Bytes) (n : Nat), appendPiece piece { s with work := { s.work with nfail := n } } = .next t →
      (∃ e sub info, t = raise e sub info s) ∨ LeavesBlock s t := by
    intro piece n h
    rcases appendPiece_cases h with rfl | ⟨_, rfl⟩
    · exact .inl ⟨_, _, _, rfl⟩
    · exact .inr ⟨_, _, rfl, rfl, rfl⟩
  rcases (framing_iff _).1 hf with hop | hop | hop | hop <;> rw [hop] at h
  · exact hcodeword (by simp [hop]) h
  · exact hcodeword (by simp [hop]) h
  · rcases blockDec_cases h with ⟨ha, rfl⟩ | rfl | ⟨a, _, _, h⟩ | ⟨_, _, _, _, _, _, h⟩
    · exact .inl ⟨ha, rfl, by simp [hop]⟩
    · exact .inr (.inl ⟨_, _, _, rfl⟩)
    · exact .inr (hpiece _ s.work.nfail h)
    · exact .inr (hpiece _ _ h)
  · obtain ⟨c, _, h⟩ := blockRaw_cases h
    exact .inr (hpiece _ s.work.nfail h)

/-- Phase FIN of a frame command ends it with `DONE`. -/
theorem engineTurn_fin_frame {s t : State} (hp : s.phase = .fin) (hf : framing s.work.op) (h : engineTurn s = .next t) :
    Ended t ∧ t.status.done = true := by
  rw [engineTurn, phaseStep, hp] at h
  have hdecode : finishDecode s = .next t → Ended t ∧ t.status.done = true := by
    intro h
    rcases finishDecode_cases h with rfl | rfl
    · exact raise_ended _ _ _ _
    · exact complete_ended _
  rcases (framing_iff _).1 hf with hop | hop | hop | hop <;> rw [hop] at h
  · cases h; exact complete_ended _
  · cases h; exact complete_ended _
  · exact hdecode h
  · exact hdecode h

/-- Settles O56: the rows of 45_control.md R248, one for each phase. -/
theorem sequencerTransitions : Obligations.SequencerTransitions := by
  intro s t h
  refine ⟨fun hp => ?idle, fun hp hop => ?hdr, fun hp hf => ?block, fun hp hf => ?fin⟩
  case idle =>
    rw [engineTurn, phaseStep, hp] at h
    cases h; rfl
  case hdr =>
    by_cases hf : framing s.work.op
    · rcases engineTurn_hdr_frame hp hf h with ⟨_, _, _, rfl⟩ | ⟨bs, _, w, rfl, hwop, hn, hacc, hnfail, henct, henci, hdec⟩
      · exact .inl ⟨rfl, rfl, rfl⟩
      · exact .inr ⟨hf, rfl, hwop, rfl, hacc, hnfail, henct, henci, hdec⟩
    · rcases (not_framing_iff _).1 hf with hnop | hother
      · contradiction
      · by_cases hclr : s.work.op = .clr
        · exact .inl (engineTurn_hdr_clr hp hclr h).1
        · exact .inl (engineTurn_hdr_header hp (by tauto) h).1
  case block =>
    rcases engineTurn_block_frame hp hf h with hwait | ⟨e, _, _, rfl⟩ | ⟨ob, w, rfl, _, hn⟩
    · obtain ⟨ha, ht, hne⟩ := hwait
      exact .inl ⟨ht, ha, hne⟩
    · exact .inr (.inl ⟨rfl, rfl, rfl, errCode_ne_zero e⟩)
    · by_cases hmore : s.blk + 1 < s.work.nblk
      · refine .inr (.inr (.inl ⟨?_, ?_, hmore, advance_answer _⟩)) <;> simp [hn, hmore]
      · refine .inr (.inr (.inr ⟨?_, ?_, by omega, advance_answer _⟩)) <;> simp [hn, hmore]
  case fin =>
    obtain ⟨⟨hp, hb, hbusy⟩, hdone⟩ := engineTurn_fin_frame hp hf h
    exact ⟨hp, hb, hbusy, hdone⟩

end Sys2Proof.Machine
end

section
namespace Sys2Proof.Machine

/-! ### Written input: no step stops -/

/-- Every byte that holds the input bitstream has a value (20_memory.md R72). -/
def Written (s : State) : Prop := ∀ a, a < ceilDiv s.inLen.toNat 8 → (Memory.get s.ibuf a).isSome = true

/-- A run of bytes that all have a value is read. -/
theorem Memory.readBytes_isSome {m : List Host.Cell} {n : Nat} (h : ∀ a, a < n → (Memory.get m a).isSome = true) :
    (Memory.readBytes m 0 n).isSome = true := by
  refine Option.isSome_iff_exists.2
    ⟨(List.range n).map fun a => (Memory.get m a).getD 0#8, (Memory.readBytes_eq_some_iff m 0 n _).2 ⟨by simp, fun j hj => ?_⟩⟩
  obtain ⟨v, hv⟩ := Option.isSome_iff_exists.1 (h j hj)
  simp [hj, hv]

theorem Written.inputBytes_isSome {s : State} (hw : Written s) {n : Nat} (hn : n ≤ ceilDiv s.inLen.toNat 8) :
    (inputBytes s n).isSome = true := Memory.readBytes_isSome fun a ha => hw a (by omega)

theorem Written.inputBits_isSome {s : State} (hw : Written s) {n : Nat} (hn : n ≤ s.inLen.toNat) :
    (inputBits s n).isSome = true := by
  rw [inputBits, Option.isSome_map]
  exact hw.inputBytes_isSome (by simp only [ceilDiv]; omega)

theorem Written.codewordBlocks_isSome {s : State} (hw : Written s) : (codewordBlocks s).isSome = true := by
  rw [codewordBlocks, Option.isSome_map]
  exact hw.inputBits_isSome le_rfl

theorem Written.messageBytes_isSome {s : State} (hw : Written s) : (inputBytes s (s.inLen.toNat / 8)).isSome = true :=
  hw.inputBytes_isSome (by simp only [ceilDiv]; omega)

/-- A phase run on `s` answers a next state, or stops because the input is not all written; it never refuses. -/
def AnswersOn (s : State) (r : Result) : Prop := (∃ t, r = .next t) ∨ (r = .fault .unwrittenInput ∧ ¬ Written s)

theorem AnswersOn.next (s t : State) : AnswersOn s (.next t) := .inl ⟨t, rfl⟩

theorem AnswersOn.unwritten {s : State} (h : ¬ Written s) : AnswersOn s (.fault .unwrittenInput) := .inr ⟨rfl, h⟩

theorem enterRegion_answers (s : State) : AnswersOn s (enterRegion s) := by
  unfold enterRegion
  split
  · exact .next _ _
  · split
    · exact .next _ _
    · split
      · rename_i hnone
        exact .unwritten fun hw => by simpa [hnone] using hw.codewordBlocks_isSome
      · exact .next _ _

theorem execHdrText_answers (len : Nat) (s : State) : AnswersOn s (execHdrText len s) := by
  unfold execHdrText
  split
  · exact .next _ _
  · exact enterRegion_answers (setHeader 0#3 len 0 0 s)
  · exact enterRegion_answers (setHeader 0#3 len 0 0 s)
  · exact .next _ _

theorem execHdrImage_answers (height width : Nat) (s : State) : AnswersOn s (execHdrImage height width s) := by
  unfold execHdrImage
  split
  · exact .next _ _
  · exact enterRegion_answers (setHeader 1#3 0 height width s)
  · exact enterRegion_answers (setHeader 1#3 0 height width s)
  · exact .next _ _

theorem fetchHeader_answers (s : State) : AnswersOn s (fetchHeader s) := by
  unfold fetchHeader
  split
  · exact .next _ _
  · split
    · rename_i hnone
      exact .unwritten fun hw => by
        simpa [hnone] using hw.inputBits_isSome (Nat.min_le_left _ Config.hdrBits)
    · split
      · exact .next _ _
      · exact .next _ _
      · exact execHdrText_answers _ _
      · exact execHdrImage_answers _ _ _

theorem beginEncode_answers {s : State} {blocks : Option (List Bytes)} (hblocks : Written s → blocks.isSome = true)
    (tt : BitVec 3) (len height width : Nat) (header : Bits) :
    AnswersOn s (beginEncode blocks tt len height width header s) := by
  unfold beginEncode
  split
  · exact .unwritten fun hw => by simpa using hblocks hw
  · exact .next _ _

theorem hdrEnct_answers (s : State) : AnswersOn s (hdrEnct s) := by
  unfold hdrEnct
  split
  · exact .next _ _
  · split
    · exact .next _ _
    · exact beginEncode_answers (fun hw => by simpa [textBlocks] using hw.messageBytes_isSome) _ _ _ _ _

theorem hdrEnci_answers (s : State) : AnswersOn s (hdrEnci s) := by
  unfold hdrEnci
  split
  · exact .next _ _
  · split
    · exact .next _ _
    · split
      · exact .next _ _
      · exact beginEncode_answers (fun hw => by simpa [imageBlocks] using hw.messageBytes_isSome) _ _ _ _ _

/-- Phase HDR of every command stops on unwritten input only. -/
theorem hdr_answers (op : Opcode) (s : State) : AnswersOn s ((opPhases op).hdr s) := by
  cases op with
  | nop => exact .next _ _
  | enct => exact hdrEnct_answers s
  | enci => exact hdrEnci_answers s
  | dec => exact fetchHeader_answers s
  | raw => exact fetchHeader_answers s
  | hpkt =>
    show AnswersOn s (hdrHpkt s)
    unfold hdrHpkt
    split <;> exact .next _ _
  | hpki =>
    show AnswersOn s (hdrHpki s)
    unfold hdrHpki
    split
    · exact .next _ _
    · split <;> exact .next _ _
  | hunp => exact fetchHeader_answers s
  | clr => exact .next _ _

/-! ### A frame command that has its blocks ends -/

/-- A frame command with `left` blocks still to go: all of its blocks are read, and no answer waits. -/
def BlocksLeft (left : Nat) (s : State) : Prop :=
  framing s.work.op ∧ s.answer = none ∧
    ((s.phase = .fin ∧ left = 0) ∨
      (s.phase = .block ∧ 0 < left ∧ s.blk + left = s.work.nblk ∧
        ∃ bs, commandBlocks s = some bs ∧ bs.length = s.work.nblk))

/-- The blocks entered are all still to go. -/
theorem EntersBlocks.blocksLeft {s t : State} {bs : List Bytes} (h : EntersBlocks s t bs) (hf : framing s.work.op)
    (ha : s.answer = none) (hbs : commandBlocks s = some bs) : BlocksLeft t.work.nblk t := by
  obtain ⟨w, rfl, hop, hn, _, _, _⟩ := h
  have hblocks : commandBlocks (enterBlocks { s with work := w }) = some bs :=
    (commandBlocks_congr (by simpa using hop) (by simp) (by simp)).trans hbs
  refine ⟨by simpa [hop] using hf, ha, ?_⟩
  by_cases hpos : 0 < w.nblk
  · exact .inr ⟨if_pos hpos, hpos, Nat.zero_add _, bs, hblocks, hn.symm⟩
  · exact .inl ⟨if_neg hpos, Nat.eq_zero_of_not_pos hpos⟩

/-- A block left behind leaves one less to go. -/
theorem LeavesBlock.blocksLeft {s t : State} {left : Nat} {bs : List Bytes} (h : LeavesBlock s t) (hf : framing s.work.op)
    (hbs : commandBlocks s = some bs) (hlen : bs.length = s.work.nblk) (hleft : s.blk + (left + 1) = s.work.nblk) :
    BlocksLeft left t := by
  obtain ⟨ob, w, rfl, hop, hn⟩ := h
  have hblocks : commandBlocks (advance { s with obuf := ob, work := w }) = some bs :=
    (commandBlocks_congr (by simpa using hop) (by simp) (by simp)).trans hbs
  refine ⟨by simpa [hop] using hf, by simp, ?_⟩
  by_cases hmore : s.blk + 1 < s.work.nblk
  · refine .inr ⟨by simpa [hn] using hmore, by omega, ?_, bs, hblocks, by simpa [hn] using hlen⟩
    simp only [advance_blk, advance_work, hn, if_pos hmore]; omega
  · exact .inl ⟨by simpa [hn] using hmore, by omega⟩

theorem appendPiece_next (piece : Bytes) (s : State) : ∃ t, appendPiece piece s = .next t := by
  unfold appendPiece; split <;> exact ⟨_, rfl⟩

theorem appendCodeword_next (s : State) : ∃ t, appendCodeword s = .next t := by
  unfold appendCodeword
  split
  · exact ⟨_, rfl⟩
  · split <;> exact ⟨_, rfl⟩

theorem finishDecode_next (s : State) : ∃ t, finishDecode s = .next t := by
  unfold finishDecode; split <;> exact ⟨_, rfl⟩

/-- At a block that has been read, an engine step does not stop. -/
theorem engineTurn_block_next {s : State} {c : Bytes} (hp : s.phase = .block) (hf : framing s.work.op)
    (hc : blockAt (commandBlocks s) s.blk = some c) : ∃ t, engineTurn s = .next t := by
  rw [engineTurn, phaseStep, hp]
  rcases (framing_iff _).1 hf with hop | hop | hop | hop <;> rw [hop]
  · exact appendCodeword_next s
  · exact appendCodeword_next s
  · have hc : blockAt (codewordBlocks s) s.blk = some c := by simpa [commandBlocks, hop] using hc
    show ∃ t, blockDec s = .next t
    unfold blockDec
    rw [hc]
    split
    · exact ⟨_, rfl⟩
    · split
      · exact appendPiece_next _ _
      · split
        · exact appendPiece_next _ _
        · exact ⟨_, rfl⟩
  · have hc : blockAt (codewordBlocks s) s.blk = some c := by simpa [commandBlocks, hop] using hc
    show ∃ t, blockRaw s = .next t
    unfold blockRaw
    rw [hc]
    exact appendPiece_next _ _

theorem engineTurn_fin_next {s : State} (hp : s.phase = .fin) (hf : framing s.work.op) : ∃ t, engineTurn s = .next t := by
  rw [engineTurn, phaseStep, hp]
  rcases (framing_iff _).1 hf with hop | hop | hop | hop <;> rw [hop]
  · exact ⟨_, rfl⟩
  · exact ⟨_, rfl⟩
  · exact finishDecode_next s
  · exact finishDecode_next s

/-- At a block that has been read, the codec's turn leaves an answer, but for `RAW`, which asks nothing. -/
theorem codecTurn_answers {k : Codec} {s : State} {c : Bytes} (hp : s.phase = .block) (hf : framing s.work.op)
    (hne : s.work.op ≠ .raw) (hc : blockAt (commandBlocks s) s.blk = some c) : (codecTurn k s).answer ≠ none := by
  cases ha : s.answer with
  | some a => simp [codecTurn, ha]
  | none =>
    have hreq : ∃ r, codecRequest s = some r := by
      rcases (framing_iff _).1 hf with hop | hop | hop | hop
      all_goals simp only [commandBlocks, hop] at hc
      · exact ⟨encodeRequest c, by simp [codecRequest, hp, hop, hc]⟩
      · exact ⟨encodeRequest c, by simp [codecRequest, hp, hop, hc]⟩
      · exact ⟨decodeRequest c, by simp [codecRequest, hp, hop, hc]⟩
      · contradiction
    obtain ⟨r, hr⟩ := hreq
    rw [codecTurn_of_request hr ha]
    simp

/-- A round of a running command: the codec's turn, then an engine step. -/
theorem runPhases_round {s : State} (k : Codec) (n : Nat) (hp : s.phase ≠ .idle) :
    runPhases k (opPhases s.work.op) (n + 1) s =
      andThen (engineTurn (codecTurn k s)) (runPhases k (opPhases s.work.op) n) := by
  obtain ⟨a, ha⟩ := codecTurn_eq k s
  rw [runPhases, if_neg hp, engineTurn, ha]

/-- A frame command that has its blocks runs to its end: a round a block, and one for FIN (45_control.md R249, R250). -/
theorem runPhases_ends (k : Codec) {left n : Nat} {s : State} (hs : BlocksLeft left s) (hn : left + 1 ≤ n) :
    ∃ t, runPhases k (opPhases s.work.op) n s = .next t ∧ Ended t ∧ t.status.done = true := by
  obtain ⟨n, rfl⟩ : ∃ m, n = m + 1 := ⟨n - 1, by omega⟩
  induction left generalizing n s with
  | zero =>
    obtain ⟨hf, _, ⟨hp, _⟩ | ⟨_, hpos, _⟩⟩ := hs
    · obtain ⟨t, ht⟩ := engineTurn_fin_next hp hf
      have hend := engineTurn_fin_frame hp hf ht
      refine ⟨t, ?_, hend⟩
      rw [runPhases_round k n (by simp [hp]), codecTurn_of_no_request (codecRequest_of_phase (by simp [hp])), ht, andThen_next,
        runPhases_of_idle hend.1.1]
    · omega
  | succ left ih =>
    obtain ⟨hf, hans, ⟨_, hzero⟩ | ⟨hp, _, hleft, bs, hbs, hlen⟩⟩ := hs
    · omega
    · obtain ⟨c, hc⟩ : ∃ c, blockAt (commandBlocks s) s.blk = some c :=
        ⟨bs[s.blk]'(by omega), by simp [hbs, blockAt]⟩
      obtain ⟨a, ha⟩ := codecTurn_eq k s
      have hnone : s.work.op ≠ .raw → a ≠ none := fun hne hnone =>
        codecTurn_answers hp hf hne hc (by rw [ha, hnone])
      rw [runPhases_round k n (by simp [hp]), ha]
      obtain ⟨t, ht⟩ := engineTurn_block_next (s := { s with answer := a }) hp hf
        ((congrArg (blockAt · s.blk) (commandBlocks_congr (s := s) rfl rfl rfl)).trans hc)
      rw [ht, andThen_next]
      rcases engineTurn_block_frame (s := { s with answer := a }) hp hf ht with ⟨h, _, hne⟩ | ⟨e, sub, info, rfl⟩ | h
      · exact (hnone hne h).elim
      · exact ⟨_, runPhases_of_idle rfl n, raise_ended _ _ _ _⟩
      · have ht := h.blocksLeft (s := { s with answer := a }) hf hbs hlen hleft
        obtain ⟨m, rfl⟩ : ∃ m, n = m + 1 := ⟨n - 1, by omega⟩
        have hop : t.work.op = s.work.op := by
          obtain ⟨ob, w, rfl, hop, _⟩ := h
          simpa using hop
        exact hop ▸ ih ht m (by omega)

/-- A command issued while not busy stops on unwritten input only, and else runs to its end. -/
theorem command_outcome (k : Codec) {op : Opcode} {s : State} (hop : op ≠ .nop) (hb : s.status.busy = false) :
    (runCommand k (opPhases op) op s = .fault .unwrittenInput ∧ ¬ Written s) ∨
    ∃ t, runCommand k (opPhases op) op s = .next t ∧ Ended t ∧ (t.status.done = true ↔ op ≠ .clr) := by
  rcases hdr_answers op (issue op s) with ⟨u, hu⟩ | ⟨hfault, hw⟩
  · have hturn : engineTurn (issue op s) = .next u := hu
    refine .inr ?_
    by_cases hf : framing op
    · have hclr : op ≠ .clr := by rintro rfl; simp [framing, encoding, decoding] at hf
      rcases engineTurn_hdr_frame (s := issue op s) rfl hf hturn with ⟨_, _, _, rfl⟩ | ⟨bs, hbs, henter⟩
      · exact ⟨_, runCommand_of_idle hb hu rfl, ⟨rfl, rfl, rfl⟩, by simp [hclr]⟩
      · have huop : u.work.op = op := by
          obtain ⟨w, rfl, hwop, _⟩ := henter
          exact hwop
        obtain ⟨t, ht, hend, hdone⟩ := runPhases_ends k (henter.blocksLeft hf rfl hbs) le_rfl
        exact ⟨t, by rw [runCommand_of_next hb hu, ← ht, huop], hend, by simp [hdone, hclr]⟩
    · by_cases hclr : op = .clr
      · obtain ⟨hend, hdone⟩ := engineTurn_hdr_clr (s := issue op s) rfl hclr hturn
        exact ⟨u, runCommand_of_idle hb hu hend.1, hend, by simp [hdone, hclr, Status.clear]⟩
      · have hother : op = .hpkt ∨ op = .hpki ∨ op = .hunp := by
          have := (not_framing_iff op).1 hf; tauto
        obtain ⟨hend, hdone⟩ := engineTurn_hdr_header (s := issue op s) rfl hother hturn
        exact ⟨u, runCommand_of_idle hb hu hend.1, hend, by simp [hdone, hclr]⟩
  · exact .inl ⟨runCommand_of_fault hb hfault, hw⟩

/-- Every instruction stops on unwritten input only. -/
theorem exec_answers (i : Instr) (s : State) : AnswersOn s (exec i s) := by
  rcases instr_cases i with ⟨op, rfl⟩ | ⟨len, rfl⟩ | ⟨height, width, rfl⟩
  · by_cases hop : op = .nop
    · subst hop; exact .next _ _
    · rw [exec_command hop]
      cases hb : s.status.busy with
      | true => rw [runCommand_busy hb]; exact .next _ _
      | false =>
        rcases command_outcome Config.codec hop hb with hfault | ⟨t, ht, _⟩
        · exact .inr hfault
        · exact .inl ⟨t, ht⟩
  · exact execHdrText_answers len s
  · exact execHdrImage_answers height width s

/-- Settles O52: a command has its blocks once phase HDR has read them, and then a round leaves each behind. -/
theorem writtenInputAlwaysCompletes : Obligations.WrittenInputAlwaysCompletes := by
  intro i s
  refine ⟨fun hw => ?_, fun r hr => ?_, fun op t hop hi hb h => ?_⟩
  · exact (exec_answers i s).resolve_right fun h => h.2 hw
  · rcases exec_answers i s with ⟨t, ht⟩ | ⟨hfault, _⟩ <;> simp_all
  · rw [hi, exec_command hop] at h
    rcases command_outcome Config.codec hop hb with ⟨hfault, _⟩ | ⟨t', ht', ⟨hp, hblk, hbusy⟩, hdone⟩
    · simp [hfault] at h
    · obtain rfl : t' = t := by simpa [ht'] using h
      exact ⟨hp, hblk, hbusy, hdone⟩

end Sys2Proof.Machine
end

section
namespace Sys2Proof.Machine

/-! ### The input bits determine the input bytes -/

/-- A number below `2^n` is determined by its `n` bits. -/
theorem u2b_injective {n a b : Nat} (ha : a < 2 ^ n) (hb : b < 2 ^ n) (h : u2b n a = u2b n b) : a = b := by
  have hbits := List.map_inj_left.1 h
  refine Nat.eq_of_testBit_eq fun i => ?_
  by_cases hi : i < n
  · have := hbits (n - 1 - i) (List.mem_range.2 (by omega))
    rw [Nat.testBit_eq_decide_div_mod_eq, Nat.testBit_eq_decide_div_mod_eq]
    rwa [show n - 1 - (n - 1 - i) = i by omega] at this
  · have hle : 2 ^ n ≤ 2 ^ i := Nat.pow_le_pow_right (by decide) (by omega)
    rw [Nat.testBit_lt_two_pow (by omega), Nat.testBit_lt_two_pow (by omega)]

/-- Bytes are determined by their bits (41_chunker.md R141). -/
theorem bytesToBits_injective {A B : Bytes} (h : bytesToBits A = bytesToBits B) : A = B := by
  induction A generalizing B with
  | nil =>
    have hlen := congrArg List.length h
    simp only [bytesToBits_length, List.length_nil] at hlen
    exact (List.length_eq_zero_iff.1 (by omega)).symm
  | cons v A ih =>
    cases B with
    | nil => simpa using congrArg List.length h
    | cons w B =>
      obtain ⟨hhead, htail⟩ := List.append_inj h (by simp)
      rw [BitVec.eq_of_toNat_eq (u2b_injective v.isLt w.isLt hhead), ih htail]

/-- The whole bytes of the input are the input's bits. -/
theorem inputBits_of_bytes (s : State) (n : Nat) : inputBits s (8 * n) = (inputBytes s n).map bytesToBits := by
  rw [inputBits, show ceilDiv (8 * n) 8 = n by simp only [ceilDiv]; omega]
  cases h : inputBytes s n with
  | none => rfl
  | some B => simp [List.take_of_length_le, inputBytes_length h]

/-- The first `IN_LEN` bits of the input of `s` are those of `x` (10_state.md R44). -/
def SameBits (x s : State) : Prop := ∀ n, n ≤ s.inLen.toNat → inputBits s n = inputBits x n

theorem SameBits.inputBytes {x s : State} (h : SameBits x s) : inputBytes s (s.inLen.toNat / 8) = inputBytes x (s.inLen.toNat / 8) := by
  have hbits := h (8 * (s.inLen.toNat / 8)) (by omega)
  rw [inputBits_of_bytes, inputBits_of_bytes] at hbits
  exact Option.map_injective (fun _ _ => bytesToBits_injective) hbits

theorem SameBits.of_keepsInput {x s t : State} (h : SameBits x s) (hk : KeepsInput s t) : SameBits x t := by
  obtain ⟨_, _, _, hlen, hbuf, _⟩ := hk
  intro n hn
  rw [← h n (hlen ▸ hn)]
  simp only [inputBits, Machine.inputBytes, hbuf]

/-! ### A command run from another past -/

/-- `s` with what a command must not depend on taken from elsewhere: `CTRL.IEN`, `IBUF` and the model's own fields from `x`, the
content of `OBUF` from `ob`. -/
def graft (x : State) (ob : List Host.Cell) (s : State) : State :=
  { s with
    ctrl := { fben := s.ctrl.fben, ien := x.ctrl.ien }
    ibuf := x.ibuf, obuf := ob, events := x.events, portData := x.portData, freeCount := x.freeCount }

@[simp] theorem graft_inLen (x : State) (ob : List Host.Cell) (s : State) : (graft x ob s).inLen = s.inLen := rfl
@[simp] theorem graft_obuf (x : State) (ob : List Host.Cell) (s : State) : (graft x ob s).obuf = ob := rfl
@[simp] theorem graft_phase (x : State) (ob : List Host.Cell) (s : State) : (graft x ob s).phase = s.phase := rfl
@[simp] theorem graft_blk (x : State) (ob : List Host.Cell) (s : State) : (graft x ob s).blk = s.blk := rfl
@[simp] theorem graft_work (x : State) (ob : List Host.Cell) (s : State) : (graft x ob s).work = s.work := rfl
@[simp] theorem graft_answer (x : State) (ob : List Host.Cell) (s : State) : (graft x ob s).answer = s.answer := rfl

theorem SameBits.inputBits_graft {x s : State} (h : SameBits x s) (ob : List Host.Cell) {n : Nat} (hn : n ≤ s.inLen.toNat) :
    inputBits (graft x ob s) n = inputBits s n := (h n hn).symm

theorem SameBits.textBlocks_graft {x s : State} (h : SameBits x s) (ob : List Host.Cell) :
    textBlocks (graft x ob s) = textBlocks s := by
  rw [textBlocks, textBlocks, h.inputBytes]; rfl

theorem SameBits.imageBlocks_graft {x s : State} (h : SameBits x s) (ob : List Host.Cell) :
    imageBlocks (graft x ob s) = imageBlocks s := by
  rw [imageBlocks, imageBlocks, h.inputBytes]; rfl

theorem SameBits.codewordBlocks_graft {x s : State} (h : SameBits x s) (ob : List Host.Cell) :
    codewordBlocks (graft x ob s) = codewordBlocks s := by
  rw [codewordBlocks, codewordBlocks, graft_inLen, h.inputBits_graft ob le_rfl]

theorem SameBits.codecRequest_graft {x s : State} (h : SameBits x s) (ob : List Host.Cell) :
    codecRequest (graft x ob s) = codecRequest s := by
  simp only [codecRequest, graft_phase, graft_work, graft_blk, h.textBlocks_graft, h.imageBlocks_graft, h.codewordBlocks_graft]

theorem SameBits.codecTurn_graft {x s : State} (h : SameBits x s) (ob : List Host.Cell) (k : Codec) :
    codecTurn k (graft x ob s) = graft x ob (codecTurn k s) := by
  simp only [codecTurn, graft_answer, h.codecRequest_graft]
  cases s.answer with
  | some a => rfl
  | none => cases codecRequest s <;> rfl

/-- `ob` holds the bytes of `OBUF` that matter to `s`: those `OUT_LEN` declares valid, and those a decode has written so far. -/
structure Agrees (s : State) (ob : List Host.Cell) : Prop where
  valid : ∀ j, j < ceilDiv s.outLen.toNat 8 → Memory.get ob j = Memory.get s.obuf j
  pieces : decoding s.work.op = true → s.phase = .block ∨ s.phase = .fin → ∀ j, j < s.work.acc →
    (Memory.get s.obuf j).isSome = true ∧ Memory.get ob j = Memory.get s.obuf j

/-- Where one run goes on, the other goes on to the same state but for what was grafted. -/
structure Follows (x : State) (r r' : Result) : Prop where
  goesOn : ∀ t, r = .next t → ∃ ob, r' = .next (graft x ob t) ∧ Agrees t ob

theorem Follows.next {x s : State} {ob : List Host.Cell} (h : Agrees s ob) : Follows x (.next s) (.next (graft x ob s)) :=
  ⟨by rintro t ⟨⟩; exact ⟨ob, rfl, h⟩⟩

theorem Follows.fault (x : State) (e : Fault) (r : Result) : Follows x (.fault e) r := ⟨by rintro t ⟨⟩⟩

theorem Follows.raise (x : State) (ob : List Host.Cell) (e : ErrKind) (sub : BitVec 2) (info : Nat) (s : State) :
    Follows x (.next (raise e sub info s)) (.next (raise e sub info (graft x ob s))) :=
  .next (s := Machine.raise e sub info s) ⟨by simp [ceilDiv], by simp⟩

/-- A test of what was not grafted goes the same way in both runs. -/
theorem Follows.ite {x : State} {c : Prop} [Decidable c] {r r' q q' : Result} (hr : c → Follows x r r')
    (hq : ¬ c → Follows x q q') : Follows x (if c then r else q) (if c then r' else q') := by
  by_cases hc : c
  · rw [if_pos hc, if_pos hc]; exact hr hc
  · rw [if_neg hc, if_neg hc]; exact hq hc

theorem Follows.andThen {x : State} {r r' : Result} {f f' : State → Result} (h : Follows x r r')
    (hf : ∀ t ob, r = .next t → Agrees t ob → Follows x (f t) (f' (graft x ob t))) :
    Follows x (andThen r f) (andThen r' f') := by
  refine ⟨fun u hu => ?_⟩
  obtain ⟨t, ht, hu⟩ := andThen_eq_next hu
  obtain ⟨ob, ht', hagree⟩ := h.goesOn t ht
  rw [ht', andThen_next]
  exact (hf t ob ht hagree).goesOn u hu

end Sys2Proof.Machine
end

section
namespace Sys2Proof.Machine

/-! ### Each phase follows -/

/-- A state with nothing valid in `OBUF` and no decode at its blocks agrees with any `OBUF`. -/
theorem Agrees.of_outLen_zero {s : State} (ob : List Host.Cell) (hout : s.outLen = 0#32)
    (hp : s.phase ≠ .block ∧ s.phase ≠ .fin) : Agrees s ob :=
  ⟨by simp [hout, ceilDiv], fun _ h => by tauto⟩

theorem Follows.enterRegion {x s : State} {ob : List Host.Cell} (hb : SameBits x s) (ha : Agrees s ob) :
    Follows x (enterRegion s) (enterRegion (graft x ob s)) := by
  unfold Machine.enterRegion
  rw [hb.codewordBlocks_graft]
  refine .ite (fun _ => .raise ..) fun _ => .ite (fun _ => .raise ..) fun _ => ?_
  cases codewordBlocks s with
  | none => exact .fault ..
  | some cs =>
    exact .next (s := enterBlocks { s with work := { s.work with nblk := cs.length, acc := 0, nfail := 0 } })
      ⟨ha.valid, fun _ _ j hj => absurd hj (Nat.not_lt_zero j)⟩

/-- In phase HDR a header is delivered to `HUNP`; to a decode it opens the region. -/
theorem execHdrText_hunp {len : Nat} {s : State} (hp : s.phase = .hdr) (hop : s.work.op = .hunp) :
    execHdrText len s = .next (headerResults 0#3 len 0 s) := by simp [execHdrText, hp, hop]

theorem execHdrText_decode {len : Nat} {s : State} (hp : s.phase = .hdr) (hop : s.work.op = .dec ∨ s.work.op = .raw) :
    execHdrText len s = enterRegion (setHeader 0#3 len 0 0 s) := by
  rcases hop with hop | hop <;> simp [execHdrText, hp, hop]

theorem execHdrImage_hunp {height width : Nat} {s : State} (hp : s.phase = .hdr) (hop : s.work.op = .hunp) :
    execHdrImage height width s = .next (headerResults 1#3 height width s) := by simp [execHdrImage, hp, hop]

theorem execHdrImage_decode {height width : Nat} {s : State} (hp : s.phase = .hdr)
    (hop : s.work.op = .dec ∨ s.work.op = .raw) :
    execHdrImage height width s = enterRegion (setHeader 1#3 0 height width s) := by
  rcases hop with hop | hop <;> simp [execHdrImage, hp, hop]

theorem Follows.headerResults {x s : State} (ob : List Host.Cell) (ft : BitVec 3) (a b : Nat) :
    Follows x (.next (headerResults ft a b s)) (.next (headerResults ft a b (graft x ob s))) :=
  .next (s := Machine.headerResults ft a b s) (.of_outLen_zero ob rfl (by simp [Machine.headerResults]))

theorem Follows.setHeader_enterRegion {x s : State} {ob : List Host.Cell} (hp : s.phase = .hdr) (hb : SameBits x s)
    (ha : Agrees s ob) (tt : BitVec 3) (len height width : Nat) :
    Follows x (Machine.enterRegion (setHeader tt len height width s))
      (Machine.enterRegion (setHeader tt len height width (graft x ob s))) :=
  .enterRegion (s := setHeader tt len height width s) hb ⟨ha.valid, fun _ h => by simp [setHeader, hp] at h⟩

theorem Follows.fetchHeader {x s : State} {ob : List Host.Cell} (hp : s.phase = .hdr)
    (hop : s.work.op = .hunp ∨ s.work.op = .dec ∨ s.work.op = .raw) (hb : SameBits x s) (ha : Agrees s ob) :
    Follows x (fetchHeader s) (fetchHeader (graft x ob s)) := by
  unfold Machine.fetchHeader
  rw [graft_inLen, hb.inputBits_graft ob (Nat.min_le_left _ _)]
  refine .ite (fun _ => .raise ..) fun _ => ?_
  cases inputBits s (min s.inLen.toNat Config.hdrBits) with
  | none => exact .fault ..
  | some bits =>
    dsimp only
    cases hdrParse bits with
    | short => exact .raise ..
    | badTag t => exact .raise ..
    | text len =>
      dsimp only
      rcases hop with hop | hop
      · rw [execHdrText_hunp hp hop, execHdrText_hunp (s := graft x ob s) hp hop]
        exact .headerResults ..
      · rw [execHdrText_decode hp hop, execHdrText_decode (s := graft x ob s) hp hop]
        exact .setHeader_enterRegion hp hb ha ..
    | image height width =>
      dsimp only
      rcases hop with hop | hop
      · rw [execHdrImage_hunp hp hop, execHdrImage_hunp (s := graft x ob s) hp hop]
        exact .headerResults ..
      · rw [execHdrImage_decode hp hop, execHdrImage_decode (s := graft x ob s) hp hop]
        exact .setHeader_enterRegion hp hb ha ..

theorem Follows.beginEncode {x s : State} {ob : List Host.Cell} (blocks : Option (List Bytes)) (tt : BitVec 3)
    (len height width : Nat) (header : Bits) (ha : Agrees s ob) :
    Follows x (beginEncode blocks tt len height width header s) (beginEncode blocks tt len height width header (graft x ob s)) := by
  cases blocks with
  | none => exact .fault ..
  | some bs =>
    exact .next (s := enterBlocks { s with
      work := { s.work with
        t := tt, l := len, h := height, w := width, nblk := bs.length, acc := 0, nfail := 0, out := header } })
      ⟨ha.valid, fun _ _ j hj => absurd hj (Nat.not_lt_zero j)⟩

theorem Follows.hdrEnct {x s : State} {ob : List Host.Cell} (hb : SameBits x s) (ha : Agrees s ob) :
    Follows x (hdrEnct s) (hdrEnct (graft x ob s)) := by
  unfold Machine.hdrEnct
  rw [hb.textBlocks_graft]
  exact .ite (fun _ => .raise ..) fun _ => .ite (fun _ => .raise ..) fun _ => .beginEncode _ _ _ _ _ _ ha

theorem Follows.hdrEnci {x s : State} {ob : List Host.Cell} (hb : SameBits x s) (ha : Agrees s ob) :
    Follows x (hdrEnci s) (hdrEnci (graft x ob s)) := by
  unfold Machine.hdrEnci
  rw [hb.imageBlocks_graft]
  exact .ite (fun _ => .raise ..) fun _ => .ite (fun _ => .raise ..) fun _ => .ite (fun _ => .raise ..) fun _ =>
    .beginEncode _ _ _ _ _ _ ha

/-- Two idle states with the same `OBUF` agree. -/
theorem Agrees.refl_of_idle {s : State} (hp : s.phase = .idle) : Agrees s s.obuf :=
  ⟨fun _ _ => rfl, fun _ h => by simp [hp] at h⟩

theorem Follows.packedHeader {x s : State} (ob : List Host.Cell) (bits : Bits) (ft : BitVec 3) (a b : Nat) :
    Follows x (.next (packedHeader bits ft a b s)) (.next (packedHeader bits ft a b (graft x ob s))) :=
  .next (s := Machine.packedHeader bits ft a b s) (.refl_of_idle rfl)

theorem Follows.hdrHpkt {x s : State} (ob : List Host.Cell) : Follows x (hdrHpkt s) (hdrHpkt (graft x ob s)) :=
  .ite (fun _ => .raise ..) fun _ => .packedHeader ..

theorem Follows.hdrHpki {x s : State} (ob : List Host.Cell) : Follows x (hdrHpki s) (hdrHpki (graft x ob s)) :=
  .ite (fun _ => .raise ..) fun _ => .ite (fun _ => .raise ..) fun _ => .packedHeader ..

/-! Phase BLOCK -/

theorem advance_graft (x : State) (ob : List Host.Cell) (s : State) : advance (graft x ob s) = graft x ob (advance s) := by
  apply State.ext <;> simp [graft]

theorem Follows.advance {x s : State} {ob : List Host.Cell} (ha : Agrees (advance s) ob) :
    Follows x (.next (advance s)) (.next (advance (graft x ob s))) :=
  advance_graft x ob s ▸ .next ha

theorem Follows.appendCodeword {x s : State} {ob : List Host.Cell} (henc : encoding s.work.op = true) (ha : Agrees s ob) :
    Follows x (appendCodeword s) (appendCodeword (graft x ob s)) := by
  unfold Machine.appendCodeword
  rw [graft_answer]
  cases s.answer with
  | none => exact .next ha
  | some a =>
    refine .ite (fun _ => .raise ..) fun _ => .advance (s := { s with
      work := { s.work with acc := s.work.acc + a.data.length, out := s.work.out ++ bytesToBits a.data } })
      ⟨by simpa using ha.valid, fun hdec => ?_⟩
    exact (not_encoding_and_decoding henc (by simpa using hdec)).elim

/-- Writing the same bytes keeps what agrees, and makes those bytes agree. -/
theorem Agrees.setBytes {s : State} {ob : List Host.Cell} (ha : Agrees s ob) (hp : s.phase = .block)
    (hdec : decoding s.work.op = true) (piece : Bytes) (n : Nat) :
    Agrees (advance { s with
        obuf := Memory.setBytes s.obuf s.work.acc piece
        work := { s.work with nfail := n, acc := s.work.acc + piece.length } })
      (Memory.setBytes ob s.work.acc piece) := by
  refine ⟨fun j hj => ?_, fun _ _ j hj => ?_⟩
  · have := ha.valid j (by simpa using hj)
    simp only [advance_obuf, Memory.get_setBytes, this]
  · simp only [advance_work] at hj
    simp only [advance_obuf, Memory.get_setBytes]
    split
    · exact ⟨by rw [List.getElem?_eq_getElem (by omega)]; rfl, rfl⟩
    · exact ha.pieces hdec (.inl hp) j (by omega)

theorem Follows.appendPiece {x s : State} {ob : List Host.Cell} (hp : s.phase = .block) (hdec : decoding s.work.op = true)
    (ha : Agrees s ob) (piece : Bytes) (n : Nat) :
    Follows x (appendPiece piece { s with work := { s.work with nfail := n } })
      (appendPiece piece (graft x ob { s with work := { s.work with nfail := n } })) :=
  .ite (fun _ => .raise ..) fun _ => .advance (s := { s with
    obuf := Memory.setBytes s.obuf s.work.acc piece
    work := { s.work with nfail := n, acc := s.work.acc + piece.length } }) (ha.setBytes hp hdec piece n)

theorem Follows.blockDec {x s : State} {ob : List Host.Cell} (hp : s.phase = .block) (hdec : decoding s.work.op = true)
    (hb : SameBits x s) (ha : Agrees s ob) : Follows x (blockDec s) (blockDec (graft x ob s)) := by
  unfold Machine.blockDec
  rw [graft_answer, graft_blk, hb.codewordBlocks_graft]
  cases s.answer with
  | none => exact .next ha
  | some a =>
    refine .ite (fun _ => .appendPiece hp hdec ha a.data s.work.nfail) fun _ => .ite (fun _ => ?_) fun _ => .raise ..
    cases blockAt (codewordBlocks s) s.blk with
    | none => exact .fault ..
    | some c => exact .appendPiece hp hdec ha (msgPrefix c) (s.work.nfail + 1)

theorem Follows.blockRaw {x s : State} {ob : List Host.Cell} (hp : s.phase = .block) (hdec : decoding s.work.op = true)
    (hb : SameBits x s) (ha : Agrees s ob) : Follows x (blockRaw s) (blockRaw (graft x ob s)) := by
  unfold Machine.blockRaw
  rw [graft_blk, hb.codewordBlocks_graft]
  cases blockAt (codewordBlocks s) s.blk with
  | none => exact .fault ..
  | some c => exact .appendPiece hp hdec ha (msgPrefix c) s.work.nfail

/-! Phase FIN -/

theorem Follows.finishEncode {x s : State} (ob : List Host.Cell) (ft : BitVec 3) (a b : Nat) :
    Follows x (finishEncode ft a b s) (finishEncode ft a b (graft x ob s)) := by
  refine ⟨?_⟩
  rintro t ⟨⟩
  exact ⟨_, rfl, .refl_of_idle rfl⟩

/-- The accumulator reads back the same bytes. -/
theorem Agrees.outputBytes_graft {s : State} {ob : List Host.Cell} (ha : Agrees s ob) (hp : s.phase = .fin)
    (hdec : decoding s.work.op = true) (x : State) : outputBytes (graft x ob s) s.work.acc = outputBytes s s.work.acc := by
  refine List.map_congr_left fun j hj => ?_
  obtain ⟨hsome, heq⟩ := ha.pieces hdec (.inr hp) j (List.mem_range.1 hj)
  obtain ⟨v, hv⟩ := Option.isSome_iff_exists.1 hsome
  rw [graft_obuf, heq, hv]
  rfl

theorem Follows.finishDecode {x s : State} {ob : List Host.Cell} (hp : s.phase = .fin) (hdec : decoding s.work.op = true)
    (ha : Agrees s ob) : Follows x (finishDecode s) (finishDecode (graft x ob s)) := by
  unfold Machine.finishDecode
  rw [graft_work, ha.outputBytes_graft hp hdec]
  exact .ite (fun _ => .raise ..) fun _ =>
    .next (s := decodeResults (trimOrPad (payloadLen s.work) (outputBytes s s.work.acc)) s) (.refl_of_idle rfl)

/-! ### An engine step, a run and a command follow -/

theorem Follows.engineTurn {x s : State} {ob : List Host.Cell} (hb : SameBits x s) (ha : Agrees s ob) :
    Follows x (engineTurn s) (engineTurn (graft x ob s)) := by
  simp only [Machine.engineTurn, phaseStep, graft_phase, graft_work]
  cases hp : s.phase with
  | idle => exact .next ha
  | hdr =>
    cases hop : s.work.op with
    | nop => exact .next ha
    | enct => exact .hdrEnct hb ha
    | enci => exact .hdrEnci hb ha
    | dec => exact .fetchHeader hp (by simp [hop]) hb ha
    | raw => exact .fetchHeader hp (by simp [hop]) hb ha
    | hpkt => exact .hdrHpkt ob
    | hpki => exact .hdrHpki ob
    | hunp => exact .fetchHeader hp (by simp [hop]) hb ha
    | clr =>
      exact .next (s := toIdle { s with status := { s.status with busy := false } }) ⟨ha.valid, fun _ h => by simp at h⟩
  | block =>
    cases hop : s.work.op with
    | enct => exact .appendCodeword (by simp [encoding, hop]) ha
    | enci => exact .appendCodeword (by simp [encoding, hop]) ha
    | dec => exact .blockDec hp (by simp [decoding, hop]) hb ha
    | raw => exact .blockRaw hp (by simp [decoding, hop]) hb ha
    | _ => exact .next ha
  | fin =>
    cases hop : s.work.op with
    | enct => exact .finishEncode ob ..
    | enci => exact .finishEncode ob ..
    | dec => exact .finishDecode hp (by simp [decoding, hop]) ha
    | raw => exact .finishDecode hp (by simp [decoding, hop]) ha
    | _ => exact .next ha

theorem Agrees.codecTurn {s : State} {ob : List Host.Cell} (ha : Agrees s ob) (k : Codec) : Agrees (codecTurn k s) ob := by
  obtain ⟨a, h⟩ := codecTurn_eq k s
  exact h ▸ ⟨ha.valid, ha.pieces⟩

theorem Follows.runPhases {x s : State} {ob : List Host.Cell} (k : Codec) (n : Nat) (hb : SameBits x s) (ha : Agrees s ob) :
    Follows x (runPhases k (opPhases s.work.op) n s) (runPhases k (opPhases s.work.op) n (graft x ob s)) := by
  induction n generalizing s ob with
  | zero => exact .next ha
  | succ n ih =>
    by_cases hp : s.phase = .idle
    · rw [runPhases_of_idle hp, runPhases_of_idle (s := graft x ob s) hp]
      exact .next ha
    · have hround := runPhases_round (s := graft x ob s) k n hp
      rw [hb.codecTurn_graft, graft_work] at hround
      rw [runPhases_round k n hp, hround]
      have hb' := hb.of_keepsInput (codecTurn_keepsInput k s)
      refine (Follows.engineTurn hb' (ha.codecTurn k)).andThen fun t ob' ht ha' => ?_
      have hop : t.work.op = s.work.op ∨ t.phase = .idle := by
        obtain ⟨a, h⟩ := codecTurn_eq k s
        have := engineTurn_keeps_op ht
        rwa [h] at this
      rcases hop with hop | hp
      · exact hop ▸ ih (hb'.of_keepsInput (engineTurn_keepsInput ht)) ha'
      · rw [runPhases_of_idle hp, runPhases_of_idle (s := graft x ob' t) hp]
        exact .next ha'

/-- A command issued while not busy follows from any past that gives it the same operands and input. -/
theorem Follows.runCommand {s x : State} (k : Codec) (op : Opcode) (hs : s.status.busy = false) (hx : x.status.busy = false)
    (hsame : sameInput s x) : Follows x (runCommand k (opPhases op) op s) (runCommand k (opPhases op) op x) := by
  obtain ⟨harg0, harg1, hlen, hfben, hbits⟩ := hsame
  have hissue : issue op x = graft x x.obuf (issue op s) := by
    apply State.ext <;> simp [graft, harg0, harg1, hlen, hfben]
  have hb : SameBits x (issue op s) := hbits
  have ha : Agrees (issue op s) x.obuf := .of_outLen_zero _ rfl (by simp)
  simp only [Machine.runCommand, hs, hx, hissue, Bool.false_eq_true, if_false]
  refine (Follows.engineTurn hb ha).andThen fun t ob ht ha' => ?_
  have hb' := hb.of_keepsInput (engineTurn_keepsInput ht)
  rcases engineTurn_keeps_op ht with hop | hp
  · have hop : t.work.op = op := hop
    exact hop ▸ Follows.runPhases k _ hb' ha'
  · rw [runPhases_of_idle hp, runPhases_of_idle (s := graft x ob t) hp]
    exact .next ha'

/-- Settles O57: the two runs go on in step, alike but for what a command does not depend on. -/
theorem noStateCrossesCommands : Obligations.NoStateCrossesCommands := by
  intro op s x t hop hs hx hsame h
  rw [exec_command hop] at h
  obtain ⟨ob, hx', hagree⟩ := Follows.runCommand Config.codec op hs hx hsame |>.goesOn t h
  refine ⟨graft x ob t, by rw [exec_command hop, hx'], ?_⟩
  have hvalid : (List.range (ceilDiv t.outLen.toNat 8)).map (fun j => Memory.get ob j) =
      (List.range (ceilDiv t.outLen.toNat 8)).map fun j => Memory.get t.obuf j :=
    List.map_congr_left fun j hj => hagree.valid j (List.mem_range.1 hj)
  exact congrArg (Prod.mk _) hvalid

end Sys2Proof.Machine
end

section
namespace Sys2Proof

/-! ### Single bits of the conversions -/

/-- Bit `i` of `u2b(n, v)` is the bit of `v` at weight `2^(n-1-i)` (00_scope.md R8). -/
theorem u2b_getElem? {n i : Nat} (v : Nat) (h : i < n) : (u2b n v)[i]? = some (v.testBit (n - 1 - i)) := by
  simp [u2b, h, Nat.testBit_eq_decide_div_mod_eq]

/-- The last bit of `u2b` is the parity, the bits before it are those of the half. -/
theorem u2b_succ (n v : Nat) : u2b (n + 1) v = u2b n (v / 2) ++ [decide (v % 2 = 1)] := by
  have hhalf : ∀ i ∈ List.range n,
      decide (v / 2 ^ (n + 1 - 1 - i) % 2 = 1) = decide (v / 2 / 2 ^ (n - 1 - i) % 2 = 1) := by
    intro i hi
    have hi := List.mem_range.1 hi
    rw [show n + 1 - 1 - i = n - 1 - i + 1 by omega, pow_succ', Nat.div_div_eq_div_mul]
  rw [u2b, List.range_succ, List.map_append, List.map_congr_left hhalf]
  simp [u2b]

/-- A bit string is the bits of its number (00_scope.md R8). -/
theorem u2b_b2u (s : Bits) : u2b s.length (b2u s) = s := by
  induction s using List.reverseRecOn with
  | nil => rfl
  | append_singleton s b ih =>
    have hnum : b2u (s ++ [b]) = 2 * b2u s + b.toNat := by simp [b2u_append, b2u_cons, Nat.mul_comm]
    rw [List.length_append, List.length_singleton, u2b_succ, hnum]
    cases b
    · simpa using ih
    · rw [show (2 * b2u s + true.toNat) / 2 = b2u s by simp; omega, ih]; simp [Nat.add_mod]

namespace Machine

/-- Bit `i` of a byte sequence is in byte `i div 8` at weight `2^(7 - i mod 8)` (00_scope.md R8, 20_memory.md R62). -/
theorem bytesToBits_getElem? (B : Bytes) (i : Nat) :
    (bytesToBits B)[i]? = B[i / 8]?.map fun v => v.getLsbD (7 - i % 8) := by
  induction B generalizing i with
  | nil => rfl
  | cons v B ih =>
    rw [bytesToBits_cons]
    by_cases hi : i < 8
    · rw [List.getElem?_append_left (by simpa using hi), u2b_getElem? _ hi, Nat.div_eq_of_lt hi, Nat.mod_eq_of_lt hi]
      rfl
    · obtain ⟨i, rfl⟩ : ∃ k, i = k + 8 := ⟨i - 8, by omega⟩
      rw [List.getElem?_append_right (by simp), u2b_length, Nat.add_sub_cancel, ih, Nat.add_div_right i (by decide),
        Nat.add_mod_right, List.getElem?_cons_succ]

/-- Only a bit string with no whole group of eight gives no byte. -/
theorem length_lt_of_bitsToBytes_eq_nil {s : Bits} (h : bitsToBytes s = []) : s.length < 8 := by
  have := bitsToBytes_length s
  rw [h, List.length_nil] at this
  omega

/-- Byte `j` of `bits_to_bytes` is the number of the `j`-th group of eight bits (00_scope.md R8). -/
theorem bitsToBytes_getElem? (s : Bits) {j : Nat} (h : j < s.length / 8) :
    (bitsToBytes s)[j]? = some (BitVec.ofNat 8 (b2u ((s.drop (8 * j)).take 8))) := by
  induction s using bitsToBytes.induct generalizing j with
  | case1 a b c d e f g h rest ih =>
    cases j with
    | zero => rfl
    | succ j => exact ih (by simp only [List.length_cons] at h; omega)
  | case2 s hs =>
    have := length_lt_of_bitsToBytes_eq_nil (bitsToBytes.eq_2 s hs)
    omega

/-- Whole groups of eight bits are the bits of their bytes (41_chunker.md R141). -/
theorem bytesToBits_bitsToBytes (s : Bits) (h : s.length % 8 = 0) : bytesToBits (bitsToBytes s) = s := by
  induction s using bitsToBytes.induct with
  | case1 a b c d e f g h' rest ih =>
    have hbyte := u2b_b2u [a, b, c, d, e, f, g, h']
    have hlt := b2u_lt [a, b, c, d, e, f, g, h']
    simp only [List.length_cons, List.length_nil] at hbyte hlt h
    rw [bitsToBytes, bytesToBits_cons, ih (by omega), BitVec.toNat_ofNat, Nat.mod_eq_of_lt hlt, hbyte]
    rfl
  | case2 s hs =>
    have hnil : bitsToBytes s = [] := bitsToBytes.eq_2 s hs
    have := length_lt_of_bitsToBytes_eq_nil hnil
    rw [hnil, List.eq_nil_of_length_eq_zero (by omega : s.length = 0)]
    rfl

end Machine
end Sys2Proof
end

section
namespace Sys2Proof.Machine

/-! ### Bitstreams in the buffers -/

/-- A run of bytes is read exactly when each of its bytes is written. -/
theorem inputBytes_isSome_iff (s : State) (n : Nat) :
    (inputBytes s n).isSome = true ↔ ∀ j, j < n → (Memory.get s.ibuf j).isSome = true := by
  refine ⟨fun h j hj => ?_, Memory.readBytes_isSome⟩
  obtain ⟨B, hB⟩ := Option.isSome_iff_exists.1 h
  obtain ⟨hlen, hget⟩ := (Memory.readBytes_eq_some_iff s.ibuf 0 n B).1 hB
  rw [← Nat.zero_add j, hget j hj, List.getElem?_eq_getElem (by omega)]
  rfl

/-- Bit `i` of the input is in byte `i div 8` of `IBUF` at weight `2^(7 - i mod 8)` (20_memory.md R62). -/
theorem inputBits_getElem? {s : State} {n i : Nat} {bits : Bits} (h : inputBits s n = some bits) (hi : i < n) :
    ∃ v, Memory.get s.ibuf (i / 8) = some v ∧ bits[i]? = some (v.getLsbD (7 - i % 8)) := by
  obtain ⟨B, hB, rfl⟩ := Option.map_eq_some_iff.1 h
  obtain ⟨hlen, hget⟩ := (Memory.readBytes_eq_some_iff s.ibuf 0 _ B).1 hB
  have hbyte : i / 8 < ceilDiv n 8 := by simp only [ceilDiv]; omega
  have hin : B[i / 8]? = some (B[i / 8]'(by omega)) := List.getElem?_eq_getElem _
  refine ⟨B[i / 8]'(by omega), ?_, ?_⟩
  · rw [← hin, ← hget _ hbyte, Nat.zero_add]
  · rw [List.getElem?_take_of_lt hi, bytesToBits_getElem?, hin]; rfl

/-- Settles O15: definedness is that of the bytes, and each bit is found in its byte. -/
theorem inputBitsAreMostSignificantFirst : Obligations.InputBitsAreMostSignificantFirst := by
  intro s n
  refine ⟨?_, fun bits h => ⟨inputBits_length h, fun i hi => inputBits_getElem? h hi⟩⟩
  rw [inputBits, Option.isSome_map]
  exact inputBytes_isSome_iff s _

/-- The last group of a stream, completed with as many 0 bits as it lacks, is the same when completed with seven. -/
theorem take_eight_padded {x : Bits} {p : Nat} (hx : 1 ≤ x.length) (hp : 8 ≤ x.length + p) :
    (x ++ List.replicate p false).take 8 = (x ++ List.replicate 7 false).take 8 := by
  rw [List.take_append, List.take_append, List.take_replicate, List.take_replicate,
    Nat.min_eq_left (by omega), Nat.min_eq_left (by omega)]

/-- Byte `j` of a packed bitstream is its `j`-th group of eight bits, completed with 0 bits (20_memory.md R63). -/
theorem packBits_getElem? (bits : Bits) {j : Nat} (h : j < ceilDiv bits.length 8) :
    (packBits bits)[j]? = some (BitVec.ofNat 8 (b2u (((bits.drop (8 * j)) ++ List.replicate 7 false).take 8))) := by
  simp only [ceilDiv] at h
  rw [packBits, bitsToBytes_getElem? _ (by simp only [List.length_append, List.length_replicate]; omega),
    List.drop_append_of_le_length (by omega), take_eight_padded]
  all_goals simp only [List.length_drop]; omega

/-- Settles O16: `OBUF` lists the packed bytes and no other. -/
theorem storedBitsFillOutputBytes : Obligations.StoredBitsFillOutputBytes := by
  intro s bits j
  rw [storeBits_obuf, Memory.get_ofBytes]
  split
  case isTrue h => exact packBits_getElem? bits h
  case isFalse h => exact List.getElem?_eq_none (by rw [packBits_length]; omega)

/-- A packed bitstream starts with the bitstream (20_memory.md R62, R63). -/
theorem take_bytesToBits_packBits (bits : Bits) : (bytesToBits (packBits bits)).take bits.length = bits := by
  rw [packBits, bytesToBits_bitsToBytes _ (by simp only [List.length_append, List.length_replicate]; omega), List.take_left']
  rfl

/-- Where `IBUF` holds the bytes of a packed bitstream, the bitstream is read. -/
theorem inputBits_of_packBits {s : State} {bits : Bits}
    (h : ∀ j, j < ceilDiv bits.length 8 → Memory.get s.ibuf j = (packBits bits)[j]?) :
    inputBits s bits.length = some bits := by
  have hbytes : inputBytes s (ceilDiv bits.length 8) = some (packBits bits) :=
    (Memory.readBytes_eq_some_iff ..).2 ⟨packBits_length bits, fun j hj => by rw [Nat.zero_add]; exact h j hj⟩
  rw [inputBits, hbytes, Option.map_some, take_bytesToBits_packBits]

/-- Settles O17: the copy leaves the packed bytes in `IBUF`, and `IN_LEN` has room for the length. -/
theorem copiedOutputReadsBack : Obligations.CopiedOutputReadsBack := by
  intro s t bits hfit hcopy hlen
  have hlen : t.inLen.toNat = bits.length := by rw [hlen, BitVec.toNat_ofNat]; omega
  rw [hlen]
  exact inputBits_of_packBits fun j hj => by rw [hcopy j hj, storeBits_obuf, Memory.get_ofBytes]

/-! ### Unwritten input -/

theorem beginEncode_none (t : BitVec 3) (len height width : Nat) (header : Bits) (s : State) :
    beginEncode none t len height width header s = .fault .unwrittenInput := rfl

/-- `ENCT` stops at a payload that is not all written (43_encoder.md R181, 20_memory.md R72). -/
theorem hdrEnct_unwritten {s : State} (hlen : s.inLen.toNat / 8 ≤ Config.lenMax) (hmod : s.inLen.toNat % 8 = 0)
    (hnone : inputBytes s (s.inLen.toNat / 8) = none) : hdrEnct s = .fault .unwrittenInput := by
  rw [hdrEnct, if_neg (Nat.not_lt.2 hlen), if_neg (not_not_intro hmod), textBlocks, hnone]
  exact beginEncode_none ..

/-- `ENCI` stops at a payload that is not all written (43_encoder.md R184, 20_memory.md R72). -/
theorem hdrEnci_unwritten {s : State} (hheight : s.arg0.toNat ≤ Config.dimMax) (hwidth : s.arg1.toNat ≤ Config.dimMax)
    (hlen : s.inLen.toNat = 8 * (3 * s.arg0.toNat * s.arg1.toNat))
    (hnone : inputBytes s (3 * s.arg0.toNat * s.arg1.toNat) = none) : hdrEnci s = .fault .unwrittenInput := by
  rw [hdrEnci, if_neg (Nat.not_lt.2 hheight), if_neg (Nat.not_lt.2 hwidth), if_neg (not_not_intro hlen), imageBlocks, hlen,
    Nat.mul_div_cancel_left _ (by decide), hnone]
  exact beginEncode_none ..

/-- `HUNP`, `DEC` and `RAW` stop at a header that is not all written (40_header.md R128, 20_memory.md R72). -/
theorem fetchHeader_unwritten {s : State} (hcap : s.inLen.toNat ≤ Config.capBits)
    (hnone : inputBits s (min s.inLen.toNat Config.hdrBits) = none) : fetchHeader s = .fault .unwrittenInput := by
  rw [fetchHeader, if_neg (Nat.not_lt.2 hcap), hnone]

/-- `DEC` and `RAW` stop at a frame that is not all written (44_decoder.md R201, 20_memory.md R72). -/
theorem enterRegion_unwritten {s : State} (hmod : (s.inLen.toNat - Config.hdrBits) % 8 = 0)
    (hfit : payloadLen s.work ≤ (s.inLen.toNat - Config.hdrBits) / 8) (hnone : inputBits s s.inLen.toNat = none) :
    enterRegion s = .fault .unwrittenInput := by
  rw [enterRegion, if_neg (not_not_intro hmod), if_neg (Nat.not_lt.2 hfit), codewordBlocks, hnone]
  rfl

/-- A text header that has been fetched is executed (40_header.md R128, 44_decoder.md R201). -/
theorem fetchHeader_text {s : State} {bits : Bits} {len : Nat} (hcap : s.inLen.toNat ≤ Config.capBits)
    (hbits : inputBits s (min s.inLen.toNat Config.hdrBits) = some bits) (hparse : hdrParse bits = .text len) :
    fetchHeader s = execHdrText len s := by
  rw [fetchHeader, if_neg (Nat.not_lt.2 hcap), hbits]
  simp only [hparse]

/-- An image header that has been fetched is executed (40_header.md R128, 44_decoder.md R201). -/
theorem fetchHeader_image {s : State} {bits : Bits} {height width : Nat} (hcap : s.inLen.toNat ≤ Config.capBits)
    (hbits : inputBits s (min s.inLen.toNat Config.hdrBits) = some bits) (hparse : hdrParse bits = .image height width) :
    fetchHeader s = execHdrImage height width s := by
  rw [fetchHeader, if_neg (Nat.not_lt.2 hcap), hbits]
  simp only [hparse]

/-- For a decode, a header that declares a payload sets the working values that declare it and opens the region. -/
theorem fetchHeader_declares {s : State} {bits : Bits} {n : Nat} (hp : s.phase = .hdr)
    (hop : s.work.op = .dec ∨ s.work.op = .raw) (hcap : s.inLen.toNat ≤ Config.capBits)
    (hbits : inputBits s (min s.inLen.toNat Config.hdrBits) = some bits) (hn : declaredLength (hdrParse bits) = some n) :
    ∃ t len height width, payloadLen (setHeader t len height width s).work = n ∧
      fetchHeader s = enterRegion (setHeader t len height width s) := by
  cases hparse : hdrParse bits with
  | short => simp [hparse, declaredLength] at hn
  | badTag tag => simp [hparse, declaredLength] at hn
  | text len =>
    simp only [hparse, declaredLength, Option.some.injEq] at hn
    exact ⟨0#3, len, 0, 0, hn, (fetchHeader_text hcap hbits hparse).trans (execHdrText_decode hp hop)⟩
  | image height width =>
    simp only [hparse, declaredLength, Option.some.injEq] at hn
    exact ⟨1#3, 0, height, width, hn, (fetchHeader_image hcap hbits hparse).trans (execHdrImage_decode hp hop)⟩

/-- Settles O53: phase HDR of each command reads the issued state, whose input is that of `s`. -/
theorem unwrittenInputStops : Obligations.UnwrittenInputStops := by
  intro s hb
  refine ⟨fun hlen hmod hnone => ?enct, fun hheight hwidth hlen hnone => ?enci, fun i hi hcap hnone => ?header,
    fun i bits n hi hcap hbits hn hmod hfit hnone => ?region⟩
  case enct => exact runCommand_of_fault hb (hdrEnct_unwritten (s := issue .enct s) hlen hmod hnone)
  case enci => exact runCommand_of_fault hb (hdrEnci_unwritten (s := issue .enci s) hheight hwidth hlen hnone)
  case header =>
    have hfault (op : Opcode) : fetchHeader (issue op s) = .fault .unwrittenInput := fetchHeader_unwritten hcap hnone
    rcases hi with rfl | rfl | rfl
    · exact runCommand_of_fault hb (hfault .hunp)
    · exact runCommand_of_fault hb (hfault .dec)
    · exact runCommand_of_fault hb (hfault .raw)
  case region =>
    have hfault (op : Opcode) (hop : op = .dec ∨ op = .raw) : fetchHeader (issue op s) = .fault .unwrittenInput := by
      obtain ⟨t, len, height, width, hpay, hregion⟩ :=
        fetchHeader_declares (s := issue op s) rfl hop hcap hbits hn
      rw [hregion]
      exact enterRegion_unwritten hmod (hpay.trans_le hfit) hnone
    rcases hi with rfl | rfl
    · exact runCommand_of_fault hb (hfault .dec (.inl rfl))
    · exact runCommand_of_fault hb (hfault .raw (.inr rfl))

/-! ### Buffer accesses of the host -/

/-- A byte with a value is listed. -/
theorem Memory.mem_of_get {m : List Host.Cell} {a : Nat} {v : Byte} (h : Memory.get m a = some v) : (a, v) ∈ m := by
  induction m with
  | nil => cases h
  | cons c m ih =>
    obtain ⟨b, u⟩ := c
    simp only [Memory.get] at h
    split at h
    case isTrue hab => cases h; simp [hab]
    case isFalse => exact List.mem_cons_of_mem _ (ih h)

/-- In a canonical buffer only a byte inside it has a value (20_memory.md R60). -/
theorem Memory.wf.lt_of_get {m : List Host.Cell} {a : Nat} {v : Byte} (hm : Memory.wf m) (h : Memory.get m a = some v) :
    a < Config.capBytes := hm.2 _ (Memory.mem_of_get h)

section
variable {s : State} {i : Nat} {v : Byte}

/-- Not busy, a store inside `IBUF` writes its byte (20_memory.md R61). -/
theorem hostStoreIn_inside (v : Byte) (hb : s.status.busy = false) (hi : i < Config.capBytes) :
    hostStoreIn i v s = { s with ibuf := Memory.set s.ibuf i v } := by
  rw [hostStoreIn, if_neg]; simpa [hb] using hi

/-- A store beyond `IBUF` is ignored (20_memory.md R68). -/
theorem hostStoreIn_beyond (v : Byte) (hi : Config.capBytes ≤ i) : hostStoreIn i v s = s := by
  rw [hostStoreIn, if_pos]; simp [hi]

/-- Not busy, a load of a written byte of `IBUF` returns it (20_memory.md R61). -/
theorem hostLoadIn_of_get (hb : s.status.busy = false) (hi : i < Config.capBytes) (h : Memory.get s.ibuf i = some v) :
    hostLoadIn i s = returnWord (v.zeroExtend 32) s := by
  rw [hostLoadIn, if_neg (by simpa [hb] using hi), h]

/-- A load beyond `IBUF`, or of a byte not written, is unspecified (20_memory.md R68, R72). -/
theorem hostLoadIn_free (h : Config.capBytes ≤ i ∨ Memory.get s.ibuf i = none) : hostLoadIn i s = returnFreeByte s := by
  rw [hostLoadIn]
  split
  case isTrue => rfl
  case isFalse hin => rw [h.resolve_left fun hi => hin (by simp [hi])]

/-- Not busy, a load of a byte `OUT_LEN` declares valid returns it (20_memory.md R71, R76). -/
theorem hostLoadOut_of_get (hb : s.status.busy = false) (hi : i < Config.capBytes) (hlen : i < ceilDiv s.outLen.toNat 8)
    (h : Memory.get s.obuf i = some v) : hostLoadOut i s = returnWord (v.zeroExtend 32) s := by
  rw [hostLoadOut, if_neg (by simpa [hb] using ⟨hi, hlen⟩), h]

/-- A load beyond `OBUF`, at or after `ceil_div(OUT_LEN, 8)`, or of a byte without a value, is unspecified
(20_memory.md R63, R68, R76). -/
theorem hostLoadOut_free (h : Config.capBytes ≤ i ∨ ceilDiv s.outLen.toNat 8 ≤ i ∨ Memory.get s.obuf i = none) :
    hostLoadOut i s = returnFreeByte s := by
  rw [hostLoadOut]
  split
  case isTrue => rfl
  case isFalse hin =>
    rw [(h.resolve_left fun hi => hin (by simp [hi])).resolve_left fun hlen => hin (by simp [hlen])]

end

/-- Settles O18: a host access inside and beyond each buffer, on the state without the action. -/
theorem bufferAccesses : Obligations.BufferAccesses := by
  intro s rest i v hb
  have hout {u : Byte} (he : s.events = .loadOut i :: rest) (hi : i < Config.capBytes)
      (hlen : i < ceilDiv s.outLen.toNat 8) (h : Memory.get s.obuf i = some u) :
      step s = .next { s with events := rest, portData := u.zeroExtend 32 } :=
    (step_of_event he).trans (congrArg _ (hostLoadOut_of_get (s := { s with events := rest }) hb hi hlen h))
  refine ⟨fun he hi => ?storeIn, fun he hi => ?storeBeyond, fun he => step_of_event he, fun he hi h => ?loadIn,
    fun he h => ?loadInFree, hout, fun he hs hlen => ?loadOutValid, fun he h => ?loadOutFree⟩
  case storeIn =>
    refine ⟨Memory.set s.ibuf i v, ?_, Memory.get_set_self .., fun j hj => Memory.get_set_other _ _ hj⟩
    exact (step_of_event he).trans (congrArg _ (hostStoreIn_inside (s := { s with events := rest }) v hb hi))
  case storeBeyond => exact (step_of_event he).trans (congrArg _ (hostStoreIn_beyond v hi))
  case loadIn => exact (step_of_event he).trans (congrArg _ (hostLoadIn_of_get (s := { s with events := rest }) hb hi h))
  case loadInFree => exact (step_of_event he).trans (congrArg _ (hostLoadIn_free (s := { s with events := rest }) h))
  case loadOutValid =>
    obtain ⟨u, hu⟩ := Option.isSome_iff_exists.1 (hs.valid i hlen)
    exact ⟨u, hu, hout he (hs.obuf.lt_of_get hu) hlen hu⟩
  case loadOutFree => exact (step_of_event he).trans (congrArg _ (hostLoadOut_free (s := { s with events := rest }) h))

end Sys2Proof.Machine
end

section
namespace Sys2Proof

/-! ### Headers -/

/-- A number below `2^n` is read back from its `n` bits (00_scope.md R8). -/
theorem b2u_u2b {n v : Nat} (h : v < 2 ^ n) : b2u (u2b n v) = v := by
  have hlt := b2u_lt (u2b n v)
  have hbits := u2b_b2u (u2b n v)
  rw [u2b_length] at hlt hbits
  exact Machine.u2b_injective hlt h hbits

/-- A tag has three bits, so it is at most 7 (30_encoding.md R93). -/
theorem tag_le_seven (s : Bits) : b2u (s.take 3) ≤ 7 := by
  have hlt := b2u_lt (s.take 3)
  have hpow : 2 ^ (s.take 3).length ≤ 2 ^ 3 := Nat.pow_le_pow_right (by decide) (List.length_take_le 3 s)
  omega

/-! The four outcomes of `hdr_parse` (40_header.md R123), by length and tag. -/

theorem hdrParse_short {s : Bits} (h : s.length < 3 ∨ (s.length < 27 ∧ b2u (s.take 3) < 2)) : hdrParse s = .short := by
  rw [hdrParse, Config.hdrBits]
  split
  · rfl
  · rw [if_neg (by omega), if_pos (by omega)]

theorem hdrParse_badTag {s : Bits} (hlen : 3 ≤ s.length) (htag : 2 ≤ b2u (s.take 3)) :
    hdrParse s = .badTag (b2u (s.take 3)) := by
  rw [hdrParse, if_neg (by omega), if_pos htag]

theorem hdrParse_text {s : Bits} (hlen : 27 ≤ s.length) (htag : b2u (s.take 3) = 0) :
    hdrParse s = .text (b2u ((s.drop 3).take 24)) := by
  rw [hdrParse, Config.hdrBits, if_neg (by omega), if_neg (by omega), if_neg (by omega), if_pos htag]

theorem hdrParse_image {s : Bits} (hlen : 27 ≤ s.length) (htag : b2u (s.take 3) = 1) :
    hdrParse s = .image (b2u ((s.drop 3).take 12)) (b2u ((s.drop 15).take 12)) := by
  rw [hdrParse, Config.hdrBits, if_neg (by omega), if_neg (by omega), if_neg (by omega), if_neg (by omega)]

/-- Every bitstream is short, has a bad tag, or starts with a text or an image header. -/
theorem hdrParse_cases (s : Bits) :
    (s.length < 3 ∨ (s.length < 27 ∧ b2u (s.take 3) < 2)) ∨ (3 ≤ s.length ∧ 2 ≤ b2u (s.take 3)) ∨
      (27 ≤ s.length ∧ b2u (s.take 3) = 0) ∨ (27 ≤ s.length ∧ b2u (s.take 3) = 1) := by
  omega

/-- A text header is parsed back, whatever follows it (40_header.md R124). -/
theorem hdrParse_hdrTextBits {len : Nat} (h : len ≤ 16777215) (r : Bits) : hdrParse (hdrTextBits len ++ r) = .text len := by
  have htag : (hdrTextBits len ++ r).take 3 = u2b 3 0 := by
    rw [hdrTextBits, List.append_assoc, List.take_left' (u2b_length 3 0)]
  have hfield : ((hdrTextBits len ++ r).drop 3).take 24 = u2b 24 len := by
    rw [hdrTextBits, List.append_assoc, List.drop_left' (u2b_length 3 0), List.take_left' (u2b_length 24 len)]
  rw [hdrParse_text (by simp) (by rw [htag]; exact b2u_u2b (by decide)), hfield, b2u_u2b (by omega)]

/-- An image header is parsed back, whatever follows it (40_header.md R124). -/
theorem hdrParse_hdrImageBits {height width : Nat} (hh : height ≤ 4095) (hw : width ≤ 4095) (r : Bits) :
    hdrParse (hdrImageBits height width ++ r) = .image height width := by
  have hsplit : hdrImageBits height width ++ r = u2b 3 1 ++ (u2b 12 height ++ (u2b 12 width ++ r)) := by
    simp only [hdrImageBits, List.append_assoc]
  have htag : (hdrImageBits height width ++ r).take 3 = u2b 3 1 := by rw [hsplit, List.take_left' (u2b_length 3 1)]
  have hheight : ((hdrImageBits height width ++ r).drop 3).take 12 = u2b 12 height := by
    rw [hsplit, List.drop_left' (u2b_length 3 1), List.take_left' (u2b_length 12 height)]
  have hwidth : ((hdrImageBits height width ++ r).drop 15).take 12 = u2b 12 width := by
    rw [hsplit, ← List.append_assoc, List.drop_left' (by simp), List.take_left' (u2b_length 12 width)]
  rw [hdrParse_image (by simp) (by rw [htag]; exact b2u_u2b (by decide)), hheight, hwidth, b2u_u2b (by omega),
    b2u_u2b (by omega)]

/-- Only the first 27 bits of a frame are looked at (40_header.md R123). -/
theorem hdrParse_take (s : Bits) : hdrParse (s.take 27) = hdrParse s := by
  have htag : (s.take 27).take 3 = s.take 3 := List.take_take
  have hlen : (s.take 27).length = min 27 s.length := List.length_take
  have hfield (i n : Nat) (hi : i + n ≤ 27) : ((s.take 27).drop i).take n = (s.drop i).take n := by
    rw [List.drop_take, List.take_take, Nat.min_eq_left (by omega)]
  rcases hdrParse_cases s with h | ⟨hl, ht⟩ | ⟨hl, ht⟩ | ⟨hl, ht⟩
  · rw [hdrParse_short h, hdrParse_short (by rw [htag, hlen]; omega)]
  · rw [hdrParse_badTag hl ht, hdrParse_badTag (by omega) (htag ▸ ht), htag]
  · rw [hdrParse_text hl ht, hdrParse_text (by omega) (htag ▸ ht), hfield 3 24 (by decide)]
  · rw [hdrParse_image hl ht, hdrParse_image (by omega) (htag ▸ ht), hfield 3 12 (by decide), hfield 15 12 (by decide)]

/-- Settles O8: each of the two answers is given in its own case of `hdrParse_cases`, and in no other. -/
theorem headerRefusals : Obligations.HeaderRefusals := by
  refine ⟨fun s => ?_, fun s t => ?_⟩
  all_goals
    have htag := tag_le_seven s
    rcases hdrParse_cases s with h | ⟨hl, ht⟩ | ⟨hl, ht⟩ | ⟨hl, ht⟩
  · simp only [hdrParse_short h, true_iff]; exact h
  · simp only [hdrParse_badTag hl ht, reduceCtorEq, false_iff]; omega
  · simp only [hdrParse_text hl ht, reduceCtorEq, false_iff]; omega
  · simp only [hdrParse_image hl ht, reduceCtorEq, false_iff]; omega
  · simp only [hdrParse_short h, reduceCtorEq, false_iff]; omega
  · simp only [hdrParse_badTag hl ht, ParsedHeader.badTag.injEq]; omega
  · simp only [hdrParse_text hl ht, reduceCtorEq, false_iff]; omega
  · simp only [hdrParse_image hl ht, reduceCtorEq, false_iff]; omega

/-! ### Command words -/

/-- The reserved bits of a command word are 0 exactly when the word is below 16 (30_encoding.md R100). -/
theorem reserved_eq_zero_iff (w : Word) : w.extractLsb' 4 28 = 0#28 ↔ w.toNat < 16 := by
  have hw := w.isLt
  rw [← BitVec.toNat_inj, BitVec.extractLsb'_toNat, Nat.shiftRight_eq_div_pow, BitVec.toNat_ofNat]
  omega

/-- A command word of 9 to 15 and one of 16 or more are refused, each by its own name (30_encoding.md R102); every other is the
code of a command (30_encoding.md R101). -/
theorem decode_command_cases (w : Word) :
    (16 ≤ w.toNat ∧ decode (.command w) = .error .reservedBits) ∨
      (9 ≤ w.toNat ∧ w.toNat ≤ 15 ∧ decode (.command w) = .error .reservedOpcode) ∨
      ∃ op : Opcode, w.toNat ≤ 8 ∧ decode (.command w) = .ok op.instr ∧ encode op.instr = .command w := by
  by_cases h : w.toNat < 16
  case neg =>
    have hop : decodeOpcode w = .error .reservedBits := if_pos (mt (reserved_eq_zero_iff w).1 h)
    exact .inl ⟨Nat.le_of_not_lt h, by simp only [decode, decodeCommand, hop]⟩
  case pos =>
    refine .inr ?_
    obtain ⟨n, rfl⟩ : ∃ n : Fin 16, w = BitVec.ofNat 32 n := ⟨⟨w.toNat, h⟩, (BitVec.ofNat_toNat 32 w).symm ▸ by simp⟩
    clear h
    fin_cases n
    · exact .inr ⟨.nop, by decide, rfl, rfl⟩
    · exact .inr ⟨.enct, by decide, rfl, rfl⟩
    · exact .inr ⟨.enci, by decide, rfl, rfl⟩
    · exact .inr ⟨.dec, by decide, rfl, rfl⟩
    · exact .inr ⟨.raw, by decide, rfl, rfl⟩
    · exact .inr ⟨.hpkt, by decide, rfl, rfl⟩
    · exact .inr ⟨.hpki, by decide, rfl, rfl⟩
    · exact .inr ⟨.hunp, by decide, rfl, rfl⟩
    · exact .inr ⟨.clr, by decide, rfl, rfl⟩
    all_goals exact .inl ⟨by decide, by decide, rfl⟩

/-- The word of an opcode is decoded to it (30_encoding.md R101). -/
theorem decode_encode_instr (op : Opcode) : decode (encode op.instr) = .ok op.instr := by cases op <;> rfl

/-- Settles O6: a command word is looked up, a header is parsed back. -/
theorem decodeOfEncodeIsTheInstruction : Obligations.DecodeOfEncodeIsTheInstruction := by
  intro i hwf
  rcases Machine.instr_cases i with ⟨op, rfl⟩ | ⟨len, rfl⟩ | ⟨height, width, rfl⟩
  · exact decode_encode_instr op
  · have hlen : len ≤ 16777215 := of_decide_eq_true hwf
    have hparse := hdrParse_hdrTextBits hlen []
    rw [List.append_nil] at hparse
    simp only [encode, decode, decodeWire, hparse]
  · obtain ⟨hh, hw⟩ := (Bool.and_eq_true ..).mp hwf
    have hparse := hdrParse_hdrImageBits (of_decide_eq_true hh) (of_decide_eq_true hw) []
    rw [List.append_nil] at hparse
    simp only [encode, decode, decodeWire, hparse]

/-- An instruction whose code is a command word is a command, with a word of at most 8 (30_encoding.md R101). -/
theorem command_of_encode {i : Instr} {w : Word} (h : encode i = .command w) :
    decode (.command w) = .ok i ∧ w.toNat ≤ 8 := by
  rcases Machine.instr_cases i with ⟨op, rfl⟩ | ⟨len, rfl⟩ | ⟨height, width, rfl⟩
  · refine ⟨h ▸ decode_encode_instr op, ?_⟩
    cases op <;> cases h <;> decide
  · cases h
  · cases h

/-- Settles O9: each answer is given in its own case of `decode_command_cases`, and in no other. -/
theorem everyCommandWordIsRead : Obligations.EveryCommandWordIsRead := by
  refine ⟨fun w i => ⟨fun h => ?_, fun h => (command_of_encode h).1⟩, fun w => ?_, fun w => ?_⟩
  all_goals rcases decode_command_cases w with ⟨hlo, hw⟩ | ⟨hlo, hhi, hw⟩ | ⟨op, hhi, hw, hcode⟩
  · simp [hw] at h
  · simp [hw] at h
  · rw [hw, Except.ok.injEq] at h
    exact h ▸ hcode
  all_goals simp only [hw, Except.error.injEq, reduceCtorEq, true_iff, false_iff]; omega

/-- Settles O5: the commands by the decoder's table, the headers as the codes of `HDR.TEXT 2` and `HDR.IMAGE 1 1`. -/
theorem specWordsDecode : Obligations.SpecWordsDecode :=
  ⟨decode_encode_instr .nop, decode_encode_instr .enct, decode_encode_instr .enci, decode_encode_instr .dec,
    decode_encode_instr .raw, decode_encode_instr .hpkt, decode_encode_instr .hpki, decode_encode_instr .hunp,
    decode_encode_instr .clr, (everyCommandWordIsRead.2.2 _).2 (by decide),
    (everyCommandWordIsRead.2.1 _).2 (by decide),
    decodeOfEncodeIsTheInstruction (.hdrText 2) rfl, decodeOfEncodeIsTheInstruction (.hdrImage 1 1) rfl⟩

end Sys2Proof
end

section
namespace Sys2Proof.Machine

/-! ### Chunks -/

/-- Bytes are read back from their bits (41_chunker.md R141). -/
theorem bitsToBytes_bytesToBits (B : Bytes) : bitsToBytes (bytesToBits B) = B :=
  bytesToBits_injective (bytesToBits_bitsToBytes _ (by simp))

/-- The region of a frame is the bytes assembled after its header (41_chunker.md R142, 42_codec.md R169). -/
theorem region_assemble {header : Bits} (h : header.length = 27) (cs : List Bytes) :
    region (header ++ assemble cs) = cs.flatten := by
  rw [region, Config.hdrBits, List.drop_left' h, assemble, bitsToBytes_bytesToBits]

section
variable {n : Nat} {c B : Bytes}

@[simp] theorem chunks_nil (n : Nat) : chunks [] n = [] :=
  List.eq_nil_of_length_eq_zero (by
    rw [chunks_length, ceilDiv, List.length_nil]
    cases n with
    | zero => rfl
    | succ n => exact Nat.div_eq_of_lt (by omega))

/-- Bytes that fill no more than one chunk are one chunk (41_chunker.md R143). -/
theorem chunks_of_length_le (hne : c ≠ []) (hle : c.length ≤ n) : chunks c n = [c] := by
  have hpos := List.length_pos_iff.2 hne
  have hone : ceilDiv c.length n = 1 := Nat.div_eq_of_lt_le (by omega) (by omega)
  simp [chunks, hone, List.take_of_length_le hle]

/-- A full chunk in front is the first chunk (41_chunker.md R143). -/
theorem chunks_append (hn : 0 < n) (hc : c.length = n) : chunks (c ++ B) n = c :: chunks B n := by
  have hcount : ceilDiv (c ++ B).length n = ceilDiv B.length n + 1 := by
    rw [ceilDiv, ceilDiv, List.length_append, hc, ← Nat.add_div_right _ hn]
    congr 1; omega
  rw [chunks, hcount, List.range_succ_eq_map, List.map_cons, List.map_map, chunks]
  congr 1
  · simp [← hc]
  · refine List.map_congr_left fun i _ => ?_
    have hdrop : (c ++ B).drop (c.length + i * n) = B.drop (i * n) := List.drop_length_add_append ..
    rw [Function.comp_apply, Nat.succ_mul, Nat.add_comm, ← hdrop, hc]

/-- Bytes are nothing, a last chunk, or a full chunk and more bytes: the induction along the chunks. -/
theorem chunk_induction {P : Bytes → Prop} (hn : 0 < n) (nil : P [])
    (last : ∀ c : Bytes, c ≠ [] → c.length ≤ n → P c)
    (full : ∀ c B : Bytes, c.length = n → P B → P (c ++ B)) (B : Bytes) : P B := by
  induction hlen : B.length using Nat.strong_induction_on generalizing B with
  | _ m ih =>
    by_cases hne : B = []
    · exact hne ▸ nil
    · by_cases hle : B.length ≤ n
      · exact last B hne hle
      · rw [← List.take_append_drop n B]
        refine full _ _ (List.length_take_of_le (by omega)) (ih _ ?_ _ rfl)
        rw [List.length_drop]; omega

/-- The chunks in order are the bytes (41_chunker.md R143). -/
theorem flatten_chunks (hn : 0 < n) (B : Bytes) : (chunks B n).flatten = B := by
  induction B using chunk_induction hn with
  | nil => simp
  | last c hne hle => simp [chunks_of_length_le hne hle]
  | full c B hc ih => rw [chunks_append hn hc, List.flatten_cons, ih]

end

/-! ### Message blocks and their codewords -/

/-- A full block is unchanged by padding (41_chunker.md R144). -/
theorem padBlock_of_length {b : Bytes} (h : b.length = 223) : padBlock b = b := by simp [padBlock, Config.messageK, h]

@[simp] theorem msgBlocks_nil (pad : Bool) : msgBlocks [] pad = [] := by cases pad <;> simp [msgBlocks]

/-- A last message block is padded where it is asked (41_chunker.md R144). -/
theorem msgBlocks_of_length_le {c : Bytes} (pad : Bool) (hne : c ≠ []) (hle : c.length ≤ 223) :
    msgBlocks c pad = [if pad then padBlock c else c] := by
  cases pad <;> simp [msgBlocks, Config.messageK, chunks_of_length_le hne hle]

/-- A full message block in front is the first block (41_chunker.md R144). -/
theorem msgBlocks_append {c : Bytes} (B : Bytes) (pad : Bool) (hc : c.length = 223) :
    msgBlocks (c ++ B) pad = c :: msgBlocks B pad := by
  cases pad <;> simp [msgBlocks, Config.messageK, chunks_append (by decide) hc, padBlock_of_length hc]

/-- The codeword of a message block has 32 bytes more (42_codec.md R162). -/
theorem enc_length_of_mem {k : Codec} (hk : k.EncodeLength) {B b : Bytes} {pad : Bool} (h : b ∈ msgBlocks B pad) :
    (k.enc b).length = b.length + 32 := by
  obtain ⟨hpos, hle, _⟩ := mem_msgBlocks_length h
  exact hk b hpos hle

/-- Cutting the codewords of a message gives them back one by one (41_chunker.md R148). -/
theorem cwBlocks_codewords {k : Codec} (hk : k.EncodeLength) (pad : Bool) (B : Bytes) :
    cwBlocks ((msgBlocks B pad).map k.enc).flatten = (msgBlocks B pad).map k.enc := by
  induction B using chunk_induction (n := 223) (by decide) with
  | nil => simp [cwBlocks]
  | last c hne hle =>
    obtain ⟨m, hm⟩ : ∃ m, msgBlocks c pad = [m] := ⟨_, msgBlocks_of_length_le pad hne hle⟩
    have hmem : m ∈ msgBlocks c pad := by simp [hm]
    have hlen := enc_length_of_mem hk hmem
    obtain ⟨_, hle, _⟩ := mem_msgBlocks_length hmem
    have hone : cwBlocks (k.enc m) = [k.enc m] :=
      chunks_of_length_le (List.length_pos_iff.1 (by omega)) (by simp only [Config.blockN]; omega)
    simp [hm, hone]
  | full c B hc ih =>
    have hlen : (k.enc c).length = 255 :=
      (hk c (by omega) (by simp only [Config.messageK]; omega)).trans (by rw [hc, Config.parityP])
    rw [msgBlocks_append B pad hc, List.map_cons, List.flatten_cons]
    exact (chunks_append (by decide) hlen).trans (congrArg _ ih)

/-- The codewords of a message have 32 bytes a block more than its blocks. -/
theorem codewords_length {k : Codec} (hk : k.EncodeLength) (B : Bytes) (pad : Bool) :
    ((msgBlocks B pad).map k.enc).flatten.length = (msgBlocks B pad).flatten.length + 32 * ceilDiv B.length 223 := by
  have hsum : ∀ bs : List Bytes, (∀ b ∈ bs, (k.enc b).length = b.length + 32) →
      (bs.map k.enc).flatten.length = bs.flatten.length + 32 * bs.length := by
    intro bs
    induction bs with
    | nil => simp
    | cons b bs ih =>
      intro h
      have hb := h b (by simp)
      have hbs := ih fun c hc => h c (by simp [hc])
      simp only [List.map_cons, List.flatten_cons, List.length_append, List.length_cons]
      omega
  rw [hsum _ fun b hb => enc_length_of_mem hk hb, msgBlocks_length]

/-- Padded message blocks have 223 bytes each (41_chunker.md R144). -/
theorem padded_length (B : Bytes) : (msgBlocks B true).flatten.length = 223 * ceilDiv B.length 223 := by
  have hall : ∀ b ∈ msgBlocks B true, b.length = 223 := fun b hb => (mem_msgBlocks_length hb).2.2 rfl
  rw [List.length_flatten, List.map_congr_left hall, List.map_const', List.sum_replicate, msgBlocks_length, smul_eq_mul,
    Nat.mul_comm]

/-- Without padding the message blocks are the message (41_chunker.md R143, R144). -/
theorem unpadded_length (B : Bytes) : (msgBlocks B false).flatten.length = B.length := by
  rw [show msgBlocks B false = chunks B 223 from rfl, flatten_chunks (by decide)]

/-- Settles O13: the region of a frame is its codewords joined, which are cut back one by one. -/
theorem framesAreCutBackIntoCodewords : Obligations.FramesAreCutBackIntoCodewords := by
  intro k B hk
  have hcut {header : Bits} (h : header.length = 27) (pad : Bool) :
      cwBlocks (region (header ++ assemble ((msgBlocks B pad).map k.enc))) = (msgBlocks B pad).map k.enc := by
    rw [region_assemble h, cwBlocks_codewords hk]
  have htext : cwBlocks (region (frameText k B)) = (msgBlocks B true).map k.enc := hcut (hdrTextBits_length _) true
  have hcodewords := codewords_length hk B
  refine ⟨htext, by rw [htext, List.length_map, msgBlocks_length], ?_, fun height width hB => ?_⟩
  · rw [frameText, List.length_append, hdrTextBits_length, assemble, bytesToBits_length, hcodewords, padded_length]
    omega
  · have himage : cwBlocks (region (frameImage k B height width)) = (msgBlocks B false).map k.enc :=
      hcut (hdrImageBits_length _ _) false
    refine ⟨himage, by rw [himage, List.length_map, msgBlocks_length], ?_⟩
    rw [frameImage, List.length_append, hdrImageBits_length, assemble, bytesToBits_length, hcodewords, unpadded_length, hB]

end Sys2Proof.Machine
end

section
namespace Sys2Proof.Machine

/-! ### Codec requests -/

/-- Every block the sequencer is at is one of the blocks. -/
theorem mem_of_blockAt {α : Type} {o : Option α} {f : α → List Bytes} {i : Nat} {c : Bytes}
    (h : blockAt (o.map f) i = some c) : ∃ a, c ∈ f a := by
  cases o with
  | none => cases h
  | some a => exact ⟨a, List.mem_of_getElem? h⟩

/-- A request asks for the codeword of a message block of an encoder, or for the message of a codeword block of `DEC`
(30_encoding.md R104, 42_codec.md R172). -/
theorem codecRequest_cases {s : State} {r : CodecRequest} (h : codecRequest s = some r) :
    s.phase = .block ∧
      ((∃ m, r = encodeRequest m ∧ 1 ≤ m.length ∧ m.length ≤ 223 ∧ (s.work.op = .enct ∨ s.work.op = .enci)) ∨
        ∃ c, r = decodeRequest c ∧ 1 ≤ c.length ∧ c.length ≤ 255 ∧ s.work.op = .dec) := by
  unfold codecRequest at h
  split at h
  case h_2 => cases h
  case h_1 hp =>
    refine ⟨hp, ?_⟩
    split at h
    case h_4 => cases h
    case h_3 hop =>
      obtain ⟨c, hc, rfl⟩ := Option.map_eq_some_iff.1 h
      obtain ⟨bits, hmem⟩ := mem_of_blockAt hc
      obtain ⟨hpos, hle⟩ := mem_cwBlocks_length hmem
      exact .inr ⟨c, rfl, hpos, hle, hop⟩
    all_goals
      rename_i hop
      obtain ⟨m, hm, rfl⟩ := Option.map_eq_some_iff.1 h
      obtain ⟨B, hmem⟩ := mem_of_blockAt hm
      obtain ⟨hpos, hle, _⟩ := mem_msgBlocks_length hmem
    · exact .inl ⟨m, rfl, hpos, hle, .inl hop⟩
    · exact .inl ⟨m, rfl, hpos, hle, .inr hop⟩

/-- An encode request is answered with the codeword (42_codec.md R167). -/
theorem codecRespond_encode {k : Codec} {r : CodecRequest} (h : r.op = false) :
    codecRespond k r = { ok := true, data := k.enc r.data } := by simp [codecRespond, h]

/-- A decode request is answered with the corrected message (42_codec.md R168). -/
theorem codecRespond_decode {k : Codec} {r : CodecRequest} {m : Bytes} (h : r.op = true) (hd : k.dec r.data = some m) :
    codecRespond k r = { ok := true, data := m } := by simp [codecRespond, h, hd]

/-- A decode request the codec fails on is answered without data (42_codec.md R168, 30_encoding.md R104). -/
theorem codecRespond_fail {k : Codec} {r : CodecRequest} (h : r.op = true) (hd : k.dec r.data = none) :
    codecRespond k r = { ok := false, data := [] } := by simp [codecRespond, h, hd]

/-- Settles O55: by the two kinds of request, and what the codec responds to each. -/
theorem codecRequestsAreWellFormed : Obligations.CodecRequestsAreWellFormed := by
  refine ⟨fun s r h => ?_, fun k s r h ha => ⟨codecRespond k r, codecTurn_of_request h ha, fun hop => ?_, fun m hop hd => ?_,
    fun hop hd => ?_⟩⟩
  · obtain ⟨hp, ⟨m, rfl, hpos, hle, hop⟩ | ⟨c, rfl, hpos, hle, hop⟩⟩ := codecRequest_cases h
    · exact ⟨hp, rfl, hpos, hle.trans (by decide), fun _ => ⟨hle, hop⟩, fun h => (nomatch h)⟩
    · exact ⟨hp, rfl, hpos, hle, fun h => (nomatch h), fun _ => hop⟩
  · rw [codecRespond_encode hop]; exact ⟨rfl, rfl⟩
  · rw [codecRespond_decode hop hd]; exact ⟨rfl, rfl⟩
  · rw [codecRespond_fail hop hd]; exact ⟨rfl, rfl⟩

/-! ### Encoders -/

/-- A command whose phase HDR aborts. -/
theorem runCommand_of_raise {k : Codec} {p : Phases} {op : Opcode} {s : State} {e : ErrKind} {sub : BitVec 2} {info : Nat}
    (hb : s.status.busy = false) (h : p.hdr (issue op s) = .next (raise e sub info (issue op s))) :
    runCommand k p op s = .next (aborted s (errCode e) sub (BitVec.ofNat 32 info) s.obuf) :=
  runCommand_of_idle hb h rfl

/-- The same where the information is the content of a register. -/
theorem runCommand_of_raise_word {k : Codec} {p : Phases} {op : Opcode} {s : State} {e : ErrKind} {sub : BitVec 2} {v : Word}
    (hb : s.status.busy = false) (h : p.hdr (issue op s) = .next (raise e sub v.toNat (issue op s))) :
    runCommand k p op s = .next (aborted s (errCode e) sub v s.obuf) := by
  rw [runCommand_of_raise hb h, BitVec.ofNat_toNat, BitVec.setWidth_eq]

/-! Phase HDR of the encoders, in the order of its tests (43_encoder.md R181, R184). -/

section
variable {s : State}

theorem hdrEnct_range (h : Config.lenMax < s.inLen.toNat / 8) :
    hdrEnct s = .next (raise .range 0#2 (s.inLen.toNat / 8) s) := if_pos h

theorem hdrEnct_ragged (hlen : s.inLen.toNat / 8 ≤ Config.lenMax) (h : s.inLen.toNat % 8 ≠ 0) :
    hdrEnct s = .next (raise .operand 1#2 s.inLen.toNat s) := by
  rw [hdrEnct, if_neg (Nat.not_lt.2 hlen), if_pos h]

theorem hdrEnct_begins (hlen : s.inLen.toNat / 8 ≤ Config.lenMax) (hmod : s.inLen.toNat % 8 = 0) :
    hdrEnct s = beginEncode (textBlocks s) 0#3 (s.inLen.toNat / 8) 0 0 (hdrTextBits (s.inLen.toNat / 8)) s := by
  rw [hdrEnct, if_neg (Nat.not_lt.2 hlen), if_neg (not_not_intro hmod)]

theorem hdrEnci_height (h : Config.dimMax < s.arg0.toNat) : hdrEnci s = .next (raise .range 1#2 s.arg0.toNat s) := if_pos h

theorem hdrEnci_width (hheight : s.arg0.toNat ≤ Config.dimMax) (h : Config.dimMax < s.arg1.toNat) :
    hdrEnci s = .next (raise .range 2#2 s.arg1.toNat s) := by
  rw [hdrEnci, if_neg (Nat.not_lt.2 hheight), if_pos h]

theorem hdrEnci_size (hheight : s.arg0.toNat ≤ Config.dimMax) (hwidth : s.arg1.toNat ≤ Config.dimMax)
    (h : s.inLen.toNat ≠ 8 * (3 * s.arg0.toNat * s.arg1.toNat)) :
    hdrEnci s = .next (raise .operand 2#2 s.inLen.toNat s) := by
  rw [hdrEnci, if_neg (Nat.not_lt.2 hheight), if_neg (Nat.not_lt.2 hwidth), if_pos h]

theorem hdrEnci_begins (hheight : s.arg0.toNat ≤ Config.dimMax) (hwidth : s.arg1.toNat ≤ Config.dimMax)
    (hlen : s.inLen.toNat = 8 * (3 * s.arg0.toNat * s.arg1.toNat)) :
    hdrEnci s =
      beginEncode (imageBlocks s) 1#3 0 s.arg0.toNat s.arg1.toNat (hdrImageBits s.arg0.toNat s.arg1.toNat) s := by
  rw [hdrEnci, if_neg (Nat.not_lt.2 hheight), if_neg (Nat.not_lt.2 hwidth), if_neg (not_not_intro hlen)]

end

/-- An encoder asks for the codeword of the block it is at (42_codec.md R172). -/
theorem codecRequest_encoding {s : State} (hop : encoding s.work.op = true) (hp : s.phase = .block) :
    codecRequest s = (blockAt (commandBlocks s) s.blk).map encodeRequest := by
  rw [codecRequest, hp, commandBlocks]
  cases ho : s.work.op <;> simp_all [encoding]

/-- An encoder that begins on the blocks `bs` and whose frame fits `OBUF` delivers it, with any codec (43_encoder.md R181,
R184). -/
theorem encoder_delivers {k : Codec} {op : Opcode} {s : State} {bs : List Bytes} {tt : BitVec 3} {len height width : Nat}
    {header : Bits} {res0 res1 : Nat} (hop : encoding op = true) (hblock : (opPhases op).block = appendCodeword)
    (hb : s.status.busy = false) (hbs : commandBlocks (issue op s) = some bs)
    (hhdr : (opPhases op).hdr (issue op s) = beginEncode (some bs) tt len height width header (issue op s))
    (hfin : ∀ u : State, u.work.l = len → u.work.h = height → u.work.w = width →
      (opPhases op).fin u = finishEncode tt res0 res1 u)
    (hheader : header.length = 27) (hfit : (header ++ assemble (bs.map k.enc)).length ≤ Config.capBits) :
    runCommand k (opPhases op) op s =
      .next (delivered s tt false false (header ++ assemble (bs.map k.enc)).length res0 res1 bs.length 0
        (Memory.ofBytes (packBits (header ++ assemble (bs.map k.enc))))) := by
  rw [List.length_append, hheader, assemble, bytesToBits_length] at hfit
  rw [runCommand_of_next hb hhdr, enterBlocks_work, encode_run k _ hblock bs []]
  · exact (hfin _ rfl rfl rfl).trans (finishEncode_delivers rfl rfl rfl rfl rfl rfl rfl rfl rfl rfl)
  · intro t hbuf hlen hwork hp
    have hto : t.work.op = op := hwork
    rw [codecRequest_encoding (hto ▸ hop) hp, commandBlocks_congr (s := issue op s) hto hbuf hlen, hbs]
    rfl
  · simp
  · rfl
  · rfl
  · cases bs <;> simp
  · simpa using hfit

/-- `ENCT` with any codec delivers the frame of a message that is read, where the frame fits `OBUF` (43_encoder.md R181). -/
theorem execEnctWith_delivers {k : Codec} {s : State} {B : Bytes} (hb : s.status.busy = false)
    (hlen : s.inLen.toNat / 8 ≤ 16777215) (hmod : s.inLen.toNat % 8 = 0) (hB : inputBytes s (s.inLen.toNat / 8) = some B)
    (hfit : (frameText k B).length ≤ Config.capBits) :
    execEnctWith k s = .next (delivered s 0#3 false false (frameText k B).length B.length 0 (ceilDiv B.length 223) 0
      (Memory.ofBytes (packBits (frameText k B)))) := by
  have hblocks : textBlocks (issue .enct s) = some (msgBlocks B true) := congrArg (Option.map _) hB
  rw [← msgBlocks_length B true]
  refine encoder_delivers (op := .enct) (header := hdrTextBits B.length) (len := B.length) (height := 0) (width := 0) rfl rfl
    hb hblocks ?_ ?_ (hdrTextBits_length _) hfit
  · rw [inputBytes_length hB, ← hblocks]
    exact hdrEnct_begins (s := issue .enct s) hlen hmod
  · rintro u hl - -
    exact congrArg (finishEncode 0#3 · 0 u) hl

/-- `ENCI` with any codec delivers the frame of pixel bytes that are read, where the frame fits `OBUF` (43_encoder.md R184). -/
theorem execEnciWith_delivers {k : Codec} {s : State} {B : Bytes} (hb : s.status.busy = false) (hheight : s.arg0.toNat ≤ 4095)
    (hwidth : s.arg1.toNat ≤ 4095) (hlen : s.inLen.toNat = 8 * (3 * s.arg0.toNat * s.arg1.toNat))
    (hB : inputBytes s (s.inLen.toNat / 8) = some B)
    (hfit : (frameImage k B s.arg0.toNat s.arg1.toNat).length ≤ Config.capBits) :
    execEnciWith k s = .next (delivered s 1#3 false false (frameImage k B s.arg0.toNat s.arg1.toNat).length s.arg0.toNat
      s.arg1.toNat (ceilDiv B.length 223) 0 (Memory.ofBytes (packBits (frameImage k B s.arg0.toNat s.arg1.toNat)))) := by
  have hblocks : imageBlocks (issue .enci s) = some (msgBlocks B false) := congrArg (Option.map _) hB
  rw [← msgBlocks_length B false]
  refine encoder_delivers (op := .enci) (header := hdrImageBits s.arg0.toNat s.arg1.toNat) (len := 0) (height := s.arg0.toNat)
    (width := s.arg1.toNat) rfl rfl hb hblocks ?_ ?_ (hdrImageBits_length _ _) hfit
  · rw [← hblocks]
    exact hdrEnci_begins (s := issue .enci s) hheight hwidth hlen
  · rintro u - hh hw
    show finishEncode 1#3 u.work.h u.work.w u = _
    rw [hh, hw]

/-- Codewords that fit the port fit 255 bytes a block (30_encoding.md R104). -/
theorem assemble_length_le {k : Codec} (hk : k.FitsPort) (bs : List Bytes) :
    (assemble (bs.map k.enc)).length ≤ 8 * (255 * bs.length) := by
  induction bs with
  | nil => simp [assemble]
  | cons b bs ih =>
    have hb := hk.1 b
    simp only [assemble, bytesToBits_length, List.map_cons, List.flatten_cons, List.length_append, List.length_cons] at ih ⊢
    omega

/-- The attached codec's answers fit the port (30_encoding.md R104, log entry 3). -/
theorem codec_fitsPort : Config.codec.FitsPort := ⟨Config.codec_enc_length, fun _ _ => Config.codec_dec_length⟩

/-- The frame of the longest text fits `OBUF` (43_encoder.md R188). -/
theorem frameText_fits {k : Codec} (hk : k.FitsPort) {B : Bytes} (h : B.length ≤ 16777215) :
    (frameText k B).length ≤ Config.capBits := by
  have hcw := assemble_length_le hk (msgBlocks B true)
  rw [msgBlocks_length, ceilDiv] at hcw
  rw [frameText, List.length_append, hdrTextBits_length, Config.capBits]
  omega

/-- The frame of the largest image fits `OBUF` (43_encoder.md R188). -/
theorem frameImage_fits {k : Codec} (hk : k.FitsPort) {B : Bytes} {height width : Nat} (hh : height ≤ 4095)
    (hw : width ≤ 4095) (h : B.length = 3 * height * width) : (frameImage k B height width).length ≤ Config.capBits := by
  have hpixels : height * width ≤ 4095 * 4095 := Nat.mul_le_mul hh hw
  have hcw := assemble_length_le hk (msgBlocks B false)
  rw [msgBlocks_length, ceilDiv, h, Nat.mul_assoc] at hcw
  rw [frameImage, List.length_append, hdrImageBits_length, Config.capBits]
  omega

/-- Settles O36: the two tests of phase HDR in their order, then the frame, which fits. -/
theorem enctEncodesATextFrame : Obligations.EnctEncodesATextFrame := by
  intro s hb
  refine ⟨fun hlen => ?range, fun hlen hmod => ?ragged, fun B hlen hmod hB => ?frame⟩
  case range =>
    exact runCommand_of_raise (p := enctPhases) (e := .range) hb (hdrEnct_range (s := issue .enct s) hlen)
  case ragged =>
    exact runCommand_of_raise_word (p := enctPhases) (e := .operand) hb (hdrEnct_ragged (s := issue .enct s) hlen hmod)
  case frame =>
    exact execEnctWith_delivers hb hlen hmod hB (frameText_fits codec_fitsPort (by rwa [inputBytes_length hB]))

/-- Settles O37: the three tests of phase HDR in their order, then the frame, which fits. -/
theorem enciEncodesAnImageFrame : Obligations.EnciEncodesAnImageFrame := by
  intro s hb
  refine ⟨fun hheight => ?height, fun hheight hwidth => ?width, fun hheight hwidth hlen => ?size,
    fun B hheight hwidth hlen hB => ?frame⟩
  case height =>
    exact runCommand_of_raise_word (p := enciPhases) (e := .range) hb (hdrEnci_height (s := issue .enci s) hheight)
  case width =>
    exact runCommand_of_raise_word (p := enciPhases) (e := .range) hb (hdrEnci_width (s := issue .enci s) hheight hwidth)
  case size =>
    exact runCommand_of_raise_word (p := enciPhases) (e := .operand) hb (hdrEnci_size (s := issue .enci s) hheight hwidth hlen)
  case frame =>
    have hdiv : s.inLen.toNat / 8 = 3 * s.arg0.toNat * s.arg1.toNat := by omega
    exact execEnciWith_delivers hb hheight hwidth hlen (by rwa [hdiv])
      (frameImage_fits codec_fitsPort hheight hwidth (inputBytes_length hB))

end Sys2Proof.Machine
end

section
namespace Sys2Proof.Machine

/-! ### The input of a decode -/

/-- The first `n` bytes are the first `8·n` bits (00_scope.md R8). -/
theorem bytesToBits_take {B : Bytes} {n : Nat} (h : n ≤ B.length) : bytesToBits (B.take n) = (bytesToBits B).take (8 * n) := by
  conv_rhs => rw [← List.take_append_drop n B, bytesToBits_append]
  rw [List.take_left' (by rw [bytesToBits_length, List.length_take_of_le h])]

/-- The first bits of an input that is read are read (20_memory.md R62). -/
theorem inputBits_take {s : State} {n m : Nat} {bits : Bits} (h : inputBits s n = some bits) (hm : m ≤ n) :
    inputBits s m = some (bits.take m) := by
  obtain ⟨B, hB, rfl⟩ := Option.map_eq_some_iff.1 h
  have hbytes : ceilDiv m 8 ≤ ceilDiv n 8 := Nat.div_le_div_right (by omega)
  have hcover : m ≤ 8 * ceilDiv m 8 := by simp only [ceilDiv]; omega
  have hprefix : inputBytes s (ceilDiv m 8) = some (B.take (ceilDiv m 8)) := Memory.readBytes_take hB hbytes
  rw [inputBits, hprefix, Option.map_some, bytesToBits_take (by rwa [inputBytes_length hB]), List.take_take, List.take_take,
    Nat.min_eq_left hcover, Nat.min_eq_left hm]

/-- The bits in which the engine looks for the header (44_decoder.md R201). -/
theorem inputBits_header {s : State} {bits : Bits} (h : inputBits s s.inLen.toNat = some bits) :
    inputBits s (min s.inLen.toNat 27) = some (bits.take 27) := by
  rw [inputBits_take h (Nat.min_le_left _ _), ← inputBits_length h, List.take_eq_take_min (i := 27), Nat.min_comm]

/-! ### Opening the region -/

/-- The working values of `DEC` once the header is read and `n` blocks are counted (10_state.md R43, 44_decoder.md R201). -/
def decWork (tt : BitVec 3) (len height width n : Nat) : Work :=
  { Work.none with op := .dec, t := tt, l := len, h := height, w := width, nblk := n }

/-- `DEC`, issued on `s`, passes its tests, sets the working values `w` and goes on to the blocks `cs`. -/
structure OpensRegion (s : State) (w : Work) (cs : List Bytes) : Prop where
  notBusy : s.status.busy = false
  blocks : codewordBlocks s = some cs
  opened : hdrDec (issue .dec s) = .next (enterBlocks { issue .dec s with work := w })
  op : w.op = .dec
  nblk : w.nblk = cs.length
  acc : w.acc = 0
  nfail : w.nfail = 0

/-- The tests of the region pass on whole bytes that hold the declared payload (44_decoder.md R201, R203). -/
theorem enterRegion_opens {s : State} {bits : Bits} (hbits : inputBits s s.inLen.toNat = some bits)
    (hmod : (bits.length - 27) % 8 = 0) (hpay : payloadLen s.work ≤ (bits.length - 27) / 8) :
    enterRegion s = .next (enterBlocks { s with
      work := { s.work with nblk := (cwBlocks (region bits)).length, acc := 0, nfail := 0 } }) := by
  rw [inputBits_length hbits] at hmod hpay
  rw [enterRegion, Config.hdrBits, if_neg (not_not_intro hmod), if_neg (Nat.not_lt.2 hpay), codewordBlocks, hbits]
  rfl

/-- A frame whose header is read and whose region passes its tests is opened. -/
theorem opensRegion_of_header {s : State} {bits : Bits} {tt : BitVec 3} {len height width : Nat}
    (hb : s.status.busy = false) (hbits : inputBits s s.inLen.toNat = some bits)
    (hheader : fetchHeader (issue .dec s) = enterRegion (setHeader tt len height width (issue .dec s)))
    (hmod : (bits.length - 27) % 8 = 0)
    (hpay : payloadLen (setHeader tt len height width (issue .dec s)).work ≤ (bits.length - 27) / 8) :
    OpensRegion s (decWork tt len height width (cwBlocks (region bits)).length) (cwBlocks (region bits)) where
  notBusy := hb
  blocks := congrArg (Option.map _) hbits
  opened := hheader.trans (enterRegion_opens (s := setHeader tt len height width (issue .dec s)) hbits hmod hpay)
  op := rfl
  nblk := rfl
  acc := rfl
  nfail := rfl

section
variable {s : State} {bits : Bits}

/-- A readable text frame is opened (44_decoder.md R201, R202). -/
theorem opensRegion_text {len : Nat} (hb : s.status.busy = false) (hcap : s.inLen.toNat ≤ Config.capBits)
    (hbits : inputBits s s.inLen.toNat = some bits) (hparse : hdrParse bits = .text len)
    (hmod : (bits.length - 27) % 8 = 0) (hpay : len ≤ (bits.length - 27) / 8) :
    OpensRegion s (decWork 0#3 len 0 0 (cwBlocks (region bits)).length) (cwBlocks (region bits)) := by
  have hfetch := fetchHeader_text (s := issue .dec s) hcap (inputBits_header hbits) ((hdrParse_take bits).trans hparse)
  exact opensRegion_of_header hb hbits (hfetch.trans (execHdrText_decode rfl (.inl rfl))) hmod hpay

/-- A readable image frame is opened (44_decoder.md R201, R202). -/
theorem opensRegion_image {height width : Nat} (hb : s.status.busy = false) (hcap : s.inLen.toNat ≤ Config.capBits)
    (hbits : inputBits s s.inLen.toNat = some bits) (hparse : hdrParse bits = .image height width)
    (hmod : (bits.length - 27) % 8 = 0) (hpay : 3 * height * width ≤ (bits.length - 27) / 8) :
    OpensRegion s (decWork 1#3 0 height width (cwBlocks (region bits)).length) (cwBlocks (region bits)) := by
  have hfetch := fetchHeader_image (s := issue .dec s) hcap (inputBits_header hbits) ((hdrParse_take bits).trans hparse)
  exact opensRegion_of_header hb hbits (hfetch.trans (execHdrImage_decode rfl (.inl rfl))) hmod hpay

/-- A readable frame of either kind is opened, whatever `CTRL` holds. -/
theorem opensRegion_declared {n : Nat} (hb : s.status.busy = false) (hcap : s.inLen.toNat ≤ Config.capBits)
    (hbits : inputBits s s.inLen.toNat = some bits) (hn : declaredLength (hdrParse bits) = some n)
    (hmod : (bits.length - 27) % 8 = 0) (hpay : n ≤ (bits.length - 27) / 8) :
    ∃ w, ∀ ctrl : Ctrl, OpensRegion { s with ctrl := ctrl } w (cwBlocks (region bits)) := by
  cases hparse : hdrParse bits with
  | short => simp [hparse, declaredLength] at hn
  | badTag tag => simp [hparse, declaredLength] at hn
  | text len =>
    simp only [hparse, declaredLength, Option.some.injEq] at hn
    exact ⟨_, fun ctrl => opensRegion_text (s := { s with ctrl := ctrl }) hb hcap hbits hparse hmod (hn ▸ hpay)⟩
  | image height width =>
    simp only [hparse, declaredLength, Option.some.injEq] at hn
    exact ⟨_, fun ctrl => opensRegion_image (s := { s with ctrl := ctrl }) hb hcap hbits hparse hmod (hn ▸ hpay)⟩

end

/-! ### How `DEC` ends -/

section
variable {k : Codec} {s : State} {w : Work} {cs : List Bytes}

/-- Past phase HDR, `DEC` is a run over the blocks (45_control.md R249). -/
theorem OpensRegion.run (h : OpensRegion s w cs) (k : Codec) :
    execDecWith k s = runPhases k decPhases (cs.length + 1) (enterBlocks { issue .dec s with work := w }) := by
  rw [execDecWith, runCommand_of_next h.notBusy h.opened, enterBlocks_work, h.nblk]

/-- The phase in which the run over the blocks starts. -/
theorem OpensRegion.phase (h : OpensRegion s w cs) :
    (enterBlocks { issue .dec s with work := w }).phase = if cs = [] then .fin else .block := by
  rw [enterBlocks_phase, h.nblk]
  cases cs <;> simp

/-- `DEC` as it enters phase FIN, with the pieces `acc` in `OBUF` and `nfail` fallbacks. -/
def atFin (s : State) (w : Work) (acc : Bytes) (nfail : Nat) : State :=
  { issue .dec s with
    phase := .fin, blk := w.nblk, answer := none
    obuf := Memory.setBytes s.obuf 0 acc
    work := { w with acc := acc.length, nfail := nfail } }

/-- Pieces that fit, none of them refused, bring `DEC` to phase FIN (44_decoder.md R201, R205 to R208). -/
theorem OpensRegion.reachesFin (h : OpensRegion s w cs) (hf : s.ctrl.fben = true ∨ ∀ c ∈ cs, k.dec c ≠ none)
    (hfit : (decodedBytes k cs).length ≤ Config.capBytes) :
    execDecWith k s = finishDecode (atFin s w (decodedBytes k cs) (failedBlocks k cs)) := by
  have hrun := decode_run k cs [] (enterBlocks { issue .dec s with work := w }) h.blocks h.op hf
    (by simpa using h.nblk) rfl rfl h.phase (by simpa [h.acc] using hfit)
  rw [h.run, hrun, finDec, atFin]
  simp only [enterBlocks_work, enterBlocks_obuf, issue_obuf, h.acc, h.nfail, Nat.zero_add]
  rfl

/-- `IN_LEN` as the information of an abort. -/
theorem aborted_inLen (s : State) (err : BitVec 4) (sub : BitVec 2) (ob : List Host.Cell) :
    aborted s err sub (BitVec.ofNat 32 s.inLen.toNat) ob = aborted s err sub s.inLen ob := by
  rw [BitVec.ofNat_toNat, BitVec.setWidth_eq]

/-- A text payload that is short aborts (44_decoder.md R216). -/
theorem finishDecode_short {acc : Bytes} {nfail : Nat} (htext : w.t = 0#3) (hshort : acc.length < payloadLen w) :
    finishDecode (atFin s w acc nfail) = .next (aborted s 5#4 3#2 s.inLen (Memory.setBytes s.obuf 0 acc)) :=
  (if_pos ⟨htext, hshort⟩).trans (congrArg _ (aborted_inLen ..))

/-- Any other payload is delivered, cut or filled to the declared length (44_decoder.md R214 to R217). -/
theorem finishDecode_delivers {acc : Bytes} {nfail : Nat} (h : w.t = 0#3 → payloadLen w ≤ acc.length) :
    finishDecode (atFin s w acc nfail) = .next (delivered s w.t (decide (0 < nfail))
      (txeFlag w.t (imagePayload (payloadLen w) acc)) (8 * payloadLen w) (if w.t = 0#3 then w.l else w.h)
      (if w.t = 0#3 then 0 else w.w) w.nblk nfail (Memory.ofBytes (imagePayload (payloadLen w) acc))) := by
  have hout : outputBytes (atFin s w acc nfail) acc.length = acc := outputBytes_setBytes (m := s.obuf) rfl
  have hlong : ¬ (w.t = 0#3 ∧ acc.length < payloadLen w) := fun ⟨ht, hlt⟩ => Nat.not_lt.2 (h ht) hlt
  rw [← trimOrPad_eq_imagePayload]
  refine (if_neg hlong).trans (congrArg _ ?_)
  refine (congrArg (fun out => decodeResults (trimOrPad (payloadLen w) out) (atFin s w acc nfail)) hout).trans ?_
  exact decodeResults_delivers rfl rfl rfl rfl rfl rfl rfl rfl rfl rfl

/-- The rounds of a run split at a block. -/
theorem rounds_split (done later : List Bytes) (c : Bytes) :
    (done ++ c :: later).length + 1 = done.length + ((later.length + 1) + 1) := by
  simp only [List.length_append, List.length_cons]; omega

/-- A block whose piece would pass the end of `OBUF` aborts `DEC` (44_decoder.md R212). -/
theorem runPhases_overflows {u : State} {c : Bytes} (hp : u.phase = .block) (hop : u.work.op = .dec) (ha : u.answer = none)
    (hc : blockAt (codewordBlocks u) u.blk = some c) (hf : u.ctrl.fben = true ∨ k.dec c ≠ none)
    (hover : Config.capBytes < u.work.acc + ((k.dec c).getD (msgPrefix c)).length) (n : Nat) :
    runPhases k decPhases (n + 1) u = .next (raise .operand 0#2 u.inLen.toNat u) := by
  rw [decode_round hp, blockDec_round hp hop ha hc hf, appendPiece_overflows (by exact hover), andThen_next,
    runPhases_of_idle rfl]
  rfl

/-- The first piece that would pass the end of `OBUF` aborts `DEC`; the pieces before it stand in `OBUF` (44_decoder.md R212). -/
theorem OpensRegion.overflows {done later : List Bytes} {c : Bytes} (h : OpensRegion s w (done ++ c :: later))
    (hf : s.ctrl.fben = true ∨ ∀ d ∈ done ++ [c], k.dec d ≠ none) (hfit : (decodedBytes k done).length ≤ Config.capBytes)
    (hover : Config.capBytes < (decodedBytes k (done ++ [c])).length) :
    execDecWith k s = .next (aborted s 7#4 0#2 s.inLen (Memory.setBytes s.obuf 0 (decodedBytes k done))) := by
  have hpiece : (decodedBytes k (done ++ [c])).length =
      (decodedBytes k done).length + ((k.dec c).getD (msgPrefix c)).length := by simp [decodedBytes]
  have hprefix := decode_prefix k (c :: later) (later.length + 1 + 1) done [] (enterBlocks { issue .dec s with work := w })
    h.blocks h.op (hf.imp_right fun h d hd => h d (by simp [hd])) (by simpa using h.nblk) rfl rfl h.phase
    (by simpa [h.acc] using hfit)
  rw [h.run, rounds_split, hprefix, runPhases_overflows rfl h.op rfl (c := c)]
  · simp only [enterBlocks_work, enterBlocks_obuf, issue_obuf, h.acc]
    exact congrArg _ (aborted_inLen ..)
  · show blockAt (codewordBlocks s) ([].length + done.length) = some c
    simp [h.blocks, blockAt]
  · exact hf.imp_right fun h => h c (by simp)
  · simpa [h.acc, hpiece] using hover

/-- With `FBEN = 0` the first block the codec fails on aborts `DEC` with its index (44_decoder.md R209). -/
theorem OpensRegion.failsStrictly {done later : List Bytes} {c : Bytes} (h : OpensRegion s w (done ++ c :: later))
    (hf : s.ctrl.fben = false) (hdone : ∀ d ∈ done, k.dec d ≠ none) (hc : k.dec c = none)
    (hfit : (decodedBytes k done).length ≤ Config.capBytes) :
    ∃ ob, execDecWith k s = .next (aborted s 2#4 0#2 (BitVec.ofNat 32 done.length) ob) := by
  obtain ⟨ob, hob⟩ := decode_strict (pre := []) (s := enterBlocks { issue .dec s with work := w }) h.blocks h.op hf hdone hc
    (by simpa using h.nblk) rfl rfl (h.phase.trans (if_neg (by simp))) (by simpa [h.acc] using hfit) (later.length + 1)
  refine ⟨ob, ?_⟩
  rw [h.run, rounds_split, hob, List.length_nil, Nat.zero_add]
  rfl

/-- Pieces that pass the end of `OBUF`, none of them refused, abort `DEC` in the same way whatever `CTRL` holds. -/
theorem OpensRegion.pastBuffer {ran rest : List Bytes} (h : ∀ ctrl : Ctrl, OpensRegion { s with ctrl := ctrl } w cs)
    (hcs : cs = ran ++ rest) (hover : Config.capBytes < (decodedBytes k ran).length) :
    ∃ ob, ∀ ctrl : Ctrl, (ctrl.fben = true ∨ ∀ d ∈ ran, k.dec d ≠ none) →
      execDecWith k { s with ctrl := ctrl } = .next (aborted { s with ctrl := ctrl } 7#4 0#2 s.inLen ob) := by
  obtain ⟨done, c, later, rfl, hfit, hlast⟩ :=
    exists_overflow_split (k := k) (acc := 0) (cs := ran) (Nat.zero_le _) (by rwa [Nat.zero_add])
  rw [Nat.zero_add] at hfit hlast
  refine ⟨Memory.setBytes s.obuf 0 (decodedBytes k done), fun ctrl hf => ?_⟩
  have hopen : OpensRegion { s with ctrl := ctrl } w (done ++ c :: (later ++ rest)) := by simpa [hcs] using h ctrl
  have hsub : done ++ [c] ⊆ done ++ c :: later := List.append_subset.2 ⟨List.subset_append_left .., by simp⟩
  exact hopen.overflows (hf.imp_right fun h d hd => h d (hsub hd)) hfit hlast

/-- What phase FIN of `DEC` does is the same whatever `CTRL` holds. -/
theorem finishDecode_withCtrl (s : State) (w : Work) (acc : Bytes) (nfail : Nat) (ctrl : Ctrl) :
    ∃ t, finishDecode (atFin { s with ctrl := ctrl } w acc nfail) = .next t ∧
      finishDecode (atFin s w acc nfail) = .next { t with ctrl := s.ctrl } := by
  by_cases hshort : w.t = 0#3 ∧ acc.length < payloadLen w
  case pos => exact ⟨_, finishDecode_short hshort.1 hshort.2, finishDecode_short hshort.1 hshort.2⟩
  case neg =>
    have hlong : w.t = 0#3 → payloadLen w ≤ acc.length := fun ht => Nat.le_of_not_lt fun hlt => hshort ⟨ht, hlt⟩
    exact ⟨_, finishDecode_delivers hlong, finishDecode_delivers hlong⟩

end

/-- The pieces of the blocks of a frame that fits `IBUF` fit `OBUF`, where the codec's answers fit the port (44_decoder.md R212,
30_encoding.md R104). -/
theorem decodedBytes_fit {k : Codec} (hk : k.FitsPort) {bits : Bits} (hcap : bits.length ≤ Config.capBits) {cs : List Bytes}
    (hcs : cs.length ≤ (cwBlocks (region bits)).length) : (decodedBytes k cs).length ≤ Config.capBytes := by
  have hpieces := decodedBytes_length_le hk cs
  rw [cwBlocks_length, region_length, ceilDiv] at hcs
  simp only [Config.capBits, Config.capBytes] at *
  omega

/-- A payload of which there is enough is cut to its length (44_decoder.md R216). -/
theorem imagePayload_of_le {n : Nat} {acc : Bytes} (h : n ≤ acc.length) : imagePayload n acc = acc.take n := if_pos h

/-- Settles O40: the region opens, and the pieces of its blocks fit and are delivered, or pass the end of `OBUF`. -/
theorem decDecodesAnImageFrame : Obligations.DecDecodesAnImageFrame := by
  intro s bits height width hb hf hcap hbits hparse hmod hpay
  have hopen (ctrl : Ctrl) := opensRegion_image (s := { s with ctrl := ctrl }) hb hcap hbits hparse hmod hpay
  have hdeliver (k : Codec) (hfit : (decodedBytes k (cwBlocks (region bits))).length ≤ Config.capBytes) :=
    ((hopen s.ctrl).reachesFin (.inl hf) hfit).trans (finishDecode_delivers fun htag => absurd htag (by simp [decWork]))
  refine ⟨hdeliver _ (decodedBytes_fit codec_fitsPort ?_ le_rfl), fun k => ⟨hdeliver k, fun hover => ?_⟩⟩
  · rwa [inputBits_length hbits]
  · obtain ⟨ob, hob⟩ := OpensRegion.pastBuffer hopen (List.append_nil _).symm hover
    exact ⟨ob, hob s.ctrl (.inl hf)⟩

/-- Settles O41: the region opens, and the pieces of its blocks are enough and delivered, too few, or pass the end of `OBUF`. -/
theorem decDecodesATextFrame : Obligations.DecDecodesATextFrame := by
  refine ⟨fun _ => rfl, codec_fitsPort, fun k s bits len hb hf hcap hbits hparse hmod hpay => ?_⟩
  have hopen (ctrl : Ctrl) := opensRegion_text (s := { s with ctrl := ctrl }) hb hcap hbits hparse hmod hpay
  have hlen : bits.length ≤ Config.capBits := by rwa [inputBits_length hbits]
  have hfin := (hopen s.ctrl).reachesFin (k := k) (.inl hf)
  refine ⟨fun hk => decodedBytes_fit hk hlen le_rfl, fun henough hfit => ?delivered, fun hshort => ?short, fun hover => ?past⟩
  case delivered =>
    rw [← imagePayload_of_le henough]
    exact (hfin hfit).trans (finishDecode_delivers fun _ => henough)
  case short =>
    have hfit : len ≤ Config.capBytes := by simp only [Config.capBits, Config.capBytes] at *; omega
    exact ⟨_, (hfin (hshort.le.trans hfit)).trans (finishDecode_short rfl hshort)⟩
  case past =>
    obtain ⟨ob, hob⟩ := OpensRegion.pastBuffer hopen (List.append_nil _).symm hover
    exact ⟨ob, hob s.ctrl (.inl hf)⟩

/-- Settles O42: the blocks before the first failing one are run over, or pass the end of `OBUF`; where no block fails, `FBEN` is
not looked at. -/
theorem strictDecStopsAtTheFirstFailure : Obligations.StrictDecStopsAtTheFirstFailure := by
  intro k s bits n hb hf hcap hbits hn hmod hpay
  obtain ⟨w, hopen⟩ := opensRegion_declared hb hcap hbits hn hmod hpay
  have hlen : bits.length ≤ Config.capBits := by rwa [inputBits_length hbits]
  refine ⟨fun done later c hcs hc hdone => ⟨fun hk => ?fits, fun hfit => ?failing, fun hover => ?past⟩, fun hall => ?noFailure⟩
  case fits => exact decodedBytes_fit hk hlen (by simp [hcs])
  case failing => exact (hcs ▸ hopen s.ctrl : OpensRegion s w (done ++ c :: later)).failsStrictly hf hdone hc hfit
  case past =>
    obtain ⟨ob, hob⟩ := OpensRegion.pastBuffer hopen hcs hover
    exact ⟨ob, hob s.ctrl (.inr hdone)⟩
  case noFailure =>
    by_cases hfit : (decodedBytes k (cwBlocks (region bits))).length ≤ Config.capBytes
    case pos =>
      rw [(hopen _).reachesFin (.inr hall) hfit, (hopen s.ctrl).reachesFin (.inr hall) hfit]
      exact finishDecode_withCtrl s w _ _ _
    case neg =>
      obtain ⟨ob, hob⟩ := OpensRegion.pastBuffer hopen (List.append_nil _).symm (Nat.lt_of_not_le hfit)
      exact ⟨_, hob _ (.inl rfl), hob s.ctrl (.inr hall)⟩

end Sys2Proof.Machine
end

section
namespace Sys2Proof

/-! ### Reading a header's fields back -/

/-- A field of a bit string is the bits of its number (00_scope.md R8). -/
theorem u2b_field {s : Bits} {i n : Nat} (h : i + n ≤ s.length) :
    u2b n (b2u ((s.drop i).take n)) = (s.drop i).take n := by
  have hlen : ((s.drop i).take n).length = n := by simp only [List.length_take, List.length_drop]; omega
  have hbits := u2b_b2u ((s.drop i).take n)
  rwa [hlen] at hbits

/-- The number of a field of `n` bits is below `2^n` (00_scope.md R8). -/
theorem field_lt (s : Bits) (i n : Nat) : b2u ((s.drop i).take n) < 2 ^ n :=
  (b2u_lt _).trans_le (Nat.pow_le_pow_right (by decide) (List.length_take_le n _))

/-- The tag of a bit string, as its first three bits. -/
theorem u2b_tag {s : Bits} (h : 3 ≤ s.length) : u2b 3 (b2u (s.take 3)) = s.take 3 :=
  u2b_field (s := s) (i := 0) (by omega)

/-- A bitstream parsed as a text header starts with that header, whose length is in range (40_header.md R124). -/
theorem hdrTextBits_of_hdrParse {s : Bits} {len : Nat} (h : hdrParse s = .text len) :
    s.take 27 = hdrTextBits len ∧ len ≤ 16777215 := by
  rcases hdrParse_cases s with hs | ⟨hl, ht⟩ | ⟨hl, ht⟩ | ⟨hl, ht⟩
  · rw [hdrParse_short hs] at h; cases h
  · rw [hdrParse_badTag hl ht] at h; cases h
  · rw [hdrParse_text hl ht] at h
    cases h
    have hlt := field_lt s 3 24
    have htag := u2b_tag (s := s) (by omega)
    refine ⟨?_, by omega⟩
    rw [hdrTextBits, u2b_field (by omega), ← ht, htag, ← List.take_add]
  · rw [hdrParse_image hl ht] at h; cases h

/-- A bitstream parsed as an image header starts with that header, whose fields are in range (40_header.md R124). -/
theorem hdrImageBits_of_hdrParse {s : Bits} {height width : Nat} (h : hdrParse s = .image height width) :
    s.take 27 = hdrImageBits height width ∧ height ≤ 4095 ∧ width ≤ 4095 := by
  rcases hdrParse_cases s with hs | ⟨hl, ht⟩ | ⟨hl, ht⟩ | ⟨hl, ht⟩
  · rw [hdrParse_short hs] at h; cases h
  · rw [hdrParse_badTag hl ht] at h; cases h
  · rw [hdrParse_text hl ht] at h; cases h
  · rw [hdrParse_image hl ht] at h
    cases h
    have hheight := field_lt s 3 12
    have hwidth := field_lt s 15 12
    have htag := u2b_tag (s := s) (by omega)
    refine ⟨?_, by omega, by omega⟩
    rw [hdrImageBits, u2b_field (by omega), u2b_field (by omega), ← ht, htag, ← List.take_add, ← List.take_add]

/-- Settles O7: parsing after packing, packing after parsing, and for 27 bits of tag 0 or 1 the two cases of
`hdrParse_cases` that give a header. -/
theorem headerFunctionsAreInverse : Obligations.HeaderFunctionsAreInverse := by
  refine ⟨fun len r h => hdrParse_hdrTextBits h r, fun height width r hh hw => hdrParse_hdrImageBits hh hw r,
    fun s len => hdrTextBits_of_hdrParse, fun s height width => hdrImageBits_of_hdrParse, fun s hlen htag => ?parses,
    fun len height width => ⟨?textBit, ?imageBit⟩⟩
  case parses =>
    rcases hdrParse_cases s with h | ⟨_, ht⟩ | ⟨hl, ht⟩ | ⟨hl, ht⟩
    · omega
    · omega
    · exact .inl ⟨_, hdrParse_text hl ht⟩
    · exact .inr ⟨_, _, hdrParse_image hl ht⟩
  case textBit => rw [hdrTextBits, List.getElem?_append_left (by simp), u2b_getElem? _ (by decide)]; rfl
  case imageBit =>
    rw [hdrImageBits, List.append_assoc, List.getElem?_append_left (by simp), u2b_getElem? _ (by decide)]; rfl

/-- Bits on the wire that decode to an instruction are a text or an image header, and decode to it (30_encoding.md R91, R93). -/
theorem header_of_decode_wire {bits : Bits} {i : Instr} (h : decode (.wire bits) = .ok i) :
    (∃ len, hdrParse bits = .text len ∧ i = .hdrText len) ∨
      ∃ height width, hdrParse bits = .image height width ∧ i = .hdrImage height width := by
  cases hparse : hdrParse bits with
  | short => simp [decode, decodeWire, hparse] at h
  | badTag t => simp [decode, decodeWire, hparse] at h
  | text len =>
    simp only [decode, decodeWire, hparse, Except.ok.injEq] at h
    exact .inl ⟨len, rfl, h.symm⟩
  | image height width =>
    simp only [decode, decodeWire, hparse, Except.ok.injEq] at h
    exact .inr ⟨height, width, rfl, h.symm⟩

end Sys2Proof
end

section
namespace Sys2Proof.Machine

/-! ### The wire headers, executed -/

/-- An abort whose information is the content of a register, as the end of the command (60_exceptions.md R268). -/
theorem raise_word (e : ErrKind) (sub : BitVec 2) (v : Word) (s : State) :
    raise e sub v.toNat s = aborted s (errCode e) sub v s.obuf := by
  rw [raise_eq_aborted (s := s) rfl rfl rfl rfl rfl rfl rfl rfl, BitVec.ofNat_toNat, BitVec.setWidth_eq]

section
variable {s : State} {tt : BitVec 3} {len height width : Nat}

/-! What `DEC` and `RAW` do with a header that gives the working values `T`, `L`, `H`, `W`, in the order of the tests
(44_decoder.md R201 to R204). -/

/-- A ragged tail aborts; the working values end with the command. -/
theorem enterRegion_setHeader_ragged (h : (s.inLen.toNat - 27) % 8 ≠ 0) :
    enterRegion (setHeader tt len height width s) = .next (aborted s 5#4 1#2 s.inLen s.obuf) :=
  (if_pos h).trans (congrArg _ (raise_word .bitstreamLength 1#2 s.inLen (setHeader tt len height width s)))

/-- A region of whole bytes shorter than the declared payload aborts. -/
theorem enterRegion_setHeader_short (hmod : (s.inLen.toNat - 27) % 8 = 0)
    (h : (s.inLen.toNat - 27) / 8 < payloadLen (setHeader tt len height width s).work) :
    enterRegion (setHeader tt len height width s) = .next (aborted s 5#4 2#2 s.inLen s.obuf) :=
  (if_neg (not_not_intro hmod)).trans <|
    (if_pos h).trans (congrArg _ (raise_word .bitstreamLength 2#2 s.inLen (setHeader tt len height width s)))

/-- A region that holds the declared payload is cut into blocks, and the engine goes to the first, or to FIN without one. -/
theorem enterRegion_setHeader_opens {bits : Bits} (hmod : (s.inLen.toNat - 27) % 8 = 0)
    (hfit : payloadLen (setHeader tt len height width s).work ≤ (s.inLen.toNat - 27) / 8)
    (hbits : inputBits s s.inLen.toNat = some bits) :
    enterRegion (setHeader tt len height width s) = .next { s with
      phase := if cwBlocks (region bits) = [] then .fin else .block
      blk := 0
      work := { s.work with
        t := tt, l := len, h := height, w := width, nblk := (cwBlocks (region bits)).length, acc := 0, nfail := 0 } } := by
  have hlen := inputBits_length hbits
  rw [enterRegion_opens (s := setHeader tt len height width s) hbits (by rwa [hlen]) (by rwa [hlen])]
  cases cwBlocks (region bits) <;> rfl

end

/-- Where no engine reads a header, a text header does nothing (log entry 9). -/
theorem execHdrText_elsewhere {s : State} (len : Nat)
    (h : s.phase ≠ .hdr ∨ (s.work.op ≠ .hunp ∧ s.work.op ≠ .dec ∧ s.work.op ≠ .raw)) : execHdrText len s = .next s := by
  unfold execHdrText
  split
  case h_4 => rfl
  all_goals simp_all

/-- Where no engine reads a header, an image header does nothing (log entry 9). -/
theorem execHdrImage_elsewhere {s : State} (height width : Nat)
    (h : s.phase ≠ .hdr ∨ (s.work.op ≠ .hunp ∧ s.work.op ≠ .dec ∧ s.work.op ≠ .raw)) :
    execHdrImage height width s = .next s := by
  unfold execHdrImage
  split
  case h_4 => rfl
  all_goals simp_all

/-- Settles O34: the header is delivered to `HUNP`, opens the region for a decode, and does nothing elsewhere. -/
theorem textHeaderIsExecuted : Obligations.TextHeaderIsExecuted := by
  intro s len
  refine ⟨execHdrText_hunp, fun hp hop => ?decode, execHdrText_elsewhere len⟩
  have hregion : exec (.hdrText len) s = enterRegion (setHeader 0#3 len 0 0 s) := execHdrText_decode hp hop
  rw [hregion]
  exact ⟨enterRegion_setHeader_ragged, fun hmod hshort => enterRegion_setHeader_short hmod hshort,
    fun bits hmod hfit => enterRegion_setHeader_opens hmod hfit⟩

/-- Settles O35: as for the text header, with the payload of an image (44_decoder.md R202). -/
theorem imageHeaderIsExecuted : Obligations.ImageHeaderIsExecuted := by
  intro s height width
  refine ⟨execHdrImage_hunp, fun hp hop => ?decode, execHdrImage_elsewhere height width⟩
  have hregion : exec (.hdrImage height width) s = enterRegion (setHeader 1#3 0 height width s) := execHdrImage_decode hp hop
  rw [hregion]
  exact ⟨enterRegion_setHeader_ragged, fun hmod hshort => enterRegion_setHeader_short hmod hshort,
    fun bits hmod hfit => enterRegion_setHeader_opens hmod hfit⟩

/-! ### The fetch of a wire header -/

/-- In phase HDR `HUNP`, `DEC` and `RAW` fetch a header (40_header.md R128, 44_decoder.md R201). -/
theorem engineTurn_fetches {s : State} (hp : s.phase = .hdr)
    (hop : s.work.op = .hunp ∨ s.work.op = .dec ∨ s.work.op = .raw) : engineTurn s = fetchHeader s := by
  rcases hop with hop | hop | hop
  all_goals rw [engineTurn, phaseStep, hp, hop]; rfl

/-- With nothing pending from outside the engine moves (log entry 2). -/
theorem step_of_no_events {s : State} (h : s.events = []) : step s = engineTurn s := by rw [step, h]

/-- Settles O4: the engine's step is the fetch, which executes the header its bits decode to. -/
theorem stepRunsTheFetchedHeader : Obligations.StepRunsTheFetchedHeader := by
  intro s bits i hevents hp hop hcap hbits hdecode
  rw [step_of_no_events hevents, engineTurn_fetches hp hop]
  rcases header_of_decode_wire hdecode with ⟨len, hparse, rfl⟩ | ⟨height, width, hparse, rfl⟩
  · exact fetchHeader_text hcap hbits hparse
  · exact fetchHeader_image hcap hbits hparse

/-! ### HPKT, HPKI -/

section
variable {s : State}

/-! Phase HDR of the two commands, in the order of its tests (40_header.md R126, R127). -/

theorem hdrHpkt_range (h : Config.lenMax < s.arg0.toNat) : hdrHpkt s = .next (raise .range 0#2 s.arg0.toNat s) := if_pos h

theorem hdrHpkt_packs (h : s.arg0.toNat ≤ Config.lenMax) :
    hdrHpkt s = .next (packedHeader (hdrTextBits s.arg0.toNat) 0#3 s.arg0.toNat 0 s) := if_neg (Nat.not_lt.2 h)

theorem hdrHpki_height (h : Config.dimMax < s.arg0.toNat) : hdrHpki s = .next (raise .range 1#2 s.arg0.toNat s) := if_pos h

theorem hdrHpki_width (hheight : s.arg0.toNat ≤ Config.dimMax) (h : Config.dimMax < s.arg1.toNat) :
    hdrHpki s = .next (raise .range 2#2 s.arg1.toNat s) := by
  rw [hdrHpki, if_neg (Nat.not_lt.2 hheight), if_pos h]

theorem hdrHpki_packs (hheight : s.arg0.toNat ≤ Config.dimMax) (hwidth : s.arg1.toNat ≤ Config.dimMax) :
    hdrHpki s = .next (packedHeader (hdrImageBits s.arg0.toNat s.arg1.toNat) 1#3 s.arg0.toNat s.arg1.toNat s) := by
  rw [hdrHpki, if_neg (Nat.not_lt.2 hheight), if_neg (Nat.not_lt.2 hwidth)]

/-- A command that packs a header of 27 bits in phase HDR delivers it (40_header.md R126, R127). -/
theorem runCommand_of_packed {k : Codec} {p : Phases} {op : Opcode} {bits : Bits} {ftype : BitVec 3} {res0 res1 : Nat}
    (hb : s.status.busy = false) (h : p.hdr (issue op s) = .next (packedHeader bits ftype res0 res1 (issue op s)))
    (hlen : bits.length = 27) :
    runCommand k p op s =
      .next (delivered s ftype false false 27 res0 res1 0 0 (Memory.ofBytes (packBits bits))) := by
  rw [runCommand_of_idle hb h rfl, packedHeader_issue, hlen]

end

/-- Settles O31: the one test of phase HDR, then the header. -/
theorem hpktPacksATextHeader : Obligations.HpktPacksATextHeader := by
  intro s hb
  refine ⟨fun hlen => ?packed, fun hlen => ?range⟩
  case packed =>
    exact runCommand_of_packed (p := hpktPhases) hb (hdrHpkt_packs (s := issue .hpkt s) hlen) (hdrTextBits_length _)
  case range => exact runCommand_of_raise_word (p := hpktPhases) (e := .range) hb (hdrHpkt_range (s := issue .hpkt s) hlen)

/-- Settles O32: the two tests of phase HDR in their order, then the header. -/
theorem hpkiPacksAnImageHeader : Obligations.HpkiPacksAnImageHeader := by
  intro s hb
  refine ⟨fun hheight hwidth => ?packed, fun hheight => ?height, fun hheight hwidth => ?width⟩
  case packed =>
    exact runCommand_of_packed (p := hpkiPhases) hb (hdrHpki_packs (s := issue .hpki s) hheight hwidth)
      (hdrImageBits_length _ _)
  case height =>
    exact runCommand_of_raise_word (p := hpkiPhases) (e := .range) hb (hdrHpki_height (s := issue .hpki s) hheight)
  case width =>
    exact runCommand_of_raise_word (p := hpkiPhases) (e := .range) hb (hdrHpki_width (s := issue .hpki s) hheight hwidth)

/-! ### HUNP -/

/-- An input longer than `IBUF` aborts before a bit is read (40_header.md R128). -/
theorem fetchHeader_overlong {s : State} (h : Config.capBits < s.inLen.toNat) :
    fetchHeader s = .next (raise .operand 0#2 s.inLen.toNat s) := if_pos h

section
variable {s : State} {bits : Bits} (hcap : s.inLen.toNat ≤ Config.capBits)
  (hbits : inputBits s (min s.inLen.toNat Config.hdrBits) = some bits)
include hcap hbits

/-- An input too short for a header aborts (40_header.md R128). -/
theorem fetchHeader_short (hparse : hdrParse bits = .short) :
    fetchHeader s = .next (raise .bitstreamLength 0#2 s.inLen.toNat s) := by
  rw [fetchHeader, if_neg (Nat.not_lt.2 hcap), hbits]
  simp only [hparse]

/-- An unrecognised tag aborts (40_header.md R128). -/
theorem fetchHeader_badTag {t : Nat} (hparse : hdrParse bits = .badTag t) :
    fetchHeader s = .next (raise .unrecognizedFrameType 0#2 t s) := by
  rw [fetchHeader, if_neg (Nat.not_lt.2 hcap), hbits]
  simp only [hparse]

/-- `HUNP` delivers a text header (40_header.md R128). -/
theorem exec_hunp_text {len : Nat} (hb : s.status.busy = false) (hparse : hdrParse bits = .text len) :
    exec .hunp s = .next (delivered s 0#3 false false 0 len 0 0 0 s.obuf) := by
  have hfetch := fetchHeader_text (s := issue .hunp s) hcap hbits hparse
  exact runCommand_of_idle (p := hunpPhases) hb (hfetch.trans (execHdrText_hunp rfl rfl)) rfl

/-- `HUNP` delivers an image header (40_header.md R128). -/
theorem exec_hunp_image {height width : Nat} (hb : s.status.busy = false) (hparse : hdrParse bits = .image height width) :
    exec .hunp s = .next (delivered s 1#3 false false 0 height width 0 0 s.obuf) := by
  have hfetch := fetchHeader_image (s := issue .hunp s) hcap hbits hparse
  exact runCommand_of_idle (p := hunpPhases) hb (hfetch.trans (execHdrImage_hunp rfl rfl)) rfl

end

/-- Settles O33: the capacity test, then the four answers of `hdr_parse` on the bits fetched. -/
theorem hunpUnpacksAHeader : Obligations.HunpUnpacksAHeader := by
  intro s hb
  refine ⟨fun hover => ?overlong, fun bits hcap hbits => ?fetched⟩
  case overlong =>
    exact runCommand_of_raise_word (p := hunpPhases) (e := .operand) hb (fetchHeader_overlong (s := issue .hunp s) hover)
  case fetched =>
    cases hparse : hdrParse bits with
    | short =>
      exact runCommand_of_raise_word (p := hunpPhases) (e := .bitstreamLength) hb
        (fetchHeader_short (s := issue .hunp s) hcap hbits hparse)
    | badTag t =>
      exact runCommand_of_raise (p := hunpPhases) (e := .unrecognizedFrameType) hb
        (fetchHeader_badTag (s := issue .hunp s) hcap hbits hparse)
    | text len => exact exec_hunp_text hcap hbits hb hparse
    | image height width => exact exec_hunp_image hcap hbits hb hparse

/-! ### A packed header, copied and unpacked -/

/-- `OBUF` copied to `IBUF` and `OUT_LEN` to `IN_LEN` (70_reset_and_hazards.md R308). -/
def copyBack (t : State) : State := { t with ibuf := t.obuf, inLen := t.outLen }

/-- A delivered header of 27 bits, copied back, is within the capacity and is what the fetch reads
(70_reset_and_hazards.md R308). -/
theorem copyBack_is_fetched {t : State} {bits : Bits} (hlen : bits.length = 27)
    (hobuf : t.obuf = Memory.ofBytes (packBits bits)) (hout : t.outLen = 27#32) :
    (copyBack t).inLen.toNat ≤ Config.capBits ∧
      inputBits (copyBack t) (min (copyBack t).inLen.toNat Config.hdrBits) = some bits := by
  have hin : (copyBack t).inLen = 27#32 := hout
  have hread := copiedOutputReadsBack t (copyBack t) bits (by omega)
    (fun j _ => congrArg (Memory.get · j) hobuf) (by rw [hin, hlen])
  rw [hin] at hread ⊢
  exact ⟨by decide, hread⟩

/-- Settles O51: the packed header is read back (O17), parsed back (O7) and delivered with the operands it was made of. -/
theorem packedHeadersUnpack : Obligations.PackedHeadersUnpack := by
  intro s hb
  refine ⟨fun hlen => ?text, fun hheight hwidth => ?image⟩
  case text =>
    have hpack := (hpktPacksATextHeader s hb).1 hlen
    have hparse : hdrParse (hdrTextBits s.arg0.toNat) = .text s.arg0.toNat := by simpa using hdrParse_hdrTextBits hlen []
    obtain ⟨hcap, hread⟩ := copyBack_is_fetched (t := delivered s 0#3 false false 27 s.arg0.toNat 0 0 0
      (Memory.ofBytes (packBits (hdrTextBits s.arg0.toNat)))) (hdrTextBits_length _) rfl rfl
    have hunpack := exec_hunp_text hcap hread rfl hparse
    exact ⟨_, _, hpack, hunpack, rfl, by simp [delivered], rfl⟩
  case image =>
    have hpack := (hpkiPacksAnImageHeader s hb).1 hheight hwidth
    have hparse : hdrParse (hdrImageBits s.arg0.toNat s.arg1.toNat) = .image s.arg0.toNat s.arg1.toNat := by
      simpa using hdrParse_hdrImageBits hheight hwidth []
    obtain ⟨hcap, hread⟩ := copyBack_is_fetched (t := delivered s 1#3 false false 27 s.arg0.toNat s.arg1.toNat 0 0
      (Memory.ofBytes (packBits (hdrImageBits s.arg0.toNat s.arg1.toNat)))) (hdrImageBits_length _ _) rfl rfl
    have hunpack := exec_hunp_image hcap hread rfl hparse
    exact ⟨_, _, hpack, hunpack, rfl, by simp [delivered], by simp [delivered]⟩

end Sys2Proof.Machine
end

section
namespace Sys2Proof.Machine

/-- Settles O10: each clause is a rule of the conversions; only the example is evaluated. -/
theorem bitAndByteConversionsAreInverse : Obligations.BitAndByteConversionsAreInverse :=
  ⟨bitsToBytes_bytesToBits, bytesToBits_bitsToBytes, bytesToBits_length, bytesToBits_append, by decide⟩

/-! ### The size of each chunk -/

/-- `ceil_div(a, n)` counts the multiples of `n` below `a` (00_scope.md R7). -/
theorem lt_ceilDiv_iff {a i n : Nat} (hn : 0 < n) : i < ceilDiv a n ↔ i * n < a := by
  rw [ceilDiv, ← Nat.succ_le_iff, Nat.le_div_iff_mul_le hn, Nat.succ_mul]
  omega

section
variable {B c : Bytes} {i n : Nat}

/-- A chunk starts inside the bytes and holds `n` of them, or what is left (41_chunker.md R143). -/
theorem length_of_chunks_getElem? (hn : 0 < n) (hc : (chunks B n)[i]? = some c) :
    i * n < B.length ∧ c.length = min n (B.length - i * n) := by
  obtain ⟨hi, _⟩ := List.getElem?_eq_some_iff.1 hc
  rw [chunks_length] at hi
  rw [chunks_getElem? B n i hi, Option.some.injEq] at hc
  exact ⟨(lt_ceilDiv_iff hn).1 hi, by rw [← hc, List.length_take, List.length_drop]⟩

/-- A chunk that another one follows is full (41_chunker.md R143). -/
theorem length_of_chunks_getElem?_of_succ_lt (hn : 0 < n) (hi : i + 1 < (chunks B n).length)
    (hc : (chunks B n)[i]? = some c) : c.length = n := by
  rw [chunks_length, lt_ceilDiv_iff hn, Nat.succ_mul] at hi
  have := (length_of_chunks_getElem? hn hc).2
  omega

/-- The last chunk is not empty, and only full chunks stand before it (41_chunker.md R143). -/
theorem length_of_chunks_getLast? (hn : 0 < n) (hc : (chunks B n).getLast? = some c) :
    1 ≤ c.length ∧ c.length ≤ n ∧ B.length = c.length + ((chunks B n).length - 1) * n := by
  have hend : ¬ (chunks B n).length * n < B.length := by
    rw [← lt_ceilDiv_iff hn, chunks_length]; exact lt_irrefl _
  obtain ⟨hpos, hle⟩ := mem_chunks_length hn (List.mem_of_getLast? hc)
  rw [List.getLast?_eq_getElem?] at hc
  obtain ⟨hstart, hlen⟩ := length_of_chunks_getElem? hn hc
  rw [Nat.sub_one_mul] at hstart hlen ⊢
  omega

end

/-- Settles O11: the content by the rule of a chunk, the sizes by where a chunk starts, the joining along the chunks. -/
theorem chunksPartitionTheBytes : Obligations.ChunksPartitionTheBytes := by
  intro B n hn
  refine ⟨chunks_length B n, fun i hi => ?content, fun i c hi hc => length_of_chunks_getElem?_of_succ_lt hn hi hc,
    fun c hc => ?last, fun c hc => ?nonempty, chunks_nil n, flatten_chunks hn B⟩
  case content =>
    rw [chunks_getElem? B n i (chunks_length B n ▸ hi), Option.some.injEq, List.take_eq_take_iff, List.length_drop,
      Nat.succ_mul]
    omega
  case last =>
    obtain ⟨hpos, hle, hB⟩ := length_of_chunks_getLast? hn hc
    rw [hB, Nat.add_mul_mod_self_right]
    rcases hle.eq_or_lt with hfull | hpart
    · rw [hfull, Nat.mod_self, if_pos rfl]
    · rw [Nat.mod_eq_of_lt hpart, if_neg (by omega)]
  case nonempty => exact List.length_pos_iff.1 (mem_chunks_length hn hc).1

/-! ### Padding -/

/-- The padded message blocks in order are the message and zero bytes up to the end of the last block
(41_chunker.md R144). -/
theorem flatten_padded (B : Bytes) :
    (msgBlocks B true).flatten = B ++ List.replicate (223 * (msgBlocks B true).length - B.length) 0x00#8 := by
  induction B using chunk_induction (n := 223) (by decide) with
  | nil => simp
  | last c hne hle => simp [msgBlocks_of_length_le true hne hle, padBlock, Config.messageK, Config.padByte]
  | full c B hc ih =>
    have hpad : 223 * ((msgBlocks B true).length + 1) - (c ++ B).length = 223 * (msgBlocks B true).length - B.length := by
      rw [List.length_append]; omega
    rw [msgBlocks_append B true hc, List.flatten_cons, ih, List.length_cons, hpad, List.append_assoc]

/-- Settles O12: padding maps over the chunks, and its zero bytes are counted along the chunks. -/
theorem messageBlocksPadTextOnly : Obligations.MessageBlocksPadTextOnly := by
  intro B
  have hcount : (msgBlocks B true).length = (chunks B 223).length := by rw [msgBlocks_length, chunks_length]
  have hfull : ∀ c ∈ msgBlocks B true, c.length = 223 := fun c hc => (mem_msgBlocks_length hc).2.2 rfl
  exact ⟨rfl, hcount, hfull, flatten_padded B⟩

end Sys2Proof.Machine
end

section
namespace Sys2Proof.Machine

/-! ### Waiting for a silent codec -/

/-- An engine that has asked the codec for a block and has no answer yet (42_codec.md R167, R168). -/
structure AwaitsCodec (s : State) : Prop where
  busy : s.status.busy = true
  block : s.phase = .block
  unanswered : s.answer = none
  asks : s.work.op = .enct ∨ s.work.op = .enci ∨ s.work.op = .dec

/-- `s` with other values in the model's own fields (log entries 2, 7, 12). -/
def withOwnFields (s : State) (events : List Event) (portData : Word) (freeCount : Nat) : State :=
  { s with events := events, portData := portData, freeCount := freeCount }

theorem AwaitsCodec.ownFields {s : State} (h : AwaitsCodec s) (events : List Event) (portData : Word) (freeCount : Nat) :
    AwaitsCodec (withOwnFields s events portData freeCount) := ⟨h.busy, h.block, h.unanswered, h.asks⟩

/-- An engine without its answer stays where it is (45_control.md R248). -/
theorem AwaitsCodec.engineTurn_waits {s : State} (h : AwaitsCodec s) : engineTurn s = .next s := by
  have hencoder : appendCodeword s = .next s := by rw [appendCodeword, h.unanswered]
  have hdecoder : blockDec s = .next s := by rw [blockDec, h.unanswered]
  rw [engineTurn, phaseStep, h.block]
  rcases h.asks with hop | hop | hop <;> rw [hop]
  · exact hencoder
  · exact hencoder
  · exact hdecoder

/-- While the engine waits, an action other than a codec turn or reset changes the model's own fields at most: writes and
commands are ignored, reads draw a word (10_state.md R24, 20_memory.md R71, 45_control.md R240). -/
theorem AwaitsCodec.eventStep_waits {s : State} (h : AwaitsCodec s) {e : Event} (hcodec : e ≠ .codec) (hreset : e ≠ .reset) :
    ∃ portData freeCount, eventStep e s = .next (withOwnFields s s.events portData freeCount) := by
  cases e with
  | command w => exact ⟨_, _, if_pos h.busy⟩
  | write reg v => exact ⟨_, _, congrArg Host.Outcome.next (if_pos h.busy)⟩
  | read reg =>
    cases hr : readableBusy (regAt reg) with
    | true => exact ⟨_, _, congrArg Host.Outcome.next (hostRead_of_readable (.inr hr))⟩
    | false => exact ⟨_, _, congrArg Host.Outcome.next (hostRead_of_unreadable h.busy hr)⟩
  | storeIn i v => exact ⟨_, _, congrArg Host.Outcome.next (if_pos (by simp [h.busy]))⟩
  | loadIn i => exact ⟨_, _, congrArg Host.Outcome.next (hostLoadIn_busy i h.busy)⟩
  | storeOut i v => exact ⟨_, _, rfl⟩
  | loadOut i => exact ⟨_, _, congrArg Host.Outcome.next (hostLoadOut_busy i h.busy)⟩
  | engine => exact ⟨_, _, h.engineTurn_waits⟩
  | codec => contradiction
  | reset => contradiction

/-- A step of a machine that waits takes the next action and changes the model's own fields at most. -/
theorem AwaitsCodec.step_waits {s : State} (h : AwaitsCodec s) (hevents : ∀ e ∈ s.events, e ≠ .codec ∧ e ≠ .reset) :
    ∃ portData freeCount, step s = .next (withOwnFields s s.events.tail portData freeCount) := by
  cases hs : s.events with
  | nil => exact ⟨_, _, by rw [step_of_no_events hs, h.engineTurn_waits, List.tail_nil, ← hs]; rfl⟩
  | cons e rest =>
    obtain ⟨hcodec, hreset⟩ := hevents e (by simp [hs])
    rw [step_of_event hs]
    exact (h.ownFields rest s.portData s.freeCount).eventStep_waits hcodec hreset

/-- A run goes on from the state its first step answers. -/
theorem run_of_step {s u : State} (n : Nat) (h : step s = .next u) :
    Host.Core.run Sys2Proof.core (n + 1) s = Host.Core.run Sys2Proof.core n u := by
  have hcore : Sys2Proof.core.step s = .next u := h
  simp only [Host.Core.run, hcore]

/-- However long the machine waits, only the model's own fields change (70_reset_and_hazards.md R312). -/
theorem AwaitsCodec.run_waits (n : Nat) {s : State} (h : AwaitsCodec s)
    (hevents : ∀ e ∈ s.events, e ≠ .codec ∧ e ≠ .reset) :
    ∃ events portData freeCount,
      Host.Core.run Sys2Proof.core n s = .next (withOwnFields s events portData freeCount) := by
  induction n generalizing s with
  | zero => exact ⟨s.events, s.portData, s.freeCount, rfl⟩
  | succ n ih =>
    obtain ⟨portData, freeCount, hstep⟩ := h.step_waits hevents
    obtain ⟨events, portData', freeCount', hrun⟩ :=
      ih (h.ownFields s.events.tail portData freeCount) fun e he => hevents e (List.mem_of_mem_tail he)
    exact ⟨events, portData', freeCount', (run_of_step n hstep).trans hrun⟩

/-- Settles O30: the engine waits, and any number of steps leaves it waiting. -/
theorem silentCodecHangsTheEngine : Obligations.SilentCodecHangsTheEngine := by
  intro s n hbusy hblock hanswer hop hevents
  have hwait : AwaitsCodec s := ⟨hbusy, hblock, hanswer, hop⟩
  obtain ⟨events, portData, freeCount, hrun⟩ := hwait.run_waits n hevents
  exact ⟨_, hrun, rfl⟩

/-! ### `RAW` and the codec -/

/-- What goes on from an outcome matters only where the outcome is a next state. -/
theorem andThen_congr {r : Result} {f g : State → Result} (h : ∀ t, r = .next t → f t = g t) :
    andThen r f = andThen r g := by
  cases r with
  | next t => exact h t rfl
  | fault e => rfl
  | refused e => rfl

/-- `RAW` has no request outstanding (42_codec.md R168). -/
theorem codecRequest_of_raw {s : State} (hop : s.work.op = .raw) : codecRequest s = none := by
  by_cases hp : s.phase = .block
  · simp [codecRequest, hp, hop]
  · exact codecRequest_of_phase hp

/-- A round of `RAW` is an engine step: the codec does nothing. -/
theorem raw_round {s : State} (k : Codec) (n : Nat) (hop : s.work.op = .raw) (hp : s.phase ≠ .idle) :
    runPhases k rawPhases (n + 1) s = andThen (engineTurn s) (runPhases k rawPhases n) := by
  have hround := runPhases_round k n hp
  rwa [hop, codecTurn_of_no_request (codecRequest_of_raw hop)] at hround

/-- A run of `RAW` is the same with any two codecs. -/
theorem runPhases_raw_congr (k j : Codec) (n : Nat) {s : State} (h : s.work.op = .raw ∨ s.phase = .idle) :
    runPhases k rawPhases n s = runPhases j rawPhases n s := by
  induction n generalizing s with
  | zero => rfl
  | succ n ih =>
    by_cases hp : s.phase = .idle
    · rw [runPhases_of_idle hp, runPhases_of_idle hp]
    · have hop := h.resolve_right hp
      rw [raw_round k n hop hp, raw_round j n hop hp]
      exact andThen_congr fun t hturn => ih (hop ▸ engineTurn_keeps_op hturn)

/-- Settles O44: `RAW` is ignored while busy, and its run makes no request. -/
theorem rawNeedsNoCodec : Obligations.RawNeedsNoCodec := by
  intro k j s
  by_cases hb : s.status.busy = true
  · exact (runCommand_busy hb).trans (runCommand_busy hb).symm
  · rw [execRawWith, execRawWith, runCommand, runCommand, if_neg hb, if_neg hb]
    exact andThen_congr fun t hhdr => runPhases_raw_congr k j _ (engineTurn_keeps_op (s := issue .raw s) hhdr)

end Sys2Proof.Machine
end

section
namespace Sys2Proof.Machine

/-! ### An encoder whose frame passes the end of `OBUF` -/

/-- An abort is the same from two states with the same input (60_exceptions.md R268). -/
theorem KeepsInput.aborted_eq {s t : State} (h : KeepsInput s t) (err : BitVec 4) (sub : BitVec 2) (info : Word)
    (ob : List Host.Cell) : aborted t err sub info ob = aborted s err sub info ob := by
  obtain ⟨hctrl, harg0, harg1, hlen, hbuf, hevents, hport, hfree⟩ := h
  simp only [aborted, hctrl, harg0, harg1, hlen, hbuf, hevents, hport, hfree]

/-- An abort that records `IN_LEN` is `aborted`. -/
theorem raise_inLen_eq_aborted (e : ErrKind) (sub : BitVec 2) (s : State) :
    raise e sub s.inLen.toNat s = aborted s (errCode e) sub s.inLen s.obuf := aborted_inLen ..

/-- An encoder is at the first of the blocks `rest`, and its output so far fits `OBUF` (43_encoder.md R181, R184, R188). -/
structure EncodesFrom (rest : List Bytes) (s : State) : Prop where
  encoder : encoding s.work.op = true
  block : s.phase = .block
  unanswered : s.answer = none
  blocks : ∃ bs, commandBlocks s = some bs ∧ bs.drop s.blk = rest
  nblk : s.blk + rest.length = s.work.nblk
  fits : Config.hdrBits + 8 * s.work.acc ≤ Config.capBits

/-- Phase BLOCK of either encoder appends the codeword answered. -/
theorem opPhases_block_of_encoding {op : Opcode} (h : encoding op = true) : (opPhases op).block = appendCodeword := by
  cases op with
  | enct => rfl
  | enci => rfl
  | _ => cases h

section
variable {k : Codec} {s : State} {m : Bytes} {rest : List Bytes}

/-- A codeword answered that would pass the end of `OBUF` aborts (43_encoder.md R188). -/
theorem appendCodeword_overflows {a : CodecAnswer}
    (hover : Config.capBits < Config.hdrBits + 8 * (s.work.acc + a.data.length)) :
    appendCodeword { s with answer := some a } = .next (raise .operand 0#2 s.inLen.toNat s) := if_pos hover

/-- A codeword answered that fits is appended and the engine goes on (43_encoder.md R181, R184). -/
theorem appendCodeword_fits {a : CodecAnswer}
    (hfit : Config.hdrBits + 8 * (s.work.acc + a.data.length) ≤ Config.capBits) :
    appendCodeword { s with answer := some a } = .next (advance { s with
      work := { s.work with acc := s.work.acc + a.data.length, out := s.work.out ++ bytesToBits a.data } }) :=
  if_neg (Nat.not_lt.2 hfit)

/-- A round of an encoder: the codec answers the codeword of the block, which is appended or does not fit. -/
theorem EncodesFrom.round (h : EncodesFrom (m :: rest) s) (k : Codec) (n : Nat) :
    runPhases k (opPhases s.work.op) (n + 1) s =
      andThen (appendCodeword { s with answer := some { ok := true, data := k.enc m } })
        (runPhases k (opPhases s.work.op) n) := by
  obtain ⟨bs, hbs, hdrop⟩ := h.blocks
  have hblock : bs[s.blk]? = some m := by
    rw [← List.head?_drop, hdrop, List.head?_cons]
  have hreq : codecRequest s = some (encodeRequest m) := by
    rw [codecRequest_encoding h.encoder h.block, hbs, blockAt, hblock, Option.map_some]
  rw [runPhases_round k n (by simp [h.block]), codecTurn_of_request hreq h.unanswered, codecRespond_encode rfl, engineTurn,
    phaseStep, h.block]
  exact congrArg (andThen · _) (congrFun (opPhases_block_of_encoding h.encoder) _)

/-- An encoder that has appended a codeword goes on to the next block (45_control.md R248). -/
theorem EncodesFrom.next (h : EncodesFrom (m :: rest) s) {c : Bytes} (hmore : rest ≠ [])
    (hfit : Config.hdrBits + 8 * (s.work.acc + c.length) ≤ Config.capBits) :
    EncodesFrom rest (advance { s with
      work := { s.work with acc := s.work.acc + c.length, out := s.work.out ++ bytesToBits c } }) := by
  obtain ⟨bs, hbs, hdrop⟩ := h.blocks
  have hrest : 0 < rest.length := List.length_pos_iff.2 hmore
  have hnblk : s.blk + (rest.length + 1) = s.work.nblk := h.nblk
  have hnext : s.blk + 1 < s.work.nblk := by omega
  refine ⟨by simpa using h.encoder, by simpa using hnext, by simp, ⟨bs, ?_, ?_⟩, ?_, by simpa using hfit⟩
  · exact (commandBlocks_congr (by simp) (by simp) (by simp)).trans hbs
  · simp only [advance_blk, if_pos hnext]
    rw [← List.drop_drop, hdrop, List.drop_one, List.tail_cons]
  · simp only [advance_blk, advance_work, if_pos hnext]
    omega

/-- An encoder whose codewords do not all fit aborts at the first that does not, and `OBUF` stays as it was
(42_codec.md R171, 43_encoder.md R188). -/
theorem EncodesFrom.overflows {n : Nat} (h : EncodesFrom rest s)
    (hover : Config.capBits < Config.hdrBits + 8 * (s.work.acc + (rest.map k.enc).flatten.length)) (hn : rest.length ≤ n) :
    runPhases k (opPhases s.work.op) n s = .next (aborted s 7#4 0#2 s.inLen s.obuf) := by
  induction rest generalizing s n with
  | nil => exact absurd h.fits (Nat.not_le.2 hover)
  | cons m rest ih =>
    obtain ⟨n, rfl⟩ : ∃ i, n = i + 1 := ⟨n - 1, by simp only [List.length_cons] at hn; omega⟩
    rw [List.map_cons, List.flatten_cons, List.length_append] at hover
    rw [h.round]
    by_cases hfit : Config.hdrBits + 8 * (s.work.acc + (k.enc m).length) ≤ Config.capBits
    case neg =>
      rw [appendCodeword_overflows (Nat.lt_of_not_le hfit), andThen_next, runPhases_of_idle rfl, raise_inLen_eq_aborted]
      rfl
    case pos =>
      have hmore : rest ≠ [] := by rintro rfl; simp at hover; omega
      have hrun := ih (n := n) (h.next hmore hfit) (by simpa [Nat.add_assoc] using hover) (by simpa using hn)
      simp only [advance_work, advance_inLen, advance_obuf] at hrun
      rw [appendCodeword_fits hfit, andThen_next, hrun, KeepsInput.aborted_eq (s := s) (by simp [KeepsInput])]

end

/-- An encoder that begins on blocks whose frame does not fit `OBUF` aborts, with any codec (42_codec.md R171,
43_encoder.md R188). -/
theorem encoder_overflows {k : Codec} {op : Opcode} {s : State} {bs : List Bytes} {tt : BitVec 3} {len height width : Nat}
    {header : Bits} (hop : encoding op = true) (hb : s.status.busy = false) (hbs : commandBlocks (issue op s) = some bs)
    (hhdr : (opPhases op).hdr (issue op s) = beginEncode (some bs) tt len height width header (issue op s))
    (hheader : header.length = 27) (hover : Config.capBits < (header ++ assemble (bs.map k.enc)).length) :
    runCommand k (opPhases op) op s = .next (aborted s 7#4 0#2 s.inLen s.obuf) := by
  rw [List.length_append, hheader, assemble, bytesToBits_length] at hover
  have hne : bs ≠ [] := by rintro rfl; simp [Config.capBits] at hover
  have hpos : 0 < bs.length := List.length_pos_iff.2 hne
  rw [runCommand_of_next hb hhdr]
  refine (EncodesFrom.overflows (rest := bs) ⟨hop, if_pos hpos, rfl, ⟨bs, ?_, rfl⟩, Nat.zero_add _, ?_⟩ ?_
    (Nat.le_succ _)).trans rfl
  · exact (commandBlocks_congr (s := issue op s) rfl rfl rfl).trans hbs
  · show Config.hdrBits + 8 * 0 ≤ Config.capBits
    decide
  · simpa [Config.hdrBits] using hover

/-- `ENCT` aborts where the frame of the message does not fit `OBUF` (43_encoder.md R188). -/
theorem execEnctWith_overflows {k : Codec} {s : State} {B : Bytes} (hb : s.status.busy = false)
    (hlen : s.inLen.toNat / 8 ≤ 16777215) (hmod : s.inLen.toNat % 8 = 0) (hB : inputBytes s (s.inLen.toNat / 8) = some B)
    (hover : Config.capBits < (frameText k B).length) :
    execEnctWith k s = .next (aborted s 7#4 0#2 s.inLen s.obuf) := by
  have hblocks : textBlocks (issue .enct s) = some (msgBlocks B true) := congrArg (Option.map _) hB
  have hbegins := hdrEnct_begins (s := issue .enct s) hlen hmod
  rw [hblocks, issue_inLen, ← inputBytes_length hB] at hbegins
  exact encoder_overflows (op := .enct) rfl hb hblocks hbegins (hdrTextBits_length _) hover

/-- `ENCI` aborts where the frame of the pixel bytes does not fit `OBUF` (43_encoder.md R188). -/
theorem execEnciWith_overflows {k : Codec} {s : State} {B : Bytes} (hb : s.status.busy = false) (hheight : s.arg0.toNat ≤ 4095)
    (hwidth : s.arg1.toNat ≤ 4095) (hlen : s.inLen.toNat = 8 * (3 * s.arg0.toNat * s.arg1.toNat))
    (hB : inputBytes s (s.inLen.toNat / 8) = some B)
    (hover : Config.capBits < (frameImage k B s.arg0.toNat s.arg1.toNat).length) :
    execEnciWith k s = .next (aborted s 7#4 0#2 s.inLen s.obuf) := by
  have hblocks : imageBlocks (issue .enci s) = some (msgBlocks B false) := congrArg (Option.map _) hB
  have hbegins := hdrEnci_begins (s := issue .enci s) hheight hwidth hlen
  rw [hblocks] at hbegins
  exact encoder_overflows (op := .enci) rfl hb hblocks hbegins (hdrImageBits_length _ _) hover

/-- Settles O38: for either encoder the frame fits and is delivered, or does not and the command aborts. -/
theorem encodersAbortPastTheBuffer : Obligations.EncodersAbortPastTheBuffer := by
  intro k s B hb hB
  refine ⟨fun hlen hmod => ?text, fun hheight hwidth hlen => ?image⟩
  case text =>
    split
    case isTrue hfit => exact execEnctWith_delivers hb hlen hmod hB hfit
    case isFalse hfit => exact execEnctWith_overflows hb hlen hmod hB (Nat.lt_of_not_le hfit)
  case image =>
    split
    case isTrue hfit => exact execEnciWith_delivers hb hheight hwidth hlen hB hfit
    case isFalse hfit => exact execEnciWith_overflows hb hheight hwidth hlen hB (Nat.lt_of_not_le hfit)

end Sys2Proof.Machine
end

section
namespace Sys2Proof.Machine

/-! ### Frames made of codeword blocks -/

/-- `bits` is a frame that fits `IBUF`: after the header come the codeword blocks `cs`, which hold at least `n` bytes
(44_decoder.md R203, R204). -/
structure FrameOfBlocks (bits : Bits) (cs : List Bytes) (n : Nat) : Prop where
  blocks : cwBlocks (region bits) = cs
  whole : (bits.length - 27) % 8 = 0
  holds : n ≤ (bits.length - 27) / 8
  fits : bits.length ≤ Config.capBits

/-- As many codeword blocks as a payload has message blocks fit `IBUF` with a header, for the longest text and the largest
image (43_encoder.md R188). -/
theorem frameOfBlocks_of_cut {header : Bits} {cs : List Bytes} {n : Nat} (hheader : header.length = 27)
    (hcut : cwBlocks cs.flatten = cs) (hcount : cs.length = ceilDiv n 223) (hholds : n ≤ cs.flatten.length)
    (hn : n ≤ 50307075) : FrameOfBlocks (header ++ assemble cs) cs n := by
  have hlen : (header ++ assemble cs).length = 27 + 8 * cs.flatten.length := by
    rw [List.length_append, hheader, assemble, bytesToBits_length]
  have hbytes : ceilDiv cs.flatten.length 255 = ceilDiv n 223 := by rw [← cwBlocks_length, hcut, hcount]
  simp only [ceilDiv] at hbytes
  refine ⟨by rw [region_assemble hheader, hcut], by omega, by omega, ?_⟩
  rw [hlen, Config.capBits]
  omega

/-- The largest image has 50307075 pixel bytes. -/
theorem image_size_le {n height width : Nat} (hh : height ≤ 4095) (hw : width ≤ 4095) (h : n = 3 * height * width) :
    n ≤ 50307075 := by
  have hpixels : height * width ≤ 4095 * 4095 := Nat.mul_le_mul hh hw
  rw [Nat.mul_assoc] at h
  omega

/-- The message blocks in order start with the message (41_chunker.md R143, R144). -/
theorem isPrefix_flatten_msgBlocks (B : Bytes) (pad : Bool) : B <+: (msgBlocks B pad).flatten := by
  cases pad with
  | true => exact flatten_padded B ▸ List.prefix_append ..
  | false => exact (flatten_chunks (n := 223) (by decide) B).symm ▸ List.prefix_rfl

/-- The message blocks fill no more than their number of full blocks. -/
theorem flatten_msgBlocks_length_le (B : Bytes) (pad : Bool) :
    (msgBlocks B pad).flatten.length ≤ 223 * ceilDiv B.length 223 := by
  cases pad with
  | true => exact (padded_length B).le
  | false => rw [unpadded_length, ceilDiv]; omega

/-- The codewords of a message make a frame (41_chunker.md R148, 43_encoder.md R182, R185). -/
theorem frameOfBlocks_codewords {k : Codec} (hk : k.EncodeLength) {header : Bits} {B : Bytes} (pad : Bool)
    (hheader : header.length = 27) (hB : B.length ≤ 50307075) :
    FrameOfBlocks (header ++ assemble ((msgBlocks B pad).map k.enc)) ((msgBlocks B pad).map k.enc) B.length := by
  refine frameOfBlocks_of_cut hheader (cwBlocks_codewords hk pad B) (by simp) ?_ hB
  have hmessage := (isPrefix_flatten_msgBlocks B pad).length_le
  rw [codewords_length hk]
  omega

/-! ### Delivery of an undamaged payload -/

section
variable {k : Codec} {s : State} {w : Work} {cs : List Bytes} {B : Bytes}

/-- A payload that the accumulator starts with is what is delivered of it (44_decoder.md R215, R216). -/
theorem imagePayload_of_isPrefix {acc : Bytes} (h : B <+: acc) : imagePayload B.length acc = B := by
  rw [imagePayload_of_le h.length_le, ← List.prefix_iff_eq_take.1 h]

/-- With no fallback and an accumulator that starts with the declared payload, the payload is delivered. -/
theorem finishDecode_delivers_isPrefix {acc : Bytes} (hpay : payloadLen w = B.length) (h : B <+: acc) :
    finishDecode (atFin s w acc 0) = .next (delivered s w.t false (txeFlag w.t B) (8 * B.length)
      (if w.t = 0#3 then w.l else w.h) (if w.t = 0#3 then 0 else w.w) w.nblk 0 (Memory.ofBytes B)) := by
  have hlong : payloadLen w ≤ acc.length := hpay.trans_le h.length_le
  rw [finishDecode_delivers fun _ => hlong, hpay, imagePayload_of_isPrefix h]
  rfl

/-- Blocks that each decode to their message give the messages, and no block fails. -/
theorem decodedBytes_of_clean {ms : List Bytes} (h : cs.map k.dec = ms.map some) :
    decodedBytes k cs = ms.flatten ∧ failedBlocks k cs = 0 ∧ ∀ c ∈ cs, k.dec c ≠ none := by
  have hpiece : ∀ c ∈ cs, (k.dec c).isSome = true := by
    intro c hc
    obtain ⟨m, _, hm⟩ := List.mem_map.1 (h ▸ List.mem_map_of_mem hc)
    rw [← hm, Option.isSome_some]
  refine ⟨?_, ?_, fun c hc => Option.isSome_iff_ne_none.1 (hpiece c hc)⟩
  · have hdec : cs.map (fun c => (k.dec c).getD (msgPrefix c)) = (cs.map k.dec).map fun o => o.getD [] := by
      rw [List.map_map]
      refine List.map_congr_left fun c hc => ?_
      obtain ⟨m, hm⟩ := Option.isSome_iff_exists.1 (hpiece c hc)
      rw [Function.comp_apply, hm, Option.getD_some, Option.getD_some]
    rw [decodedBytes, hdec, h, List.map_map]
    simp [Function.comp_def]
  · rw [failedBlocks, List.length_eq_zero_iff, List.filter_eq_nil_iff]
    intro c hc
    simp [Option.isSome_iff_ne_none.1 (hpiece c hc)]

/-- `DEC`, whatever `FBEN`, delivers a payload whose message blocks the codec answers (44_decoder.md R201, R205). -/
theorem OpensRegion.delivers_clean (h : OpensRegion s w cs) {pad : Bool} (hclean : cs.map k.dec = (msgBlocks B pad).map some)
    (hpay : payloadLen w = B.length) (hB : B.length ≤ 50307075) :
    execDecWith k s = .next (delivered s w.t false (txeFlag w.t B) (8 * B.length)
      (if w.t = 0#3 then w.l else w.h) (if w.t = 0#3 then 0 else w.w) (ceilDiv B.length 223) 0 (Memory.ofBytes B)) := by
  obtain ⟨hbytes, hfailed, hnone⟩ := decodedBytes_of_clean hclean
  have hcount : w.nblk = ceilDiv B.length 223 := by
    rw [h.nblk, ← List.length_map (f := k.dec), hclean, List.length_map, msgBlocks_length]
  have hfit : (decodedBytes k cs).length ≤ Config.capBytes := by
    have hle := flatten_msgBlocks_length_le B pad
    rw [ceilDiv] at hle
    rw [hbytes, Config.capBytes]
    omega
  rw [h.reachesFin (.inr hnone) hfit, hbytes, hfailed,
    finishDecode_delivers_isPrefix hpay (isPrefix_flatten_msgBlocks B pad), hcount]

end

/-- A codec that decodes clean codewords gives the messages of a frame back (42_codec.md R163). -/
theorem dec_codewords {k : Codec} (hk : k.CleanDecode) (B : Bytes) (pad : Bool) :
    ((msgBlocks B pad).map k.enc).map k.dec = (msgBlocks B pad).map some := by
  rw [List.map_map]
  refine List.map_congr_left fun m hm => ?_
  obtain ⟨hpos, hle, _⟩ := mem_msgBlocks_length hm
  exact hk m hpos hle

/-- Settles O46: the frame opens into the codewords of the text, which decode to its message blocks. -/
theorem textRoundTrip : Obligations.TextRoundTrip := by
  intro k s B hlen hclean hB hb hbits
  have hsmall : B.length ≤ 50307075 := by omega
  have hframe : FrameOfBlocks (frameText k B) _ B.length :=
    frameOfBlocks_codewords hlen true (hdrTextBits_length _) hsmall
  have hopen := opensRegion_text hb (inputBits_length hbits ▸ hframe.fits) hbits (hdrParse_hdrTextBits hB _) hframe.whole
    hframe.holds
  rw [hframe.blocks] at hopen
  exact hopen.delivers_clean (dec_codewords hclean B true) rfl hsmall

/-- Settles O47: the frame opens into the codewords of the pixel bytes, which decode to their message blocks. -/
theorem imageRoundTrip : Obligations.ImageRoundTrip := by
  intro k s B height width hlen hclean hheight hwidth hB hb hbits
  have hsmall := image_size_le hheight hwidth hB
  have hframe : FrameOfBlocks (frameImage k B height width) _ B.length :=
    frameOfBlocks_codewords hlen false (hdrImageBits_length _ _) hsmall
  have hopen := opensRegion_image hb (inputBits_length hbits ▸ hframe.fits) hbits
    (hdrParse_hdrImageBits hheight hwidth _) hframe.whole (hB ▸ hframe.holds)
  rw [hframe.blocks] at hopen
  exact hopen.delivers_clean (dec_codewords hclean B false) hB.symm hsmall

/-! ### `RAW` on a readable frame -/

/-- The working values of `RAW` once the header is read and `n` blocks are counted (10_state.md R43, 44_decoder.md R221). -/
def rawWork (tt : BitVec 3) (len height width n : Nat) : Work := { decWork tt len height width n with op := .raw }

/-- The first 223 bytes of each block are no more bytes than the blocks. -/
theorem rawBytes_length_le (cs : List Bytes) : (rawBytes cs).length ≤ cs.flatten.length := by
  induction cs with
  | nil => simp [rawBytes]
  | cons c cs ih =>
    have hc := msgPrefix_length c
    simp only [rawBytes, List.map_cons, List.flatten_cons, List.length_append] at ih ⊢
    omega

/-- What `RAW` takes from the blocks of a frame that fits `IBUF` fits `OBUF` (44_decoder.md R212). -/
theorem rawBytes_fit {bits : Bits} (hcap : bits.length ≤ Config.capBits) :
    (rawBytes (cwBlocks (region bits))).length ≤ Config.capBytes := by
  have hle := rawBytes_length_le (cwBlocks (region bits))
  rw [cwBlocks, flatten_chunks (by decide), region_length] at hle
  simp only [cwBlocks, Config.capBits, Config.capBytes] at *
  omega

section
variable {k : Codec} {s : State} {bits : Bits}

/-- `RAW` brings the first 223 bytes of each block to phase FIN, where the header is read and the region passes its tests
(44_decoder.md R221, R222). -/
theorem raw_reachesFin {tt : BitVec 3} {len height width : Nat} (hb : s.status.busy = false)
    (hcap : s.inLen.toNat ≤ Config.capBits) (hbits : inputBits s s.inLen.toNat = some bits)
    (hheader : fetchHeader (issue .raw s) = enterRegion (setHeader tt len height width (issue .raw s)))
    (hmod : (bits.length - 27) % 8 = 0)
    (hpay : payloadLen (setHeader tt len height width (issue .raw s)).work ≤ (bits.length - 27) / 8) :
    execRawWith k s = finishDecode (atFin s (rawWork tt len height width (cwBlocks (region bits)).length)
      (rawBytes (cwBlocks (region bits))) 0) := by
  have hopened : hdrRaw (issue .raw s) = .next (enterBlocks { issue .raw s with
      work := rawWork tt len height width (cwBlocks (region bits)).length }) :=
    hheader.trans (enterRegion_opens (s := setHeader tt len height width (issue .raw s)) hbits hmod hpay)
  have hblocks : codewordBlocks s = some (cwBlocks (region bits)) := congrArg (Option.map _) hbits
  have hfit := rawBytes_fit (bits := bits) (by rwa [inputBits_length hbits])
  generalize cwBlocks (region bits) = cs at hopened hblocks hfit ⊢
  rw [execRawWith, runCommand_of_next (p := rawPhases) hb hopened, enterBlocks_work]
  have hrun := raw_run k cs [] (enterBlocks { issue .raw s with work := rawWork tt len height width cs.length }) hblocks rfl
    (Nat.zero_add _).symm rfl rfl (by cases cs <;> simp [rawWork, decWork])
    (by simpa [rawWork, decWork, Work.none] using hfit)
  refine hrun.trans ?_
  simp only [finRaw, atFin, enterBlocks_work, enterBlocks_obuf, issue_obuf, rawWork, decWork, Work.none, Nat.zero_add]
  rfl

/-- `RAW` on a readable text frame (44_decoder.md R221). -/
theorem rawText_reachesFin {len : Nat} (hb : s.status.busy = false) (hcap : s.inLen.toNat ≤ Config.capBits)
    (hbits : inputBits s s.inLen.toNat = some bits) (hparse : hdrParse bits = .text len)
    (hmod : (bits.length - 27) % 8 = 0) (hpay : len ≤ (bits.length - 27) / 8) :
    execRawWith k s = finishDecode (atFin s (rawWork 0#3 len 0 0 (cwBlocks (region bits)).length)
      (rawBytes (cwBlocks (region bits))) 0) := by
  have hfetch := fetchHeader_text (s := issue .raw s) hcap (inputBits_header hbits) ((hdrParse_take bits).trans hparse)
  exact raw_reachesFin hb hcap hbits (hfetch.trans (execHdrText_decode rfl (.inr rfl))) hmod hpay

/-- `RAW` on a readable image frame (44_decoder.md R221). -/
theorem rawImage_reachesFin {height width : Nat} (hb : s.status.busy = false) (hcap : s.inLen.toNat ≤ Config.capBits)
    (hbits : inputBits s s.inLen.toNat = some bits) (hparse : hdrParse bits = .image height width)
    (hmod : (bits.length - 27) % 8 = 0) (hpay : 3 * height * width ≤ (bits.length - 27) / 8) :
    execRawWith k s = finishDecode (atFin s (rawWork 1#3 0 height width (cwBlocks (region bits)).length)
      (rawBytes (cwBlocks (region bits))) 0) := by
  have hfetch := fetchHeader_image (s := issue .raw s) hcap (inputBits_header hbits) ((hdrParse_take bits).trans hparse)
  exact raw_reachesFin hb hcap hbits (hfetch.trans (execHdrImage_decode rfl (.inr rfl))) hmod hpay

end

/-! ### The codewords of a systematic codec -/

/-- A systematic codec's codewords have 32 bytes more than their messages (42_codec.md R161, R162). -/
theorem encodeLength_of_systematic {k : Codec} (h : k.Systematic) : k.EncodeLength := by
  intro m hpos hle
  obtain ⟨par, hpar, henc⟩ := h m hpos hle
  rw [henc, List.length_append, hpar]

/-- The first 223 bytes of a systematic codeword start with its message (42_codec.md R161, R170). -/
theorem isPrefix_msgPrefix_enc {k : Codec} (h : k.Systematic) {m : Bytes} (hpos : 1 ≤ m.length) (hle : m.length ≤ 223) :
    m <+: msgPrefix (k.enc m) := by
  obtain ⟨par, _, henc⟩ := h m hpos hle
  rw [henc, msgPrefix]
  exact List.prefix_take_iff.2 ⟨List.prefix_append .., hle⟩

/-- What `RAW` takes from the codewords of a systematic codec starts with the message (44_decoder.md R223). -/
theorem isPrefix_rawBytes_codewords {k : Codec} (h : k.Systematic) (pad : Bool) (B : Bytes) :
    B <+: rawBytes ((msgBlocks B pad).map k.enc) := by
  induction B using chunk_induction (n := 223) (by decide) with
  | nil => exact List.nil_prefix
  | last c hne hle =>
    obtain ⟨m, hm⟩ : ∃ m, msgBlocks c pad = [m] := ⟨_, msgBlocks_of_length_le pad hne hle⟩
    obtain ⟨hpos, hle, _⟩ := mem_msgBlocks_length (B := c) (pad := pad) (c := m) (by simp [hm])
    have hmessage : c <+: m := by simpa [hm] using isPrefix_flatten_msgBlocks c pad
    simpa [hm, rawBytes] using hmessage.trans (isPrefix_msgPrefix_enc h hpos hle)
  | full c B hc ih =>
    have hlen := msgPrefix_length (k.enc c)
    have hblock : c = msgPrefix (k.enc c) :=
      (isPrefix_msgPrefix_enc h (by omega) hc.le).eq_of_length_le (by omega)
    rw [msgBlocks_append B pad hc, List.map_cons, rawBytes, List.map_cons, List.flatten_cons, ← hblock]
    exact (List.prefix_append_right_inj c).2 ih

/-- Settles O50: what `RAW` takes from the frame's codewords starts with the payload, which is what is delivered. -/
theorem rawReadsAnUnalteredFrame : Obligations.RawReadsAnUnalteredFrame := by
  intro k s B hk hb
  refine ⟨fun hB hbits => ?text, fun height width hheight hwidth hB hbits => ?image⟩
  case text =>
    have hframe : FrameOfBlocks (frameText k B) _ B.length :=
      frameOfBlocks_codewords (encodeLength_of_systematic hk) true (hdrTextBits_length _) (by omega)
    have hfin := rawText_reachesFin (k := Config.codec) hb (inputBits_length hbits ▸ hframe.fits) hbits
      (hdrParse_hdrTextBits hB _) hframe.whole hframe.holds
    rw [hframe.blocks, List.length_map, msgBlocks_length] at hfin
    exact hfin.trans (finishDecode_delivers_isPrefix rfl (isPrefix_rawBytes_codewords hk true B))
  case image =>
    have hframe : FrameOfBlocks (frameImage k B height width) _ B.length :=
      frameOfBlocks_codewords (encodeLength_of_systematic hk) false (hdrImageBits_length _ _) (image_size_le hheight hwidth hB)
    have hfin := rawImage_reachesFin (k := Config.codec) hb (inputBits_length hbits ▸ hframe.fits) hbits
      (hdrParse_hdrImageBits hheight hwidth _) hframe.whole (hB ▸ hframe.holds)
    rw [hframe.blocks, List.length_map, msgBlocks_length] at hfin
    exact hfin.trans (finishDecode_delivers_isPrefix hB.symm (isPrefix_rawBytes_codewords hk false B))

end Sys2Proof.Machine
end

section
namespace Sys2Proof.Machine

/-! ### The UTF-8 check and the table -/

/-- A byte string matches a row of the table, byte by byte in its range (44_decoder.md R217). -/
abbrev MatchesRow (row : List ByteRange) (q : Bytes) : Prop :=
  List.Forall₂ (fun r v => r.lo.toNat ≤ v.toNat ∧ v.toNat ≤ r.hi.toNat) row q

theorem inByteRange_iff (r : ByteRange) (v : Byte) :
    inByteRange r v = true ↔ r.lo.toNat ≤ v.toNat ∧ v.toNat ≤ r.hi.toNat := by
  rw [inByteRange, Bool.and_eq_true, decide_eq_true_iff, decide_eq_true_iff]

/-- A row leaves `rest` exactly when a string that matches it stands before `rest`. -/
theorem afterRow_eq_some_iff (row : List ByteRange) (B rest : Bytes) :
    afterRow row B = some rest ↔ ∃ q, B = q ++ rest ∧ MatchesRow row q := by
  induction row generalizing B with
  | nil => simp [afterRow]
  | cons r row ih =>
    cases B with
    | nil => simp [afterRow]
    | cons v B =>
      by_cases hv : inByteRange r v = true
      case pos =>
        rw [afterRow, if_pos hv, ih]
        constructor
        · rintro ⟨q, rfl, hq⟩
          exact ⟨v :: q, rfl, .cons ((inByteRange_iff r v).1 hv) hq⟩
        · rintro ⟨q, hB, _ | ⟨_, hq⟩⟩
          obtain ⟨rfl, rfl⟩ := List.cons.inj hB
          exact ⟨_, rfl, hq⟩
      case neg =>
        rw [afterRow, if_neg hv]
        refine iff_of_false nofun ?_
        rintro ⟨q, hB, _ | ⟨hfirst, _⟩⟩
        obtain ⟨rfl, _⟩ := List.cons.inj hB
        exact hv ((inByteRange_iff r v).2 hfirst)

/-- Two rows that have ranges for the first byte, and no byte is in both. -/
def firstBytesApart : List ByteRange → List ByteRange → Bool
  | r :: _, r' :: _ => r.hi.toNat < r'.lo.toNat || r'.hi.toNat < r.lo.toNat
  | _, _ => false

/-- Strings that match rows apart from each other start with different bytes. -/
theorem append_ne_append_of_firstBytesApart {row row' : List ByteRange} (h : firstBytesApart row row' = true)
    {q q' : Bytes} (hq : MatchesRow row q) (hq' : MatchesRow row' q') (rest rest' : Bytes) : q ++ rest ≠ q' ++ rest' := by
  cases hq with
  | nil => cases h
  | cons hv _ =>
    cases hq' with
    | nil => cases h
    | cons hw _ =>
      intro heq
      obtain ⟨rfl, _⟩ := List.cons.inj heq
      rw [firstBytesApart, Bool.or_eq_true, decide_eq_true_iff, decide_eq_true_iff] at h
      omega

/-- No byte string starts with sequences of two rows. -/
theorem row_unique {row row' : List ByteRange} (h : row ∈ utf8Table) (h' : row' ∈ utf8Table) {q q' rest rest' : Bytes}
    (hq : MatchesRow row q) (hq' : MatchesRow row' q') (heq : q ++ rest = q' ++ rest') : row = row' := by
  have htable : ∀ x ∈ utf8Table, ∀ y ∈ utf8Table, x ≠ y → firstBytesApart x y = true := by decide
  by_contra hne
  exact append_ne_append_of_firstBytesApart (htable row h row' h' hne) hq hq' rest rest' heq

/-- A sequence of the table at the start is what the check takes off (44_decoder.md R217). -/
theorem afterSequence_eq_some_iff (B rest : Bytes) :
    afterSequence utf8Table B = some rest ↔ ∃ row ∈ utf8Table, ∃ q, B = q ++ rest ∧ MatchesRow row q := by
  constructor
  · intro h
    obtain ⟨row, hrow, hafter⟩ := List.exists_of_findSome?_eq_some h
    exact ⟨row, hrow, (afterRow_eq_some_iff row B rest).1 hafter⟩
  · rintro ⟨row, hrow, q, rfl, hq⟩
    have hafter : afterRow row (q ++ rest) = some rest := (afterRow_eq_some_iff ..).2 ⟨q, rfl, hq⟩
    have hsome : (utf8Table.findSome? fun row => afterRow row (q ++ rest)).isSome = true :=
      List.findSome?_isSome_iff.2 ⟨row, hrow, by rw [hafter, Option.isSome_some]⟩
    obtain ⟨rest', hfound⟩ := Option.isSome_iff_exists.1 hsome
    obtain ⟨row', hrow', hafter'⟩ := List.exists_of_findSome?_eq_some hfound
    obtain ⟨q', heq, hq'⟩ := (afterRow_eq_some_iff ..).1 hafter'
    obtain rfl := row_unique hrow hrow' hq hq' heq
    rw [afterSequence, hfound, ← hafter', hafter]

/-- A sequence of the table has a byte. -/
theorem length_pos_of_matchesRow {row : List ByteRange} (h : row ∈ utf8Table) {q : Bytes} (hq : MatchesRow row q) :
    0 < q.length := by
  have hrows : ∀ row ∈ utf8Table, 0 < row.length := by decide
  exact hq.length_eq ▸ hrows row h

/-- `B` is the sequences `parts` of the table one after another (44_decoder.md R217). -/
def SequencesOf (B : Bytes) (parts : List Bytes) : Prop :=
  parts.flatten = B ∧ ∀ q ∈ parts, ∃ row ∈ utf8Table, MatchesRow row q

/-- What the check accepts, however many sequences it may take, is made of sequences of the table. -/
theorem sequencesOf_of_utf8WfUpTo {n : Nat} {B : Bytes} (h : utf8WfUpTo n B = true) : ∃ parts, SequencesOf B parts := by
  induction n generalizing B with
  | zero =>
    cases B with
    | nil => exact ⟨[], rfl, nofun⟩
    | cons v B => cases h
  | succ n ih =>
    cases B with
    | nil => exact ⟨[], rfl, nofun⟩
    | cons v B =>
      rw [utf8WfUpTo] at h
      split at h
      case h_2 => cases h
      case h_1 rest hafter =>
        obtain ⟨row, hrow, q, hB, hq⟩ := (afterSequence_eq_some_iff ..).1 hafter
        obtain ⟨parts, rfl, hparts⟩ := ih h
        exact ⟨q :: parts, hB.symm, List.forall_mem_cons.2 ⟨⟨row, hrow, hq⟩, hparts⟩⟩

/-- Sequences of the table are accepted where the check may take as many as there are bytes. -/
theorem utf8WfUpTo_of_sequencesOf {n : Nat} {B : Bytes} {parts : List Bytes} (h : SequencesOf B parts) (hn : B.length ≤ n) :
    utf8WfUpTo n B = true := by
  obtain ⟨rfl, hparts⟩ := h
  induction parts generalizing n with
  | nil => cases n <;> rfl
  | cons q parts ih =>
    obtain ⟨⟨row, hrow, hq⟩, hrest⟩ := List.forall_mem_cons.1 hparts
    have hpos := length_pos_of_matchesRow hrow hq
    rw [List.flatten_cons] at hn ⊢
    have hafter : afterSequence utf8Table (q ++ parts.flatten) = some parts.flatten :=
      (afterSequence_eq_some_iff ..).2 ⟨row, hrow, q, rfl, hq⟩
    rw [List.length_append] at hn
    obtain ⟨n, rfl⟩ : ∃ i, n = i + 1 := ⟨n - 1, by omega⟩
    obtain ⟨v, B, hB⟩ := List.exists_cons_of_length_pos (l := q ++ parts.flatten) (by rw [List.length_append]; omega)
    rw [hB] at hafter ⊢
    rw [utf8WfUpTo, hafter]
    exact ih hrest (by omega)

/-- Settles O14: the check takes one sequence of the table after another off the bytes, and at each place only one row fits. -/
theorem utf8CheckIsTheTable : Obligations.Utf8CheckIsTheTable := fun _ =>
  ⟨sequencesOf_of_utf8WfUpTo, fun ⟨_, hparts⟩ => utf8WfUpTo_of_sequencesOf hparts le_rfl⟩

end Sys2Proof.Machine
end

section
namespace Sys2Proof.Machine

/-! ### Phase HDR of the decoders -/

section
variable {s : State} {op : Opcode}

/-- An input longer than `IBUF` aborts a command that fetches a header (44_decoder.md R201). -/
theorem fetchHeader_issue_overlong (h : Config.capBits < s.inLen.toNat) :
    fetchHeader (issue op s) = .next (aborted s 7#4 0#2 s.inLen s.obuf) :=
  (fetchHeader_overlong (s := issue op s) h).trans (congrArg _ (raise_word .operand 0#2 s.inLen (issue op s)))

section
variable {bits : Bits} (hcap : s.inLen.toNat ≤ Config.capBits)
  (hbits : inputBits s (min s.inLen.toNat Config.hdrBits) = some bits)
include hcap hbits

/-- An input too short for a header aborts (44_decoder.md R201). -/
theorem fetchHeader_issue_short (hparse : hdrParse bits = .short) :
    fetchHeader (issue op s) = .next (aborted s 5#4 0#2 s.inLen s.obuf) :=
  (fetchHeader_short (s := issue op s) hcap hbits hparse).trans
    (congrArg _ (raise_word .bitstreamLength 0#2 s.inLen (issue op s)))

/-- An unrecognised tag aborts with the tag (44_decoder.md R201). -/
theorem fetchHeader_issue_badTag {t : Nat} (hparse : hdrParse bits = .badTag t) :
    fetchHeader (issue op s) = .next (aborted s 3#4 0#2 (BitVec.ofNat 32 t) s.obuf) :=
  fetchHeader_badTag (s := issue op s) hcap hbits hparse

/-- A header that declares `n` bytes gives either decoder the same working values `T`, `L`, `H`, `W`, which declare `n` bytes,
and the decoder opens the region (44_decoder.md R201, R202, R221). -/
theorem fetchHeader_issue_declares {n : Nat} (hn : declaredLength (hdrParse bits) = some n) :
    ∃ tt len height width, payloadLen (decWork tt len height width 0) = n ∧ ∀ op, op = .dec ∨ op = .raw →
      fetchHeader (issue op s) = enterRegion (setHeader tt len height width (issue op s)) := by
  cases hparse : hdrParse bits with
  | short => simp [hparse, declaredLength] at hn
  | badTag tag => simp [hparse, declaredLength] at hn
  | text len =>
    simp only [hparse, declaredLength, Option.some.injEq] at hn
    refine ⟨0#3, len, 0, 0, hn, fun op hop => ?_⟩
    exact (fetchHeader_text (s := issue op s) hcap hbits hparse).trans (execHdrText_decode rfl hop)
  | image height width =>
    simp only [hparse, declaredLength, Option.some.injEq] at hn
    refine ⟨1#3, 0, height, width, hn, fun op hop => ?_⟩
    exact (fetchHeader_image (s := issue op s) hcap hbits hparse).trans (execHdrImage_decode rfl hop)

variable {n : Nat} (hop : op = .dec ∨ op = .raw) (hn : declaredLength (hdrParse bits) = some n)
include hop hn

/-- A region that is not whole bytes aborts a decoder (44_decoder.md R203). -/
theorem fetchHeader_issue_ragged (hmod : (s.inLen.toNat - 27) % 8 ≠ 0) :
    fetchHeader (issue op s) = .next (aborted s 5#4 1#2 s.inLen s.obuf) := by
  obtain ⟨tt, len, height, width, _, hregion⟩ := fetchHeader_issue_declares hcap hbits hn
  exact (hregion op hop).trans (enterRegion_setHeader_ragged (s := issue op s) hmod)

/-- A region shorter than the declared payload aborts a decoder (44_decoder.md R203). -/
theorem fetchHeader_issue_regionShort (hmod : (s.inLen.toNat - 27) % 8 = 0) (hshort : (s.inLen.toNat - 27) / 8 < n) :
    fetchHeader (issue op s) = .next (aborted s 5#4 2#2 s.inLen s.obuf) := by
  obtain ⟨tt, len, height, width, rfl, hregion⟩ := fetchHeader_issue_declares hcap hbits hn
  exact (hregion op hop).trans (enterRegion_setHeader_short (s := issue op s) hmod hshort)

end

end

/-- A decoder whose phase HDR ends it in an abort ends there. -/
theorem exec_decoder_of_aborts {i : Instr} {s : State} {err : BitVec 4} {sub : BitVec 2} {info : Word}
    (hb : s.status.busy = false) (hi : i = .dec ∨ i = .raw)
    (h : ∀ op, op = .dec ∨ op = .raw → fetchHeader (issue op s) = .next (aborted s err sub info s.obuf)) :
    exec i s = .next (aborted s err sub info s.obuf) := by
  rcases hi with rfl | rfl
  · exact runCommand_of_idle (p := decPhases) hb (h .dec (.inl rfl)) rfl
  · exact runCommand_of_idle (p := rawPhases) hb (h .raw (.inr rfl)) rfl

/-- Settles O39: both decoders fetch the header in phase HDR, whose tests are taken in their order. -/
theorem decodersCheckTheFrameFirst : Obligations.DecodersCheckTheFrameFirst := by
  intro s i hb hi
  refine ⟨fun hover => ?overlong, fun bits hcap hbits => ⟨fun hparse => ?short, fun t hparse => ?badTag, fun n hn =>
    ⟨fun hmod => ?ragged, fun hmod hlt => ?regionShort⟩⟩⟩
  all_goals refine exec_decoder_of_aborts hb hi fun op hop => ?_
  case overlong => exact fetchHeader_issue_overlong hover
  case short => exact fetchHeader_issue_short hcap hbits hparse
  case badTag => exact fetchHeader_issue_badTag hcap hbits hparse
  case ragged => exact fetchHeader_issue_ragged hcap hbits hop hn hmod
  case regionShort => exact fetchHeader_issue_regionShort hcap hbits hop hn hmod hlt

/-! ### `RAW` to its end -/

/-- Settles O43: `RAW` brings the first 223 bytes of each block to phase FIN, which delivers them, or aborts on a short
text. -/
theorem rawExtractsThePrefixes : Obligations.RawExtractsThePrefixes := by
  intro s bits hb hcap hbits hmod
  refine ⟨fun len hparse hpay => ⟨fun henough => ?delivered, fun hshort => ?short⟩, fun height width hparse hpay => ?image⟩
  case delivered =>
    rw [← imagePayload_of_le henough]
    exact (rawText_reachesFin hb hcap hbits hparse hmod hpay).trans (finishDecode_delivers fun _ => henough)
  case short => exact ⟨_, (rawText_reachesFin hb hcap hbits hparse hmod hpay).trans (finishDecode_short rfl hshort)⟩
  case image =>
    exact (rawImage_reachesFin hb hcap hbits hparse hmod hpay).trans
      (finishDecode_delivers fun htag => absurd htag (by simp [rawWork, decWork]))

/-! ### `DEC` without a block that decodes -/

/-- What a decoder finds in phase HDR: an unwritten byte, an error, or a frame both decoders open on the same working values
(44_decoder.md R201, R221). -/
inductive HeaderOutcome (s : State) : Prop
  | faults (e : Fault) (h : ∀ op, op = .dec ∨ op = .raw → fetchHeader (issue op s) = .fault e)
  | aborts (err : BitVec 4) (sub : BitVec 2) (info : Word) (herr : err ≠ 0#4)
      (h : ∀ op, op = .dec ∨ op = .raw → fetchHeader (issue op s) = .next (aborted s err sub info s.obuf))
  | opens (bits : Bits) (tt : BitVec 3) (len height width : Nat) (hcap : s.inLen.toNat ≤ Config.capBits)
      (hbits : inputBits s s.inLen.toNat = some bits) (hmod : (bits.length - 27) % 8 = 0)
      (hpay : payloadLen (decWork tt len height width 0) ≤ (bits.length - 27) / 8)
      (h : ∀ op, op = .dec ∨ op = .raw →
        fetchHeader (issue op s) = enterRegion (setHeader tt len height width (issue op s)))

/-- A header that declares a payload leads to an abort on the region, to an unwritten byte or to a frame opened. -/
theorem headerOutcome_of_declared {s : State} {header : Bits} {n : Nat} (hcap : s.inLen.toNat ≤ Config.capBits)
    (hheader : inputBits s (min s.inLen.toNat Config.hdrBits) = some header)
    (hn : declaredLength (hdrParse header) = some n) : HeaderOutcome s := by
  by_cases hmod : (s.inLen.toNat - 27) % 8 = 0
  case neg => exact .aborts _ _ _ (by decide) fun op hop => fetchHeader_issue_ragged hcap hheader hop hn hmod
  by_cases hpay : (s.inLen.toNat - 27) / 8 < n
  case pos => exact .aborts _ _ _ (by decide) fun op hop => fetchHeader_issue_regionShort hcap hheader hop hn hmod hpay
  obtain ⟨tt, len, height, width, rfl, hregion⟩ := fetchHeader_issue_declares hcap hheader hn
  have hfit := Nat.le_of_not_lt hpay
  cases hbits : inputBits s s.inLen.toNat with
  | none =>
    refine .faults .unwrittenInput fun op hop => (hregion op hop).trans ?_
    exact enterRegion_unwritten (s := setHeader tt len height width (issue op s)) hmod hfit hbits
  | some bits =>
    have hlen := inputBits_length hbits
    exact .opens bits tt len height width hcap hbits (hlen ▸ hmod) (hlen ▸ hfit) hregion

/-- Phase HDR of a decoder has one of these outcomes, by the order of its tests (60_exceptions.md R269). -/
theorem headerOutcome (s : State) : HeaderOutcome s := by
  by_cases hcap : s.inLen.toNat ≤ Config.capBits
  case neg => exact .aborts _ _ _ (by decide) fun op _ => fetchHeader_issue_overlong (Nat.lt_of_not_le hcap)
  case pos =>
    cases hheader : inputBits s (min s.inLen.toNat Config.hdrBits) with
    | none => exact .faults _ fun op _ => fetchHeader_unwritten (s := issue op s) hcap hheader
    | some header =>
      cases hparse : hdrParse header with
      | short => exact .aborts _ _ _ (by decide) fun op _ => fetchHeader_issue_short hcap hheader hparse
      | badTag t => exact .aborts _ _ _ (by decide) fun op _ => fetchHeader_issue_badTag hcap hheader hparse
      | text len => exact headerOutcome_of_declared hcap hheader (by rw [hparse]; rfl)
      | image height width => exact headerOutcome_of_declared hcap hheader (by rw [hparse]; rfl)

/-- Where the codec fails on every block, the pieces of `DEC` are those of `RAW`, all of them counted (44_decoder.md R208). -/
theorem decodedBytes_of_failing {k : Codec} {cs : List Bytes} (h : ∀ c ∈ cs, k.dec c = none) :
    decodedBytes k cs = rawBytes cs ∧ failedBlocks k cs = cs.length := by
  constructor
  · rw [decodedBytes, rawBytes]
    exact congrArg _ (List.map_congr_left fun c hc => by rw [h c hc, Option.getD_none])
  · rw [failedBlocks, List.filter_eq_self.2 fun c hc => by rw [h c hc, Option.isNone_none]]

/-- The blocks of an input that fits `IBUF` are counted in a register without loss (41_chunker.md R147). -/
theorem blockCount_ne_zero_iff {bits : Bits} (hcap : bits.length ≤ Config.capBits) :
    BitVec.ofNat 32 (cwBlocks (region bits)).length ≠ 0#32 ↔ 0 < (cwBlocks (region bits)).length := by
  have hcount : (cwBlocks (region bits)).length < 2 ^ 32 := by
    rw [cwBlocks_length, region_length, ceilDiv]
    simp only [Config.capBits] at hcap
    omega
  generalize (cwBlocks (region bits)).length = n at hcount ⊢
  rw [Ne, ← BitVec.toNat_inj, BitVec.toNat_ofNat, Nat.mod_eq_of_lt hcount, BitVec.toNat_ofNat, Nat.zero_mod]
  exact Nat.pos_iff_ne_zero.symm

/-- The end of `RAW` as `DEC` ends it where the codec fails on every block: every block of a completed command counts as a
fallback (44_decoder.md R208, R223). -/
def countingFallbacks (t : State) : State :=
  if t.status.err = 0#4 then
    { t with failcnt := t.blkcnt, status := { t.status with degraded := decide (t.blkcnt ≠ 0#32) } }
  else t

/-- An abort counts nothing. -/
theorem countingFallbacks_aborted (s : State) {err : BitVec 4} (herr : err ≠ 0#4) (sub : BitVec 2) (info : Word)
    (ob : List Host.Cell) : countingFallbacks (aborted s err sub info ob) = aborted s err sub info ob := if_neg herr

/-- A delivery of `n` blocks counts `n` fallbacks. -/
theorem countingFallbacks_delivered {n : Nat} (hn : BitVec.ofNat 32 n ≠ 0#32 ↔ 0 < n) (s : State) (ftype : BitVec 3)
    (degraded txe : Bool) (outLen res0 res1 failcnt : Nat) (ob : List Host.Cell) :
    countingFallbacks (delivered s ftype degraded txe outLen res0 res1 n failcnt ob) =
      delivered s ftype (decide (0 < n)) txe outLen res0 res1 n n ob := by
  have hdegraded : decide (BitVec.ofNat 32 n ≠ 0#32) = decide (0 < n) := decide_eq_decide.2 hn
  rw [← hdegraded]
  exact if_pos rfl

/-- Phase FIN of `DEC` after a fallback on every block ends as that of `RAW`, but for the count (44_decoder.md R223). -/
theorem finishDecode_of_failing {s t : State} {tt : BitVec 3} {len height width n : Nat} {acc : Bytes}
    (hn : BitVec.ofNat 32 n ≠ 0#32 ↔ 0 < n)
    (h : finishDecode (atFin s (rawWork tt len height width n) acc 0) = .next t) :
    finishDecode (atFin s (decWork tt len height width n) acc n) = .next (countingFallbacks t) := by
  by_cases hshort : tt = 0#3 ∧ acc.length < payloadLen (decWork tt len height width n)
  case pos =>
    obtain ⟨htext, hlt⟩ := hshort
    rw [finishDecode_short (w := rawWork tt len height width n) htext hlt, Host.Outcome.next.injEq] at h
    rw [finishDecode_short (w := decWork tt len height width n) htext hlt, ← h, countingFallbacks_aborted _ (by decide)]
  case neg =>
    have hlong : tt = 0#3 → payloadLen (decWork tt len height width n) ≤ acc.length :=
      fun htext => Nat.le_of_not_lt fun hlt => hshort ⟨htext, hlt⟩
    rw [finishDecode_delivers (w := rawWork tt len height width n) hlong, Host.Outcome.next.injEq] at h
    rw [finishDecode_delivers (w := decWork tt len height width n) hlong, ← h]
    exact congrArg _ (countingFallbacks_delivered hn ..).symm

/-- Settles O45: phase HDR ends both decoders alike, or both open the frame and bring the same pieces to phase FIN. -/
theorem decWithAllBlocksFailingEqualsRaw : Obligations.DecWithAllBlocksFailingEqualsRaw := by
  intro k s t hb hf hfail hraw
  show execDecWith k s = .next (countingFallbacks t)
  cases headerOutcome s with
  | faults e h =>
    have hstop : execRawWith k s = .fault e := runCommand_of_fault (p := rawPhases) hb (h .raw (.inr rfl))
    rw [hstop] at hraw
    cases hraw
  | aborts err sub info herr h =>
    have hend : execRawWith k s = _ := runCommand_of_idle (p := rawPhases) hb (h .raw (.inr rfl)) rfl
    rw [hend, Host.Outcome.next.injEq] at hraw
    rw [← hraw, countingFallbacks_aborted s herr]
    exact runCommand_of_idle (p := decPhases) hb (h .dec (.inl rfl)) rfl
  | opens bits tt len height width hcap hbits hmod hpay h =>
    have hopen := opensRegion_of_header hb hbits (h .dec (.inl rfl)) hmod hpay
    obtain ⟨hbytes, hcount⟩ := decodedBytes_of_failing (hfail bits hbits)
    have hlen : bits.length ≤ Config.capBits := by rwa [inputBits_length hbits]
    rw [raw_reachesFin hb hcap hbits (h .raw (.inr rfl)) hmod hpay] at hraw
    rw [hopen.reachesFin (.inl hf) (hbytes ▸ rawBytes_fit hlen), hbytes, hcount]
    exact finishDecode_of_failing (blockCount_ne_zero_iff hlen) hraw

end Sys2Proof.Machine
end

section
namespace Sys2Proof.Machine

/-! ### Frames made of blocks of codeword length -/

/-- The lengths of `cs` are those of the codewords of the message blocks of `B` (42_codec.md R162). -/
def CodewordLengths (B : Bytes) (pad : Bool) (cs : List Bytes) : Prop :=
  cs.map List.length = (msgBlocks B pad).map fun m => m.length + 32

section
variable {B : Bytes} {pad : Bool} {cs : List Bytes}

theorem CodewordLengths.length_eq (h : CodewordLengths B pad cs) : cs.length = ceilDiv B.length 223 := by
  rw [← List.length_map (f := List.length), h, List.length_map, msgBlocks_length]

/-- Blocks as long as the codewords of a message are cut back one by one, whatever they hold (41_chunker.md R148). -/
theorem CodewordLengths.cut (h : CodewordLengths B pad cs) : cwBlocks cs.flatten = cs := by
  induction B using chunk_induction (n := 223) (by decide) generalizing cs with
  | nil =>
    rw [CodewordLengths, msgBlocks_nil, List.map_nil, List.map_eq_nil_iff] at h
    exact h ▸ chunks_nil _
  | last b hne hle =>
    obtain ⟨m, hm⟩ : ∃ m, msgBlocks b pad = [m] := ⟨_, msgBlocks_of_length_le pad hne hle⟩
    obtain ⟨hpos, hle, _⟩ := mem_msgBlocks_length (B := b) (pad := pad) (c := m) (by simp [hm])
    rw [CodewordLengths, hm, List.map_singleton] at h
    obtain ⟨c, rfl, hc⟩ := List.map_eq_singleton_iff.1 h
    rw [List.flatten_singleton]
    exact chunks_of_length_le (List.length_pos_iff.1 (by omega)) (by simp only [Config.blockN]; omega)
  | full b B hb ih =>
    rw [CodewordLengths, msgBlocks_append B pad hb, List.map_cons] at h
    obtain ⟨c, rest, rfl, hc, hrest⟩ := List.map_eq_cons_iff.1 h
    rw [List.flatten_cons]
    exact (chunks_append (by decide) (by rw [hc, hb, Config.blockN])).trans (congrArg _ (ih hrest))

/-- The blocks hold at least the message. -/
theorem CodewordLengths.length_le (h : CodewordLengths B pad cs) : B.length ≤ cs.flatten.length := by
  calc B.length
    _ ≤ (msgBlocks B pad).flatten.length := (isPrefix_flatten_msgBlocks B pad).length_le
    _ = ((msgBlocks B pad).map List.length).sum := List.length_flatten
    _ ≤ ((msgBlocks B pad).map fun m => m.length + 32).sum := List.sum_le_sum fun m _ => Nat.le_add_right ..
    _ = cs.flatten.length := by rw [List.length_flatten, h]

/-- After a header such blocks make a frame of the message's length (43_encoder.md R182, R185). -/
theorem CodewordLengths.frame (h : CodewordLengths B pad cs) {header : Bits} (hheader : header.length = 27)
    (hB : B.length ≤ 50307075) : FrameOfBlocks (header ++ assemble cs) cs B.length :=
  frameOfBlocks_of_cut hheader h.cut h.length_eq h.length_le hB

end

section
variable {s : State} {B : Bytes} {cs : List Bytes}

/-- `DEC` opens a text frame of such blocks (44_decoder.md R201). -/
theorem opensRegion_textBlocks (hlen : CodewordLengths B true cs) (hB : B.length ≤ 16777215) (hb : s.status.busy = false)
    (hbits : inputBits s s.inLen.toNat = some (hdrTextBits B.length ++ assemble cs)) :
    OpensRegion s (decWork 0#3 B.length 0 0 cs.length) cs := by
  have hframe := hlen.frame (hdrTextBits_length B.length) (by omega)
  have hopen := opensRegion_text hb (inputBits_length hbits ▸ hframe.fits) hbits (hdrParse_hdrTextBits hB _) hframe.whole
    hframe.holds
  rwa [hframe.blocks] at hopen

/-- `DEC` opens an image frame of such blocks (44_decoder.md R201). -/
theorem opensRegion_imageBlocks {height width : Nat} (hlen : CodewordLengths B false cs) (hheight : height ≤ 4095)
    (hwidth : width ≤ 4095) (hB : B.length = 3 * height * width) (hb : s.status.busy = false)
    (hbits : inputBits s s.inLen.toNat = some (hdrImageBits height width ++ assemble cs)) :
    OpensRegion s (decWork 1#3 0 height width cs.length) cs := by
  have hframe := hlen.frame (hdrImageBits_length height width) (image_size_le hheight hwidth hB)
  have hopen := opensRegion_image hb (inputBits_length hbits ▸ hframe.fits) hbits (hdrParse_hdrImageBits hheight hwidth _)
    hframe.whole (hB ▸ hframe.holds)
  rwa [hframe.blocks] at hopen

end

/-! ### Codewords with correctable errors -/

/-- `c` is the codeword of `m` with at most 16 wrong bytes (42_codec.md R164). -/
abbrev CorrectableCodeword (k : Codec) (m c : Bytes) : Prop := c.length = (k.enc m).length ∧ differingBytes (k.enc m) c ≤ 16

/-- Lists whose elements agree, two by two, under two functions. -/
theorem map_eq_map_of_forall₂ {α β γ : Type} {f : α → γ} {g : β → γ} {as : List α} {bs : List β}
    (h : List.Forall₂ (fun a b => f a = g b) as bs) : bs.map g = as.map f := by
  induction h with
  | nil => rfl
  | cons hab _ ih => rw [List.map_cons, List.map_cons, hab, ih]

section
variable {k : Codec} {B : Bytes} {pad : Bool} {cs : List Bytes}

/-- Codewords with correctable errors have the lengths of the codewords. -/
theorem codewordLengths_of_correctable (hk : k.EncodeLength)
    (h : List.Forall₂ (CorrectableCodeword k) (msgBlocks B pad) cs) : CodewordLengths B pad cs :=
  map_eq_map_of_forall₂ <| ((List.forall₂_and_left _ _).2 ⟨fun _ hm => hm, h⟩).imp
    fun _ _ ⟨hm, hc, _⟩ => (hc.trans (enc_length_of_mem hk hm)).symm

/-- Codewords with correctable errors decode to the messages (42_codec.md R164). -/
theorem dec_correctable (hcorrects : ∀ m ∈ msgBlocks B pad, k.CorrectsMessage m)
    (h : List.Forall₂ (CorrectableCodeword k) (msgBlocks B pad) cs) : cs.map k.dec = (msgBlocks B pad).map some :=
  map_eq_map_of_forall₂ <| ((List.forall₂_and_left _ _).2 ⟨hcorrects, h⟩).imp
    fun _ c ⟨hm, hc, hdiff⟩ => (hm c hc hdiff).symm

end

/-- Settles O48: blocks with correctable errors have the lengths of the codewords and decode to the same messages. -/
theorem correctableErrorsChangeNothing : Obligations.CorrectableErrorsChangeNothing := by
  intro k s B cs hk hb
  refine ⟨fun hB hcorrects hcs hbits => ?text, fun height width hheight hwidth hB hcorrects hcs hbits => ?image⟩
  case text =>
    have hopen := opensRegion_textBlocks (codewordLengths_of_correctable hk hcs) hB hb hbits
    exact hopen.delivers_clean (dec_correctable hcorrects hcs) rfl (by omega)
  case image =>
    have hopen := opensRegion_imageBlocks (codewordLengths_of_correctable hk hcs) hheight hwidth hB hb hbits
    exact hopen.delivers_clean (dec_correctable hcorrects hcs) hB.symm (image_size_le hheight hwidth hB)

/-! ### One block the codec fails on -/

theorem failedBlocks_append (k : Codec) (as bs : List Bytes) :
    failedBlocks k (as ++ bs) = failedBlocks k as + failedBlocks k bs := by simp [failedBlocks]

/-- A padded message block has 223 bytes (41_chunker.md R144). -/
theorem length_of_mem_padded {B m : Bytes} (h : m ∈ msgBlocks B true) : m.length = 223 :=
  (mem_msgBlocks_length h).2.2 rfl

/-- Blocks of 255 bytes are as long as the codewords of as many padded message blocks. -/
theorem codewordLengths_of_full {B : Bytes} {cs : List Bytes} (hcount : cs.length = ceilDiv B.length 223)
    (hlen : ∀ b ∈ cs, b.length = 255) : CodewordLengths B true cs := by
  have hmsg : ∀ m ∈ msgBlocks B true, m.length + 32 = 255 := fun m hm => by rw [length_of_mem_padded hm]
  rw [CodewordLengths, List.map_congr_left hlen, List.map_congr_left hmsg, List.map_const', List.map_const', hcount,
    msgBlocks_length]

/-- The first `i` of blocks of one length together. -/
theorem sum_take_lengths {n i : Nat} {bs : List Bytes} (h : ∀ b ∈ bs, b.length = n) (hi : i ≤ bs.length) :
    ((bs.map List.length).take i).sum = n * i := by
  rw [List.map_congr_left h, List.map_const', List.take_replicate, List.sum_replicate, Nat.min_eq_left hi, smul_eq_mul,
    Nat.mul_comm]

section
variable {k : Codec} {cs ms : List Bytes} {c : Bytes} {i : Nat}

/-- Where every block but the `i`-th is answered with its message, so are the blocks before it and those after it. -/
theorem map_dec_around (hcount : cs.length = ms.length)
    (hothers : ∀ (j : Nat) (b : Bytes), j ≠ i → cs[j]? = some b → k.dec b = ms[j]?) :
    (cs.take i).map k.dec = (ms.take i).map some ∧ (cs.drop (i + 1)).map k.dec = (ms.drop (i + 1)).map some := by
  have hat (j : Nat) (hj : j ≠ i) : cs[j]?.map k.dec = ms[j]?.map some := by
    by_cases hlt : j < cs.length
    case pos =>
      have hcs := List.getElem?_eq_getElem hlt
      have hms := List.getElem?_eq_getElem (hcount ▸ hlt)
      rw [hcs, Option.map_some, hothers j _ hj hcs, hms, Option.map_some]
    case neg => rw [List.getElem?_eq_none (by omega), List.getElem?_eq_none (by omega)]; rfl
  constructor <;> refine List.ext_getElem? fun j => ?_
  · rw [List.getElem?_map, List.getElem?_map, List.getElem?_take, List.getElem?_take]
    split
    case isTrue hlt => exact hat j hlt.ne
    case isFalse => rfl
  · rw [List.getElem?_map, List.getElem?_map, List.getElem?_drop, List.getElem?_drop]
    exact hat _ (by omega)

/-- Then the pieces are the messages with the first 223 bytes of the failing block in the place of its own, and one block has
failed (44_decoder.md R208, R211). -/
theorem decodedBytes_of_one_failing (hc : cs[i]? = some c) (hfail : k.dec c = none) (hcount : cs.length = ms.length)
    (hothers : ∀ (j : Nat) (b : Bytes), j ≠ i → cs[j]? = some b → k.dec b = ms[j]?) :
    decodedBytes k cs = (ms.take i).flatten ++ msgPrefix c ++ (ms.drop (i + 1)).flatten ∧ failedBlocks k cs = 1 := by
  obtain ⟨hi, hci⟩ := List.getElem?_eq_some_iff.1 hc
  have hsplit : cs = cs.take i ++ ([c] ++ cs.drop (i + 1)) := by
    rw [← hci, List.singleton_append, List.getElem_cons_drop, List.take_append_drop]
  obtain ⟨hbefore, hafter⟩ := map_dec_around hcount hothers
  obtain ⟨hbytes, hfailed, _⟩ := decodedBytes_of_clean hbefore
  obtain ⟨hbytes', hfailed', _⟩ := decodedBytes_of_clean hafter
  obtain ⟨hpiece, hone⟩ := decodedBytes_of_failing (k := k) (cs := [c]) (by simpa using hfail)
  rw [hsplit, decodedBytes_append, decodedBytes_append, failedBlocks_append, failedBlocks_append, hbytes, hbytes', hpiece,
    hfailed, hfailed', hone, List.append_assoc]
  exact ⟨by simp [rawBytes], rfl⟩

end

section
variable {B d : Bytes} {i : Nat}

/-- The message with `d` in the place of its block `i`, padded: the message blocks around `d` (44_decoder.md R226). -/
def damagedBlocks (B d : Bytes) (i : Nat) : Bytes :=
  ((msgBlocks B true).take i).flatten ++ d ++ ((msgBlocks B true).drop (i + 1)).flatten

/-- The damaged message block by block is the damaged message in its padding (41_chunker.md R144). -/
theorem damagedBlocks_eq (hi : i < ceilDiv B.length 223) :
    damagedBlocks B d i = B.take (223 * i) ++ d ++ (B.drop (223 * (i + 1)) ++
      (List.replicate (223 * (msgBlocks B true).length - B.length) 0x00#8).drop (223 * (i + 1) - B.length)) := by
  have hfull : ∀ m ∈ msgBlocks B true, m.length = 223 := fun m => length_of_mem_padded
  have hstart : i * 223 < B.length := (lt_ceilDiv_iff (by decide)).1 hi
  rw [← msgBlocks_length B true] at hi
  rw [damagedBlocks, ← List.take_sum_flatten, ← List.drop_sum_flatten, sum_take_lengths hfull hi.le,
    sum_take_lengths hfull hi, flatten_padded, List.take_append_of_le_length (by omega), List.drop_append]

/-- Bytes in the place of a block leave the length of the padded message as it is. -/
theorem damagedBlocks_length (hi : i < ceilDiv B.length 223) (hd : d.length = 223) :
    (damagedBlocks B d i).length = 223 * ceilDiv B.length 223 := by
  have hstart : i * 223 < B.length := (lt_ceilDiv_iff (by decide)).1 hi
  have hpadded : B.length ≤ 223 * ceilDiv B.length 223 := by rw [ceilDiv]; omega
  rw [damagedBlocks_eq hi]
  simp only [List.length_append, List.length_take, List.length_drop, List.length_replicate, msgBlocks_length, hd]
  omega

/-- Cut to the message's length, the damage is in the block's own 223 bytes alone (44_decoder.md R226). -/
theorem take_damagedBlocks (hi : i < ceilDiv B.length 223) (hd : d.length = 223) :
    (damagedBlocks B d i).take B.length = (B.take (223 * i) ++ d ++ B.drop (223 * (i + 1))).take B.length := by
  have hstart : i * 223 < B.length := (lt_ceilDiv_iff (by decide)).1 hi
  rw [damagedBlocks_eq hi, ← List.append_assoc]
  refine List.take_append_of_le_length ?_
  simp only [List.length_append, List.length_take, List.length_drop, hd]
  omega

end

/-- Settles O49: the pieces are the message blocks with the failing block's first 223 bytes among them, and are delivered cut
to the declared length. -/
theorem oneFailingBlockStaysLocal : Obligations.OneFailingBlockStaysLocal := by
  intro k s B cs i c out hb hf hB hcount hlen hc hfail hothers hbits hout
  have hopen := opensRegion_textBlocks (codewordLengths_of_full hcount hlen) hB hb hbits
  obtain ⟨hbytes, hone⟩ : decodedBytes k cs = damagedBlocks B (msgPrefix c) i ∧ failedBlocks k cs = 1 :=
    decodedBytes_of_one_failing hc hfail (hcount.trans (msgBlocks_length B true).symm) hothers
  have hi : i < ceilDiv B.length 223 := hcount ▸ (List.getElem?_eq_some_iff.1 hc).1
  have hprefix : (msgPrefix c).length = 223 := by rw [msgPrefix_length, hlen c (List.mem_of_getElem? hc)]; rfl
  have hsize := damagedBlocks_length hi hprefix
  rw [ceilDiv] at hsize
  have henough : B.length ≤ (damagedBlocks B (msgPrefix c) i).length := by omega
  have hfit : (damagedBlocks B (msgPrefix c) i).length ≤ Config.capBytes := by rw [Config.capBytes]; omega
  have hpay : imagePayload B.length (damagedBlocks B (msgPrefix c) i) = out :=
    (imagePayload_of_le henough).trans ((take_damagedBlocks hi hprefix).trans hout.symm)
  rw [hopen.reachesFin (.inl hf) (hbytes ▸ hfit), hbytes, hone, ← hpay]
  exact finishDecode_delivers fun _ => henough

end Sys2Proof.Machine
end

section
namespace Sys2Proof.Machine

/-! ### The write to `CMD` -/

/-- A write to `CMD` while not busy is handed to the command port (45_control.md R240). -/
theorem hostWrite_cmd {s : State} (w : Word) (hb : s.status.busy = false) : hostWrite 2 w s = writeCmd w s := by
  rw [hostWrite, if_neg (by simp [hb])]; rfl

theorem commandStep_of_decode {s : State} {w : Word} {i : Instr} (hb : s.status.busy = false)
    (h : decode (.command w) = .ok i) : commandStep w s = exec i s := by
  rw [commandStep, if_neg (by simp [hb]), h]

theorem commandStep_of_error {s : State} {w : Word} {e : DecodeError} (hb : s.status.busy = false)
    (h : decode (.command w) = .error e) : commandStep w s = .next (refuseWord w e s) := by
  rw [commandStep, if_neg (by simp [hb]), h]

/-- The write of the word of a command other than `NOP` issues it (45_control.md R240). -/
theorem writeCmd_issues {op : Opcode} {w : Word} (hop : op ≠ .nop) (hw : encode op.instr = .command w) (s : State) :
    writeCmd w s = issue op s := by
  cases op with
  | nop => contradiction
  | _ => cases hw; rfl

/-- The write of a word that decodes to nothing is refused (45_control.md R240, R246). -/
theorem writeCmd_refuses {w : Word} {e : DecodeError} (h : decode (.command w) = .error e) (s : State) :
    writeCmd w s = refuseWord w e s := by
  have hop : decodeOpcode w = .error e := by
    rw [decode, decodeCommand] at h
    split at h
    · cases h
    · rename_i herror; cases h; exact herror
  rw [writeCmd, hop]

/-- A step refuses an illegal word in both forms of the write to `CMD`. -/
theorem step_refuses {s : State} {w : Word} {e : DecodeError} {rest : List Event} (hb : s.status.busy = false)
    (h : decode (.command w) = .error e) (hevents : s.events = .command w :: rest ∨ s.events = .write 2 w :: rest) :
    step s = .next (refuseWord w e { s with events := rest }) := by
  rcases hevents with he | he
  · exact (step_of_event he).trans (commandStep_of_error hb h)
  · have hwrite : hostWrite 2 w { s with events := rest } = refuseWord w e { s with events := rest } :=
      (hostWrite_cmd (s := { s with events := rest }) w hb).trans (writeCmd_refuses h _)
    exact (step_of_event he).trans (congrArg Host.Outcome.next hwrite)

/-- What a refusal leaves while not busy (45_control.md R246). -/
theorem refuseIllegal_eq {s : State} (w : Word) (sub : BitVec 2) (hb : s.status.busy = false) :
    refuseIllegal w sub s = { s with
      status := { busy := false, done := true, degraded := false, txe := false, ftype := 0#3, err := 6#4, errsub := sub }
      outLen := 0#32, res0 := 0#32, res1 := 0#32, blkcnt := 0#32, failcnt := 0#32, errinfo := w } := by
  rw [refuseIllegal, hb]; rfl

/-- Settles O3: the three branches of `commandStep`. -/
theorem stepRunsTheDecodedCommand : Obligations.StepRunsTheDecodedCommand := by
  intro s w rest he
  rw [step_of_event he]
  exact ⟨fun hb => if_pos hb, fun hb _ hi => commandStep_of_decode hb hi, fun hb _ herror => commandStep_of_error hb herror⟩

/-- Settles O24: busy or not, a step with the word 0 does nothing but take it; the words are those of
`everyCommandWordIsRead`. -/
theorem nopChangesNothing : Obligations.NopChangesNothing := by
  refine ⟨fun s => rfl, fun s rest he => ?step, fun w => ?word, fun w _ hreserved => ?reserved⟩
  case step =>
    rcases he with he | he <;> rw [step_of_event he]
    · exact ite_self _
    · exact congrArg Host.Outcome.next (ite_self _)
  case word => rw [everyCommandWordIsRead.1, encode, Code.command.injEq, eq_comm]
  case reserved =>
    exact (everyCommandWordIsRead.2.1 w).2 (Nat.le_of_not_lt (mt (reserved_eq_zero_iff w).2 hreserved))

/-- Settles O25: phase HDR of `CLR` ends it, on the state right after the issue. -/
theorem clrClearsStatusAndResults : Obligations.ClrClearsStatusAndResults := fun s hb =>
  (exec_command (op := .clr) (by decide) s).trans (runCommand_of_idle hb rfl rfl)

/-- Settles O26: a word of 9 to 15 is refused by its opcode, one of 16 or more by its reserved bits. -/
theorem illegalCommandIsRefused : Obligations.IllegalCommandIsRefused := by
  intro s w rest hb hw hevents
  have hrefused (e : DecodeError) (h : decode (.command w) = .error e) := step_refuses hb h hevents
  by_cases hlarge : 16 ≤ w.toNat
  · rw [hrefused .reservedBits ((everyCommandWordIsRead.2.1 w).2 hlarge), if_pos hlarge]
    exact congrArg Host.Outcome.next (refuseIllegal_eq (s := { s with events := rest }) w 0#2 hb)
  · rw [hrefused .reservedOpcode ((everyCommandWordIsRead.2.2 w).2 ⟨hw, by omega⟩), if_neg hlarge]
    exact congrArg Host.Outcome.next (refuseIllegal_eq (s := { s with events := rest }) w 1#2 hb)

/-- Settles O27: the write is the issue of its command. -/
theorem issueClearsResults : Obligations.IssueClearsResults := by
  intro s op w rest hb hop hw he
  have hissue : hostWrite 2 w { s with events := rest } = issue op { s with events := rest } :=
    (hostWrite_cmd (s := { s with events := rest }) w hb).trans (writeCmd_issues hop hw _)
  exact (step_of_event he).trans (congrArg Host.Outcome.next hissue)

end Sys2Proof.Machine
end

section
namespace Sys2Proof.Machine

/-! ### The engine and the actions still to come -/

/-- `s` with other actions of the outside world still to come (log entry 2). -/
def withEvents (events : List Event) (s : State) : State := { s with events := events }

@[simp] theorem withEvents_inLen (es : List Event) (s : State) : (withEvents es s).inLen = s.inLen := rfl
@[simp] theorem withEvents_phase (es : List Event) (s : State) : (withEvents es s).phase = s.phase := rfl
@[simp] theorem withEvents_blk (es : List Event) (s : State) : (withEvents es s).blk = s.blk := rfl
@[simp] theorem withEvents_work (es : List Event) (s : State) : (withEvents es s).work = s.work := rfl
@[simp] theorem withEvents_answer (es : List Event) (s : State) : (withEvents es s).answer = s.answer := rfl

@[simp] theorem inputBits_withEvents (es : List Event) (s : State) (n : Nat) :
    inputBits (withEvents es s) n = inputBits s n := rfl

@[simp] theorem codewordBlocks_withEvents (es : List Event) (s : State) :
    codewordBlocks (withEvents es s) = codewordBlocks s := rfl

theorem withEvents_self {es : List Event} {s : State} (h : s.events = es) : withEvents es s = s := by subst h; rfl

/-- An outcome with the actions `es` still to come. -/
def carryEvents (es : List Event) (r : Result) : Result := andThen r fun t => .next (withEvents es t)

/-- What goes on from an outcome sees the actions it carries. -/
theorem andThen_carryEvents (es : List Event) (r : Result) (f : State → Result) :
    andThen (carryEvents es r) f = andThen r fun t => f (withEvents es t) := by cases r <;> rfl

/-- A test that does not look at the actions chooses between outcomes that carry them. -/
theorem carryEvents_ite {es : List Event} {c : Prop} [Decidable c] {r r' q q' : Result} (hr : r' = carryEvents es r)
    (hq : q' = carryEvents es q) : (if c then r' else q') = carryEvents es (if c then r else q) := by
  split <;> assumption

section
variable (es : List Event) (s : State)

/-! No phase looks at the actions still to come: from a state with others it goes on to the same state with those. -/

theorem enterRegion_withEvents : enterRegion (withEvents es s) = carryEvents es (enterRegion s) := by
  rw [enterRegion, codewordBlocks_withEvents]
  refine carryEvents_ite rfl (carryEvents_ite rfl ?_)
  cases codewordBlocks s <;> rfl

theorem fetchHeader_withEvents (hp : s.phase = .hdr) (hop : s.work.op = .hunp ∨ s.work.op = .dec ∨ s.work.op = .raw) :
    fetchHeader (withEvents es s) = carryEvents es (fetchHeader s) := by
  rw [fetchHeader, inputBits_withEvents]
  refine carryEvents_ite rfl ?_
  rw [withEvents_inLen]
  cases inputBits s (min s.inLen.toNat Config.hdrBits) with
  | none => rfl
  | some bits =>
    dsimp only
    cases hdrParse bits with
    | short => rfl
    | badTag t => rfl
    | text len =>
      dsimp only
      rcases hop with hop | hop
      · rw [execHdrText_hunp hp hop, execHdrText_hunp (s := withEvents es s) hp hop]; rfl
      · rw [execHdrText_decode hp hop, execHdrText_decode (s := withEvents es s) hp hop]
        exact enterRegion_withEvents es (setHeader 0#3 len 0 0 s)
    | image height width =>
      dsimp only
      rcases hop with hop | hop
      · rw [execHdrImage_hunp hp hop, execHdrImage_hunp (s := withEvents es s) hp hop]; rfl
      · rw [execHdrImage_decode hp hop, execHdrImage_decode (s := withEvents es s) hp hop]
        exact enterRegion_withEvents es (setHeader 1#3 0 height width s)

theorem beginEncode_withEvents (blocks : Option (List Bytes)) (tt : BitVec 3) (len height width : Nat) (header : Bits) :
    beginEncode blocks tt len height width header (withEvents es s) =
      carryEvents es (beginEncode blocks tt len height width header s) := by
  cases blocks <;> rfl

theorem hdrEnct_withEvents : hdrEnct (withEvents es s) = carryEvents es (hdrEnct s) :=
  carryEvents_ite rfl (carryEvents_ite rfl (beginEncode_withEvents ..))

theorem hdrEnci_withEvents : hdrEnci (withEvents es s) = carryEvents es (hdrEnci s) :=
  carryEvents_ite rfl (carryEvents_ite rfl (carryEvents_ite rfl (beginEncode_withEvents ..)))

theorem hdrHpkt_withEvents : hdrHpkt (withEvents es s) = carryEvents es (hdrHpkt s) := carryEvents_ite rfl rfl

theorem hdrHpki_withEvents : hdrHpki (withEvents es s) = carryEvents es (hdrHpki s) :=
  carryEvents_ite rfl (carryEvents_ite rfl rfl)

theorem advance_withEvents : advance (withEvents es s) = withEvents es (advance s) := by
  apply State.ext <;> simp [withEvents]

/-- The move to the next block, from two states alike but for the actions. -/
theorem advance_carries {es : List Event} {u v : State} (h : v = withEvents es u) :
    Host.Outcome.next (advance v) = carryEvents es (.next (advance u)) :=
  h ▸ congrArg Host.Outcome.next (advance_withEvents es u)

theorem appendCodeword_withEvents : appendCodeword (withEvents es s) = carryEvents es (appendCodeword s) := by
  rw [appendCodeword, appendCodeword, withEvents_answer]
  cases s.answer with
  | none => rfl
  | some a => exact carryEvents_ite rfl (advance_carries rfl)

theorem appendPiece_withEvents (piece : Bytes) : appendPiece piece (withEvents es s) = carryEvents es (appendPiece piece s) :=
  carryEvents_ite rfl (advance_carries rfl)

theorem blockDec_withEvents : blockDec (withEvents es s) = carryEvents es (blockDec s) := by
  rw [blockDec, blockDec, withEvents_answer, codewordBlocks_withEvents, withEvents_blk]
  cases s.answer with
  | none => rfl
  | some a =>
    refine carryEvents_ite (appendPiece_withEvents es s a.data) (carryEvents_ite ?_ rfl)
    cases blockAt (codewordBlocks s) s.blk with
    | none => rfl
    | some c => exact appendPiece_withEvents es { s with work := { s.work with nfail := s.work.nfail + 1 } } (msgPrefix c)

theorem blockRaw_withEvents : blockRaw (withEvents es s) = carryEvents es (blockRaw s) := by
  rw [blockRaw, blockRaw, codewordBlocks_withEvents, withEvents_blk]
  cases blockAt (codewordBlocks s) s.blk with
  | none => rfl
  | some c => exact appendPiece_withEvents es s (msgPrefix c)

theorem finishDecode_withEvents : finishDecode (withEvents es s) = carryEvents es (finishDecode s) :=
  carryEvents_ite rfl rfl

/-- An engine step does not look at the actions still to come. -/
theorem engineTurn_withEvents : engineTurn (withEvents es s) = carryEvents es (engineTurn s) := by
  simp only [engineTurn, phaseStep, withEvents_phase, withEvents_work]
  cases hp : s.phase with
  | idle => rfl
  | hdr =>
    cases hop : s.work.op with
    | nop => rfl
    | enct => exact hdrEnct_withEvents es s
    | enci => exact hdrEnci_withEvents es s
    | dec => exact fetchHeader_withEvents es s hp (by simp [hop])
    | raw => exact fetchHeader_withEvents es s hp (by simp [hop])
    | hpkt => exact hdrHpkt_withEvents es s
    | hpki => exact hdrHpki_withEvents es s
    | hunp => exact fetchHeader_withEvents es s hp (by simp [hop])
    | clr => rfl
  | block =>
    cases hop : s.work.op with
    | enct => exact appendCodeword_withEvents es s
    | enci => exact appendCodeword_withEvents es s
    | dec => exact blockDec_withEvents es s
    | raw => exact blockRaw_withEvents es s
    | _ => rfl
  | fin =>
    cases hop : s.work.op with
    | dec => exact finishDecode_withEvents es s
    | raw => exact finishDecode_withEvents es s
    | _ => rfl

/-- Nor does the codec's turn. -/
theorem codecTurn_withEvents (k : Codec) : codecTurn k (withEvents es s) = withEvents es (codecTurn k s) := by
  have hrequest : codecRequest (withEvents es s) = codecRequest s := rfl
  rw [codecTurn, codecTurn, withEvents_answer, hrequest]
  cases s.answer with
  | some a => rfl
  | none => cases codecRequest s <;> rfl

end

/-! ### Rounds of codec and engine -/

theorem andThen_assoc (r : Result) (f g : State → Result) :
    andThen (andThen r f) g = andThen r fun t => andThen (f t) g := by cases r <;> rfl

/-- A round is a codec turn and an engine step, in IDLE too, where both do nothing. -/
theorem runPhases_succ (k : Codec) (p : Phases) (n : Nat) (s : State) :
    runPhases k p (n + 1) s = andThen (phaseStep p (codecTurn k s)) (runPhases k p n) := by
  rw [runPhases]
  split
  case isFalse => rfl
  case isTrue hp =>
    rw [codecTurn_of_no_request (codecRequest_of_phase (by simp [hp])), phaseStep, hp]
    exact (runPhases_of_idle hp n).symm

/-- Rounds made in two parts. -/
theorem runPhases_add (k : Codec) (p : Phases) (m n : Nat) (s : State) :
    runPhases k p (m + n) s = andThen (runPhases k p m s) (runPhases k p n) := by
  induction m generalizing s with
  | zero => rw [Nat.zero_add]; rfl
  | succ m ih =>
    rw [Nat.add_right_comm, runPhases_succ, runPhases_succ, andThen_assoc]
    exact andThen_congr fun t _ => ih t

/-- Once a command has ended, further rounds change nothing (45_control.md R249, R250). -/
theorem runPhases_settles (k : Codec) {op : Opcode} {s t : State} {n : Nat} (hop : op ≠ .nop) (hb : s.status.busy = false)
    (ht : engineTurn (issue op s) = .next t) (hn : t.work.nblk + 1 ≤ n) :
    runPhases k (opPhases op) n t = runCommand k (opPhases op) op s := by
  obtain ⟨d, rfl⟩ := Nat.exists_eq_add_of_le hn
  rw [runPhases_add, ← runCommand_of_next (p := opPhases op) hb ht]
  rcases command_outcome k hop hb with ⟨hfault, _⟩ | ⟨u, hu, hended, _⟩
  · rw [hfault]; rfl
  · rw [hu, andThen_next, runPhases_of_idle hended.1]

/-! ### A command in small steps -/

/-- `n` steps of the machine, as an outcome of the model. -/
def runSteps (n : Nat) (s : State) : Result := Host.Core.run Sys2Proof.core n s

theorem runSteps_succ (n : Nat) (s : State) : runSteps (n + 1) s = andThen (step s) (runSteps n) := by
  have hcore : Sys2Proof.core.step s = step s := rfl
  simp only [runSteps, Host.Core.run, hcore]
  cases step s <;> rfl

/-- The actions of `n` rounds: the codec's turn and an engine step each. -/
def roundEvents (n : Nat) : List Event := (List.replicate n [Event.codec, Event.engine]).flatten

theorem step_codec (es : List Event) (s : State) :
    step (withEvents (.codec :: es) s) = .next (withEvents es (codecTurn Config.codec s)) :=
  congrArg Host.Outcome.next (codecTurn_withEvents es s Config.codec)

theorem step_engine (es : List Event) (s : State) :
    step (withEvents (.engine :: es) s) = carryEvents es (engineTurn s) := engineTurn_withEvents es s

/-- The engine works on command `op` or is idle. -/
def RunsOrIdle (op : Opcode) (s : State) : Prop := s.work.op = op ∨ s.phase = .idle

theorem RunsOrIdle.phaseStep_eq {op : Opcode} {s : State} (h : RunsOrIdle op s) :
    phaseStep (opPhases op) s = engineTurn s := by
  rcases h with hop | hp
  · rw [engineTurn, hop]
  · rw [engineTurn, phaseStep, phaseStep, hp]

theorem RunsOrIdle.codecTurn {op : Opcode} {s : State} (h : RunsOrIdle op s) (k : Codec) :
    RunsOrIdle op (codecTurn k s) := by
  obtain ⟨a, ha⟩ := codecTurn_eq k s
  rw [ha]; exact h

theorem RunsOrIdle.engineTurn {op : Opcode} {s t : State} (h : RunsOrIdle op s) (ht : engineTurn s = .next t) :
    RunsOrIdle op t := by
  rcases h with hop | hp
  · exact hop ▸ engineTurn_keeps_op ht
  · rw [Machine.engineTurn, phaseStep, hp] at ht
    cases ht; exact .inr hp

/-- The machine taking the actions of `n` rounds makes the rounds of `runPhases`. -/
theorem runSteps_rounds (n : Nat) {op : Opcode} {s : State} (h : RunsOrIdle op s) :
    runSteps (2 * n) (withEvents (roundEvents n) s) =
      carryEvents [] (runPhases Config.codec (opPhases op) n s) := by
  induction n generalizing s with
  | zero => rfl
  | succ n ih =>
    have hevents : roundEvents (n + 1) = .codec :: .engine :: roundEvents n := rfl
    rw [hevents, Nat.mul_succ, runSteps_succ, step_codec, andThen_next, runSteps_succ, step_engine, andThen_carryEvents,
      runPhases_succ, (h.codecTurn Config.codec).phaseStep_eq, carryEvents, andThen_assoc]
    exact andThen_congr fun t ht => ih ((h.codecTurn Config.codec).engineTurn ht)

/-- The write to `CMD`, an engine step and `n` rounds are the issue, phase HDR and `n` rounds of the command's phases. -/
theorem runSteps_command {op : Opcode} {w : Word} {s : State} (hop : op ≠ .nop) (hw : encode op.instr = .command w)
    (hb : s.status.busy = false) (n : Nat) :
    runSteps (2 * n + 2) (withEvents (.write 2 w :: .engine :: roundEvents n) s) =
      carryEvents [] (andThen (engineTurn (issue op s)) (runPhases Config.codec (opPhases op) n)) := by
  have hissue : step (withEvents (.write 2 w :: .engine :: roundEvents n) s) =
      .next (withEvents (.engine :: roundEvents n) (issue op s)) := issueClearsResults _ op w _ hb hop hw rfl
  rw [runSteps_succ, hissue, andThen_next, runSteps_succ, step_engine, andThen_carryEvents, carryEvents, andThen_assoc]
  exact andThen_congr fun t ht => runSteps_rounds n (RunsOrIdle.engineTurn (.inl rfl) ht)

/-- A command begun with no action pending ends with none. -/
theorem carryEvents_command {k : Codec} {op : Opcode} {s : State} (he : s.events = []) :
    carryEvents [] (runCommand k (opPhases op) op s) = runCommand k (opPhases op) op s := by
  refine (andThen_congr fun t ht => ?_).trans (andThen_return _)
  obtain ⟨_, _, _, _, _, hevents, _⟩ := command_keepsInput ht
  rw [withEvents_self (hevents.trans he)]

/-- Settles O58: phase HDR stops the command in both views, or goes on to the rounds, of which one a block and one for FIN are
enough. -/
theorem smallStepsAgreeWithTheCommand : Obligations.SmallStepsAgreeWithTheCommand := by
  intro op w s hop hw he hb
  have hrun := runSteps_command hop hw hb
  rw [exec_command hop, ← carryEvents_command he]
  rcases hdr_answers op (issue op s) with ⟨t, ht⟩ | ⟨hfault, _⟩
  · have ht : engineTurn (issue op s) = .next t := ht
    refine ⟨t.work.nblk + 1, fun n hn => (hrun n).trans ?_⟩
    rw [ht, andThen_next, runPhases_settles Config.codec hop hb ht hn]
  · have hfault' : engineTurn (issue op s) = .fault .unwrittenInput := hfault
    refine ⟨0, fun n _ => (hrun n).trans ?_⟩
    rw [hfault', runCommand_of_fault hb hfault, andThen_fault]

end Sys2Proof.Machine
end

section
namespace Sys2Proof.Machine

/-! ### Exceptions and the interrupt line -/

/-- With `DONE` set the line shows `IEN` (60_exceptions.md R272). -/
theorem irq_of_done {s : State} (h : s.status.done = true) : irq s = s.ctrl.ien := by rw [irq, h, Bool.true_and]

/-- With `DONE` clear the line is low, whatever `IEN` is (60_exceptions.md R272). -/
theorem irq_of_not_done {s : State} (h : s.status.done = false) : irq s = false := by rw [irq, h, Bool.false_and]

/-- A write to `CTRL` while not busy stores the control bits and nothing else (10_state.md R25). -/
theorem hostWrite_ctrl {s : State} (v : Word) (hb : s.status.busy = false) :
    hostWrite 1 v s = { s with ctrl := ctrlOfWord v } := by
  simpa using hostWrite_cases (reg := 1) v hb (by decide)

/-- Settles O23: completion, abort and refusal set `DONE`, reset and an issue clear it, and a write to `CTRL` reaches the line
through `IEN` alone. -/
theorem interruptLineIsALevel : Obligations.InterruptLineIsALevel := by
  refine ⟨fun s => rfl, irq_of_not_done rfl, fun s => ?complete, fun e sub info s => ?abort, fun w sub s => ?refuse,
    fun op s => ?issue, fun s v hb => ?write⟩
  case complete => rw [irq_of_done (by simp), complete_ctrl]
  case abort => rw [irq_of_done (by simp), raise_ctrl]
  case refuse => rw [irq_of_done (by simp), refuseIllegal_ctrl]
  case issue => exact irq_of_not_done (by rw [issue_status]; rfl)
  case write => rw [hostWrite_ctrl v hb]; exact ⟨rfl, rfl⟩

/-- `OUT_LEN` is 0 after an abort, so no byte of `OBUF` is valid and every load returns a free value (60_exceptions.md R268). -/
theorem hostLoadOut_raise (i : Nat) (e : ErrKind) (sub : BitVec 2) (info : Nat) (s : State) :
    hostLoadOut i (raise e sub info s) = returnFreeByte (raise e sub info s) := by
  have hnone : ceilDiv (raise e sub info s).outLen.toNat 8 = 0 := by rw [raise_outLen]; rfl
  exact hostLoadOut_free (.inr (.inl (hnone ▸ Nat.zero_le i)))

/-- Settles O28: `raise` sets the registers as the sequence says, each kind of error with its own code, and leaves no byte of
`OBUF` valid. -/
theorem abortSequence : Obligations.AbortSequence := by
  refine fun e sub info s => ⟨?_, fun i => hostLoadOut_raise i e sub info s⟩
  cases e with
  | range => rfl
  | uncorrectableBlock => rfl
  | unrecognizedFrameType => rfl
  | bitstreamLength => rfl
  | illegalCommand => rfl
  | operand => rfl

end Sys2Proof.Machine
end

section
namespace Sys2Proof.Machine

/-! ### Writes while busy -/

/-- A register write while busy, a write to `CMD` among them, is ignored (10_state.md R24). -/
theorem hostWrite_busy {s : State} (reg : Fin 16) (v : Word) (hb : s.status.busy = true) : hostWrite reg v s = s := by
  rw [hostWrite, if_pos hb]

/-- A store to `IBUF` while busy is ignored (20_memory.md R71). -/
theorem hostStoreIn_busy {s : State} (i : Nat) (v : Byte) (hb : s.status.busy = true) : hostStoreIn i v s = s := by
  rw [hostStoreIn, if_pos (by rw [hb, Bool.true_or])]

/-- A command issued while busy is ignored (45_control.md R240). -/
theorem commandStep_busy {s : State} (w : Word) (hb : s.status.busy = true) : commandStep w s = .next s := by
  rw [commandStep, if_pos hb]

/-- Settles O19: each of the four writes, performed on the state without it, is ignored by its own rule; a store to `OBUF` is
ignored busy or not. -/
theorem writesWhileBusyAreLost : Obligations.WritesWhileBusyAreLost := by
  intro s e rest hb he hwrite
  rw [step_of_event he]
  have hb' : ({ s with events := rest } : State).status.busy = true := hb
  rcases hwrite with ⟨reg, v, rfl⟩ | ⟨i, v, rfl⟩ | ⟨i, v, rfl⟩ | ⟨w, rfl⟩
  case inl => exact congrArg Host.Outcome.next (hostWrite_busy reg v hb')
  case inr.inl => exact congrArg Host.Outcome.next (hostStoreIn_busy i v hb')
  case inr.inr.inl => rfl
  case inr.inr.inr => exact commandStep_busy w hb'

/-! ### Reset at any time -/

/-- A step that takes `rst` resets the machine, whatever its state (70_reset_and_hazards.md R300). -/
theorem step_reset {s : State} {rest : List Event} (he : s.events = .reset :: rest) :
    step s = .next (withEvents rest (hardReset s)) := step_of_event he

/-- Reset withdraws the request at the codec port. -/
theorem codecRequest_hardReset (s : State) : codecRequest (hardReset s) = none :=
  codecRequest_of_phase (by rw [hardReset_phase, State.reset]; decide)

/-- The codec's answer that comes after reset is ignored: only the queue of actions moves on (70_reset_and_hazards.md R300). -/
theorem step_codec_hardReset (rest : List Event) (s : State) :
    step (withEvents (.codec :: rest) (hardReset s)) = .next (withEvents rest (hardReset s)) := by
  rw [step_codec, codecTurn_of_no_request (codecRequest_hardReset s)]

/-- Settles O29: reset gives the state after reset, in which the codec has nothing to answer and `DONE` is clear. -/
theorem resetEndsEverything : Obligations.ResetEndsEverything := by
  refine fun s rest => ⟨step_reset, fun he => ?lateAnswer, irq_of_not_done rfl⟩
  case lateAnswer =>
    calc Host.Core.run Sys2Proof.core 2 s
        = Host.Core.run Sys2Proof.core 1 (withEvents (.codec :: rest) (hardReset s)) := run_of_step 1 (step_reset he)
      _ = Host.Core.run Sys2Proof.core 0 (withEvents rest (hardReset s)) := run_of_step 0 (step_codec_hardReset rest s)

end Sys2Proof.Machine
end
